-- ==== Sys2Proof/Word.lean ====
section
/-! DEFINITION. The word types of the QOI codec core (spec/10_state.md, spec/00_scope.md R7 to R10). -/

namespace Sys2Proof

/-- An unsigned 8-bit channel or stream byte (`u8`, R7). -/
abbrev Byte := BitVec 8

/-- A 32-bit interface register or header field (`u32`, R7). -/
abbrev Word := BitVec 32

/-- A pixel: four channels, equal when all four are equal (R10). -/
structure Pixel where
  r : Byte
  g : Byte
  b : Byte
  a : Byte
deriving DecidableEq, Repr

/-- The number of pixel-cache slots (`CACHE_SLOTS`, R5). -/
abbrev cacheSlots : Nat := 64

/-- One engine's pixel cache: 64 slots, each a full pixel, no tag and no valid bit (R24). -/
abbrev PixelCache := Vector Pixel cacheSlots

end Sys2Proof
end

