-- ==== Sys2Proof/Syntax.lean ====
section
/-! DEFINITION. The instructions: one constructor per row of spec/opcode_table.json. -/

namespace Sys2Proof

/-- The six chunk kinds of the stream (spec/30_encoding.md R54 to R59) and the two host commands
(spec/44_commands.md R117, R118). Every argument is the raw field of the encoding, before its bias is taken off. -/
inductive Instr where
  /-- INDEX: `slot = b0[5:0]` (R54). -/
  | index (slot : BitVec 6)
  /-- DIFF: `b0[5:4]`, `b0[3:2]`, `b0[1:0]`, each a delta plus 2 (R55). -/
  | diff (r g b : BitVec 2)
  /-- LUMA: `b0[5:0] = dg + 32`, `b1[7:4] = dr - dg + 8`, `b1[3:0] = db - dg + 8` (R56). -/
  | luma (g : BitVec 6) (r b : BitVec 4)
  /-- RUN: `b0[5:0] = len - 1`, 0 to 61 (R57). -/
  | run (l : BitVec 6)
  /-- RGB: three raw channel bytes (R58). -/
  | rgb (r g b : Byte)
  /-- RGBA: four raw channel bytes (R59). -/
  | rgba (r g b a : Byte)
  /-- ENC_START: a write to `ENC_CTRL` with bit 0 set; `x` is bits 31:1, reserved and ignored (R117, R27). -/
  | encStart (x : BitVec 31)
  /-- DEC_START: a write to `DEC_CTRL` with bit 0 set; `x` is bits 31:1, reserved and ignored (R118, R28). -/
  | decStart (x : BitVec 31)
deriving DecidableEq, Repr

end Sys2Proof
end

