-- ==== Sys2Proof/WellFormed.lean ====
section
/-! DEFINITION. Which instructions the encodings admit. -/

namespace Sys2Proof

/-- The only reserved field values are RUN 62 and 63, whose bytes are the RGB and RGBA tags (R57, R63). Every other
field takes every value of its width. -/
def Instr.wf : Instr → Bool
  | .index _ => true
  | .diff _ _ _ => true
  | .luma _ _ _ => true
  | .run l => decide (l.toNat ≤ 61)
  | .rgb _ _ _ => true
  | .rgba _ _ _ _ => true
  | .encStart _ => true
  | .decStart _ => true

end Sys2Proof
end

