-- ==== Sys2Proof/Decode.lean ====
section
/-! DEFINITION. Decoding of chunks and of control-register writes, total on any bytes and any word, and the encoder
(spec/30_encoding.md R54 to R63; spec/10_state.md R27, R28). -/

namespace Sys2Proof

/-- The two write-only control registers, whose writes are the block's commands (R27, R28). -/
inductive CtrlReg where
  | enc
  | dec
deriving DecidableEq, Repr

/-- What an instruction is written as: bytes of the chunk stream, or one 32-bit write to a control register. The two
are different spaces, as the `space` of each row of the opcode table says (log 1, log 17). -/
inductive Code where
  | chunk (bytes : List Byte)
  | ctrlWrite (reg : CtrlReg) (v : Word)
deriving DecidableEq, Repr

/-- Why nothing is decoded. -/
inductive Reject where
  /-- No byte to read a tag from. -/
  | empty
  /-- The tag asks for `need` bytes and only `have_` are there. -/
  | truncated (need have_ : Nat)
  /-- A control write with bit 0 = 0, which is no command and has no effect (R30). -/
  | notStart
deriving DecidableEq, Repr

/-- The six chunk kinds. -/
inductive Kind where
  | index
  | diff
  | luma
  | run
  | rgb
  | rgba
deriving DecidableEq, Repr

/-- The kind of a chunk, a total function of its tag byte: the two full-byte tags first, then the top two bits
(R60, R103). -/
def kindOf (b0 : Byte) : Kind :=
  if b0 = 0xFE#8 then .rgb
  else if b0 = 0xFF#8 then .rgba
  else if b0.extractLsb' 6 2 = 0#2 then .index
  else if b0.extractLsb' 6 2 = 1#2 then .diff
  else if b0.extractLsb' 6 2 = 2#2 then .luma
  else .run

/-- The length of a chunk in bytes follows from its kind (R61). -/
def Kind.length : Kind → Nat
  | .index => 1
  | .diff => 1
  | .luma => 2
  | .run => 1
  | .rgb => 4
  | .rgba => 5

/-- One chunk read from the front of a byte list, and the bytes after it. The fields are those of R54 to R59. -/
def decodeChunk : List Byte → Except Reject (Instr × List Byte)
  | [] => .error .empty
  | b0 :: rest =>
    match kindOf b0 with
    | .index => .ok (.index (b0.extractLsb' 0 6), rest)
    | .diff => .ok (.diff (b0.extractLsb' 4 2) (b0.extractLsb' 2 2) (b0.extractLsb' 0 2), rest)
    | .luma =>
      match rest with
      | b1 :: t => .ok (.luma (b0.extractLsb' 0 6) (b1.extractLsb' 4 4) (b1.extractLsb' 0 4), t)
      | t => .error (.truncated 2 (t.length + 1))
    | .run => .ok (.run (b0.extractLsb' 0 6), rest)
    | .rgb =>
      match rest with
      | r :: g :: b :: t => .ok (.rgb r g b, t)
      | t => .error (.truncated 4 (t.length + 1))
    | .rgba =>
      match rest with
      | r :: g :: b :: a :: t => .ok (.rgba r g b a, t)
      | t => .error (.truncated 5 (t.length + 1))

/-- The command a control-register write issues, if bit 0 is set (R27, R28, R117, R118). -/
def decodeCtrl (reg : CtrlReg) (v : Word) : Except Reject Instr :=
  if v.extractLsb' 0 1 = 1#1 then
    match reg with
    | .enc => .ok (.encStart (v.extractLsb' 1 31))
    | .dec => .ok (.decStart (v.extractLsb' 1 31))
  else .error .notStart

/-- The decoder over both spaces: the instruction and the bytes left over. -/
def decode : Code → Except Reject (Instr × List Byte)
  | .chunk bs => decodeChunk bs
  | .ctrlWrite reg v => (decodeCtrl reg v).map (fun i => (i, []))

/-- The tag byte of a 2-bit tag and a 6-bit field, the field in the low bits (R8, R54 to R57). -/
def tagByte (tag : BitVec 2) (field : BitVec 6) : Byte := tag ++ field

/-- The bytes of a chunk in stream order, from the encoder side of R54 to R59; empty for a command. -/
def chunkBytes : Instr → List Byte
  | .index slot => [tagByte 0#2 slot]
  | .diff r g b => [tagByte 1#2 ((r ++ g : BitVec 4) ++ b)]
  | .luma g r b => [tagByte 2#2 g, r ++ b]
  | .run l => [tagByte 3#2 l]
  | .rgb r g b => [0xFE#8, r, g, b]
  | .rgba r g b a => [0xFF#8, r, g, b, a]
  | .encStart _ => []
  | .decStart _ => []

/-- The encoder: an instruction as it is written (R54 to R59, R117, R118). -/
def encode : Instr → Code
  | .encStart x => .ctrlWrite .enc (x ++ 1#1)
  | .decStart x => .ctrlWrite .dec (x ++ 1#1)
  | i => .chunk (chunkBytes i)

/-- Byte `j` of a number whose bit 0 is the least significant bit of the first byte. -/
def tableByte (w j : Nat) : Byte := BitVec.ofNat 8 (w / 256 ^ j)

/-- The first five bytes of such a number, the longest chunk's length. -/
def tableBytes (w : Nat) : List Byte :=
  [tableByte w 0, tableByte w 1, tableByte w 2, tableByte w 3, tableByte w 4]

/-- The code a row of the opcode table stands for when only its bits are given. A 32-bit row with bit 0 set is a
control-register write; every other row is a chunk. The two START rows have the same bits and differ only in the
register written, which the bits do not say: they are read as `ENC_CTRL` (log 1). -/
def tableCode (nbits w : Nat) : Code :=
  if nbits = 32 ∧ w % 2 = 1 then .ctrlWrite .enc (BitVec.ofNat 32 w) else .chunk (tableBytes w)

/-- The instruction the decoder reads from a row's bits. -/
def decodeTableWord (nbits w : Nat) : Option Instr :=
  match decode (tableCode nbits w) with
  | .ok (i, _) => some i
  | .error _ => none

end Sys2Proof
end

