-- ==== Sys2Proof/Config.lean ====
section
/-! DEFINITION. The implementation parameters of spec/00_scope.md R5 and the free values of the model. -/

namespace Sys2Proof.Config

/-- `REG_MAP`: the address of each interface register of R27 and R28 in the platform's address map (R5, R27, R28, R137;
log 8). -/
structure RegMap where
  encCtrl : Nat
  encStatus : Nat
  encWidth : Nat
  encHeight : Nat
  encChannels : Nat
  encColorspace : Nat
  encInLen : Nat
  encOutLen : Nat
  decCtrl : Nat
  decStatus : Nat
  decInLen : Nat
  decWidth : Nat
  decHeight : Nat
  decChannels : Nat
  decColorspace : Nat
  decOutLen : Nat
deriving DecidableEq, Repr

/-- The sixteen addresses, in the order of R27 and R28. -/
def RegMap.addrs (m : RegMap) : List Nat :=
  [m.encCtrl, m.encStatus, m.encWidth, m.encHeight, m.encChannels, m.encColorspace, m.encInLen, m.encOutLen,
    m.decCtrl, m.decStatus, m.decInLen, m.decWidth, m.decHeight, m.decChannels, m.decColorspace, m.decOutLen]

/-- The parameters a machine is built with (R5). They stand in `State.cfg`, which no step writes, so every statement
about all states holds for all their values (log 6). `BUF_MAP` is set by the host and stands in `State.bufs` (log 3). -/
structure Params where
  /-- `MAGIC`, the four signature bytes in stream order. -/
  magic : Vector Byte 4
  /-- `PIXELS_MAX`, the pixel-count ceiling. -/
  pixelsMax : Nat
  /-- `LEN_W`, the width of every length, position and pixel-count register. -/
  lenW : Nat
  /-- `REG_MAP`, the addresses of the interface registers. -/
  regMap : RegMap
deriving DecidableEq, Repr

/-- The constraints checked when a machine is built (R6). That `MAGIC` has four bytes is in its type. DEDUCED (log 8): no
two registers share an address. -/
def Params.ok (p : Params) : Bool :=
  decide (2 ≤ p.pixelsMax) && decide (5 * (p.pixelsMax - 1) + 22 < 2 ^ p.lenW) && decide p.regMap.addrs.Nodup

/-- DESIGN CHOICE (log 8): the addresses of the reset state, which R5 leaves OPEN; four apart, in the order of R27 and
R28. -/
def RegMap.default : RegMap where
  encCtrl := 0xF0000000
  encStatus := 0xF0000004
  encWidth := 0xF0000008
  encHeight := 0xF000000C
  encChannels := 0xF0000010
  encColorspace := 0xF0000014
  encInLen := 0xF0000018
  encOutLen := 0xF000001C
  decCtrl := 0xF0000020
  decStatus := 0xF0000024
  decInLen := 0xF0000028
  decWidth := 0xF000002C
  decHeight := 0xF0000030
  decChannels := 0xF0000034
  decColorspace := 0xF0000038
  decOutLen := 0xF000003C

/-- The spec's own defaults (R5; general-knowledge items G1 and G2 of spec/93_implementation_defined.md).
DESIGN CHOICE (log 6): `LEN_W` is the least width R6 allows with them. -/
def Params.default : Params where
  magic := #v[0x71#8, 0x6F#8, 0x69#8, 0x66#8]
  pixelsMax := 400000000
  lenW := 31
  regMap := RegMap.default

/-! The free values. None has a body, so nothing can be proved of a value. The first argument of each is the counter
`State.freeCount`, which every host read of a free byte, every START that is taken and every hardware reset advances
(log 10). -/

/-- A byte the spec leaves unspecified when the host reads it (R46 part 3, R131). -/
opaque freeByte : Nat → Byte

/-- The byte the encoder reads at an address where the running decode has written (R139; log 20). -/
opaque encInputByte : Nat → Nat → Byte

/-- The byte the decoder reads at an address where the running encode has written (R139; log 20). -/
opaque decInputByte : Nat → Nat → Byte

/-- The byte an operation without a result leaves at an address: any value (R131, R141; log 11). -/
opaque leftByte : Nat → Nat → Byte

end Sys2Proof.Config
end

