-- ==== Sys2Proof/Machine/State.lean ====
section
/-! DEFINITION. The state of the QOI codec core (spec/10_state.md, spec/20_memory.md), the reasons a step can stop, and
the state after reset. -/

namespace Sys2Proof.Machine

/-- The phases of the encoder engine (R19, R25). -/
inductive EncPhase where
  | idle
  | validate
  | loop
  | tail
  | done
  | error
deriving DecidableEq, Repr

/-- The phases of the decoder engine (R21, R25). -/
inductive DecPhase where
  | idle
  | header
  | loop
  | done
  | error
deriving DecidableEq, Repr

/-- The seven named errors (R127). `bufferType` is reserved and never raised (R128). -/
inductive Err where
  | bufferType
  | bufferLength
  | signature
  | dimension
  | channel
  | colorspace
  | incompleteImage
deriving DecidableEq, Repr

/-- The working registers of `ENC` (R19) and the error its `STATUS.ERR` shows (R29, R131). -/
structure Enc where
  phase : EncPhase
  /-- The error recorded by error entry; `none` is code 0. -/
  err : Option Err
  w : Word
  h : Word
  ch : Byte
  cs : Byte
  plen : Nat
  n : Nat
  i : Nat
  op : Nat
  prev : Pixel
  run : BitVec 6
  cache : PixelCache
deriving DecidableEq, Repr

/-- The working registers of `DEC` (R21) and the error its `STATUS.ERR` shows (R29, R131). `len` is `d.L`, `stop` is
`d.END`. -/
structure Dec where
  phase : DecPhase
  /-- The error recorded by error entry; `none` is code 0. -/
  err : Option Err
  len : Nat
  w : Word
  h : Word
  ch : Byte
  cs : Byte
  n : Nat
  stop : Nat
  ip : Nat
  k : Nat
  prev : Pixel
  run : BitVec 6
  cache : PixelCache
deriving DecidableEq, Repr

/-- The stored interface registers of the encoder (R27). `ENC_CTRL` holds no bit and `ENC_STATUS` is a view. -/
structure EncRegs where
  width : Word
  height : Word
  channels : Byte
  colorspace : Byte
  inLen : Nat
  outLen : Nat
deriving DecidableEq, Repr

/-- The stored interface registers of the decoder (R28). `DEC_CTRL` holds no bit and `DEC_STATUS` is a view. -/
structure DecRegs where
  inLen : Nat
  width : Word
  height : Word
  channels : Byte
  colorspace : Byte
  outLen : Nat
deriving DecidableEq, Repr

/-- The four data buffers (R35). -/
inductive Buf where
  | pin
  | bout
  | bin
  | pout
deriving DecidableEq, Repr

/-- Where a buffer lies in the platform's memory and how many bytes it holds (R35; `BUF_MAP`, log 3). -/
structure Region where
  base : Nat
  cap : Nat
deriving DecidableEq, Repr

/-- The placement of the four buffers (`BUF_MAP`, R5, R35). -/
structure BufMap where
  pin : Region
  bout : Region
  bin : Region
  pout : Region
deriving DecidableEq, Repr

/-- The platform memory the buffers lie in: (address, byte) pairs, addresses strictly rising. An unlisted address holds
no known byte (log 4). -/
abbrev Memory := List Host.Cell

/-- The interface registers by name (R27, R28). -/
inductive Reg where
  | encCtrl
  | encStatus
  | encWidth
  | encHeight
  | encChannels
  | encColorspace
  | encInLen
  | encOutLen
  | decCtrl
  | decStatus
  | decInLen
  | decWidth
  | decHeight
  | decChannels
  | decColorspace
  | decOutLen
deriving DecidableEq, Repr

/-- A host write to an interface register, the value in the register's own width (R27, R28; log 8). -/
inductive RegWrite where
  | encCtrl (v : Word)
  | encStatus (v : Word)
  | encWidth (v : Word)
  | encHeight (v : Word)
  | encChannels (v : Byte)
  | encColorspace (v : Byte)
  | encInLen (v : Nat)
  | encOutLen (v : Nat)
  | decCtrl (v : Word)
  | decStatus (v : Word)
  | decInLen (v : Nat)
  | decWidth (v : Word)
  | decHeight (v : Word)
  | decChannels (v : Byte)
  | decColorspace (v : Byte)
  | decOutLen (v : Nat)
deriving DecidableEq, Repr

/-- What the host can do to the block (R125, R141, R144). -/
inductive HostAccess where
  /-- Write an interface register. -/
  | write (w : RegWrite)
  /-- Read an interface register. -/
  | read (r : Reg)
  /-- Write a value to the interface register at an address of the platform (R27, R28; log 8). -/
  | writeAt (a v : Nat)
  /-- Read the interface register at an address of the platform (R27, R28; log 8). -/
  | readAt (a : Nat)
  /-- Write one byte of a buffer. -/
  | storeByte (b : Buf) (off : Nat) (v : Byte)
  /-- Read one byte of a buffer. -/
  | loadByte (b : Buf) (off : Nat)
  /-- Provide a buffer: its place and its capacity (R42, R144). -/
  | place (b : Buf) (r : Region)
  /-- Apply the hardware reset (R141). -/
  | hardReset
deriving DecidableEq, Repr

/-- Whose turn a step is. The three agents of R17; any list of turns is an interleaving (R26, log 9). -/
inductive Turn where
  | enc
  | dec
  | host (a : HostAccess)
deriving DecidableEq, Repr

/-- The machine: everything the spec gives the block, and three fields of the model's own (`script`, `rdata`,
`freeCount`). -/
structure State where
  /-- The parameters of R5. No step writes them. -/
  cfg : Config.Params
  enc : Enc
  dec : Dec
  encRegs : EncRegs
  decRegs : DecRegs
  bufs : BufMap
  mem : Memory
  /-- The turns still to come, the first one next (log 9). -/
  script : List Turn
  /-- What the last host read returned (log 10). -/
  rdata : Nat
  /-- The counter that free values are drawn with (log 10). -/
  freeCount : Nat
deriving DecidableEq, Repr

/-- The one fault. It is no error of R127: those are next states. -/
inductive Fault where
  /-- Raised by an engine store at or beyond the capacity of its output buffer, an offset that does not exist (R35).
  R96 and R111 exclude it once VALIDATE or HEADER has passed. Safe (log 14). -/
  | outsideBuffer (b : Buf) (off : Nat)
deriving DecidableEq, Repr

/-- Why the model has no next state. Each is a host duty of R125 broken, but for `notModelled`, the two of log 8
(`noRegisterAt`, `hostValueTooWide`) and `chunkUndecoded`. -/
inductive Refusal where
  /-- Raised by `exec` for an instruction that has no meaning yet. Safe. -/
  | notModelled (mnemonic : String)
  /-- Raised by a START whose engine's own two buffers overlap (R49). Safe (log 12). -/
  | buffersOverlap
  /-- Raised by an engine store to a byte inside a buffer of the other engine while that one is busy (R49). Safe
  (log 12). -/
  | engineWroteBusyBuffer (b : Buf) (off : Nat)
  /-- Raised by an engine read of an input byte the host has not placed (R125, R144). Safe (log 4). -/
  | inputNotPlaced (b : Buf) (off : Nat)
  /-- Raised by VALIDATE or HEADER when the output buffer is smaller than R42 asks. Safe (log 12). -/
  | outputTooSmall (b : Buf)
  /-- Raised by a host store to a byte of a busy engine's buffer (R49). Safe (log 13). -/
  | hostWroteBusyBuffer (b : Buf) (off : Nat)
  /-- Raised by a host that moves a busy engine's buffer (R49). Safe (log 13). -/
  | hostMovedBusyBuffer (b : Buf)
  /-- Raised by a host access beyond a buffer's capacity (R35). Safe (log 13). -/
  | hostOutsideBuffer (b : Buf) (off : Nat)
  /-- Raised by a host register access at an address where `REG_MAP` places no register of the block (R5, R137). Safe
  (log 8). -/
  | noRegisterAt (a : Nat)
  /-- Raised by a host write at a writable register's address of a value that does not fit its width (R27, R28). Safe
  (log 8). -/
  | hostValueTooWide (r : Reg) (v : Nat)
  /-- Raised if a fetched chunk did not decode, which never happens (R60, R63). Safe (log 19). -/
  | chunkUndecoded
deriving DecidableEq, Repr

/-- DESIGN CHOICE (log 5): working registers after reset; R34 gives only the phase. -/
def Enc.reset : Enc where
  phase := .idle
  err := none
  w := 0#32
  h := 0#32
  ch := 0#8
  cs := 0#8
  plen := 0
  n := 0
  i := 0
  op := 0
  prev := ⟨0#8, 0#8, 0#8, 0#8⟩
  run := 0#6
  cache := Vector.replicate cacheSlots ⟨0#8, 0#8, 0#8, 0#8⟩

/-- DESIGN CHOICE (log 5): working registers after reset; R34 gives only the phase. -/
def Dec.reset : Dec where
  phase := .idle
  err := none
  len := 0
  w := 0#32
  h := 0#32
  ch := 0#8
  cs := 0#8
  n := 0
  stop := 0
  ip := 0
  k := 0
  prev := ⟨0#8, 0#8, 0#8, 0#8⟩
  run := 0#6
  cache := Vector.replicate cacheSlots ⟨0#8, 0#8, 0#8, 0#8⟩

/-- Every encoder interface register is 0 after reset (R27, R34). -/
def EncRegs.reset : EncRegs where
  width := 0#32
  height := 0#32
  channels := 0#8
  colorspace := 0#8
  inLen := 0
  outLen := 0

/-- Every decoder interface register is 0 after reset (R28, R34). -/
def DecRegs.reset : DecRegs where
  inLen := 0
  width := 0#32
  height := 0#32
  channels := 0#8
  colorspace := 0#8
  outLen := 0

/-- DESIGN CHOICE (log 3): no buffer is provided until the host places one. -/
def BufMap.empty : BufMap where
  pin := ⟨0, 0⟩
  bout := ⟨0, 0⟩
  bin := ⟨0, 0⟩
  pout := ⟨0, 0⟩

/-- The block with parameters `p` right after the first hardware reset (R34, R141, R144). -/
def State.resetWith (p : Config.Params) : State where
  cfg := p
  enc := Enc.reset
  dec := Dec.reset
  encRegs := EncRegs.reset
  decRegs := DecRegs.reset
  bufs := BufMap.empty
  mem := []
  script := []
  rdata := 0
  freeCount := 0

/-- Building a machine checks the parameters (R6). -/
def State.build (p : Config.Params) : Option State :=
  if p.ok then some (State.resetWith p) else none

/-- The machine right after reset, at the spec's default parameters (R5). -/
def State.reset : State := State.resetWith Config.Params.default

end Sys2Proof.Machine
end

