-- ==== Sys2Proof/Machine/Flags.lean ====
section
/-! DEFINITION. The status indications: `STATUS.STATE` and `STATUS.ERR` (spec/10_state.md R29, R32;
spec/60_exceptions.md R127). The block has no arithmetic flags. -/

namespace Sys2Proof.Machine

/-- `STATUS.STATE` of the encoder: 0 idle, 1 busy, 2 done, 3 error (R29). -/
def EncPhase.stateField : EncPhase → BitVec 2
  | .idle => 0#2
  | .validate => 1#2
  | .loop => 1#2
  | .tail => 1#2
  | .done => 2#2
  | .error => 3#2

/-- `STATUS.STATE` of the decoder (R29). -/
def DecPhase.stateField : DecPhase → BitVec 2
  | .idle => 0#2
  | .header => 1#2
  | .loop => 1#2
  | .done => 2#2
  | .error => 3#2

/-- The code of an error (R127). -/
def Err.code : Err → BitVec 4
  | .bufferType => 1#4
  | .bufferLength => 2#4
  | .signature => 3#4
  | .dimension => 4#4
  | .channel => 5#4
  | .colorspace => 6#4
  | .incompleteImage => 7#4

/-- `STATUS.ERR`: 0 where no error is recorded (R29, R127). -/
def errField : Option Err → BitVec 4
  | none => 0#4
  | some e => e.code

/-- A STATUS word: `STATE` in bits 1:0, `ERR` in bits 7:4, every other bit 0 (R27, R28, R29). -/
def statusWord (state : BitVec 2) (err : BitVec 4) : Word := (0#24 ++ err ++ 0#2 ++ state : BitVec 32)

/-- `ENC_STATUS` (R27). -/
def encStatus (s : State) : Word := statusWord s.enc.phase.stateField (errField s.enc.err)

/-- `DEC_STATUS` (R28). -/
def decStatus (s : State) : Word := statusWord s.dec.phase.stateField (errField s.dec.err)

/-- An engine in VALIDATE, LOOP or TAIL is busy (R26). -/
def encBusy (s : State) : Bool := s.enc.phase.stateField == 1#2

/-- An engine in HEADER or LOOP is busy (R26). -/
def decBusy (s : State) : Bool := s.dec.phase.stateField == 1#2

end Sys2Proof.Machine
end

