-- ==== Sys2Proof/Machine/Operands.lean ====
section
/-! DEFINITION. Operand forms: biases, deltas and channel arithmetic (spec/00_scope.md R9, spec/30_encoding.md R54 to
R62). -/

namespace Sys2Proof.Machine

/-- `wrapdelta(x) = sext_8(x mod 256)` (R9). -/
def wrapDelta (x : Int) : Int :=
  if 128 ≤ x % 256 then x % 256 - 256 else x % 256

/-- The wrapped difference of two channels, an integer in -128 to 127 (R9, R90). -/
def channelDelta (c p : Byte) : Int := wrapDelta ((c.toNat : Int) - (p.toNat : Int))

/-- A channel plus a signed delta, modulo 256 (R62, R105, R106). -/
def addDelta (c : Byte) (d : Int) : Byte := BitVec.ofInt 8 ((c.toNat : Int) + d)

/-- A DIFF field stands for the field minus 2 (R62). -/
def diffDelta (f : BitVec 2) : Int := (f.toNat : Int) - 2

/-- LUMA's green field stands for the field minus 32 (R62). -/
def lumaGreen (f : BitVec 6) : Int := (f.toNat : Int) - 32

/-- LUMA's red and blue fields stand for the field minus 8, relative to green (R62). -/
def lumaRelative (f : BitVec 4) : Int := (f.toNat : Int) - 8

/-- A RUN field stands for the field plus 1 pixels (R62). -/
def runLength (f : BitVec 6) : Nat := f.toNat + 1

/-- The DIFF field of a delta in -2 to 1 (R55). -/
def diffField (d : Int) : BitVec 2 := BitVec.ofInt 2 (d + 2)

/-- LUMA's green field of a delta in -32 to 31 (R56). -/
def lumaGreenField (d : Int) : BitVec 6 := BitVec.ofInt 6 (d + 32)

/-- LUMA's red or blue field of a relative delta in -8 to 7 (R56). -/
def lumaRelativeField (d : Int) : BitVec 4 := BitVec.ofInt 4 (d + 8)

/-- `d in [lo,hi]` on integers (R7). -/
def within (lo hi d : Int) : Bool := decide (lo ≤ d) && decide (d ≤ hi)

end Sys2Proof.Machine
end

