-- ==== Sys2Proof/Machine/Ops.lean ====
section
/-! DEFINITION. The named operations over memory, buffers, pixels, caches and registers; error entry (R131) and the START
that leaves the error state (R132). -/

namespace Sys2Proof.Machine

/-- The result of an operation: a value, or a stop. -/
abbrev Result (α : Type) := Host.Outcome α Fault Refusal

/-- Run `f` on the value of `x`; a stop of `x` is the result's stop. -/
def andThen {α β : Type} (x : Result α) (f : α → Result β) : Result β :=
  match x with
  | .next a => f a
  | .fault r => .fault r
  | .refused r => .refused r

/-! ### Constants of R5 -/

/-- `PREV_INIT` (R5). -/
def prevInit : Pixel := ⟨0#8, 0#8, 0#8, 255#8⟩

/-- `CACHE_INIT` (R5, R80). -/
def cacheInit : Pixel := ⟨0#8, 0#8, 0#8, 0#8⟩

/-- Every slot at `CACHE_INIT` (R80). -/
def freshCache : PixelCache := Vector.replicate cacheSlots cacheInit

/-- `RUN_MAX` (R5). -/
def runMax : Nat := 62

/-- `HEADER_SIZE` (R5). -/
def headerSize : Nat := 14

/-- `END_SIZE` (R5). -/
def endSize : Nat := 8

/-- `END_MARKER` in stream order (R5, R53). -/
def endMarker : List Byte := [0#8, 0#8, 0#8, 0#8, 0#8, 0#8, 0#8, 1#8]

/-! ### Memory -/

/-- The byte at an address, if one is known. -/
def Memory.read : Memory → Nat → Option Byte
  | [], _ => none
  | (a, v) :: m, k => if a = k then some v else Memory.read m k

/-- Put a byte at an address, keeping the addresses strictly rising. -/
def Memory.write : Memory → Nat → Byte → Memory
  | [], k, v => [(k, v)]
  | (a, w) :: m, k, v =>
    if k < a then (k, v) :: (a, w) :: m
    else if k = a then (k, v) :: m
    else (a, w) :: Memory.write m k v

/-- Bytes put one after another at `a ..`. -/
def Memory.writeAll (m : Memory) (a : Nat) : List Byte → Memory
  | [] => m
  | v :: vs => Memory.writeAll (m.write a v) (a + 1) vs

/-- The bytes at the addresses `p` picks hold any value, `f` by address; an unlisted byte stays unlisted (R131, R141;
log 11). -/
def Memory.freeIf (m : Memory) (p : Nat → Bool) (f : Nat → Byte) : Memory :=
  m.map fun c => (c.1, if p c.1 then f c.1 else c.2)

/-- The canonical form: addresses strictly rising. An unlisted address has no value, so no entry repeats one (log 4). -/
abbrev Memory.wf (m : Memory) : Prop := m.Pairwise (fun x y => x.1 < y.1)

/-! ### Buffers -/

/-- The region of a buffer (R35). -/
def BufMap.get (m : BufMap) : Buf → Region
  | .pin => m.pin
  | .bout => m.bout
  | .bin => m.bin
  | .pout => m.pout

/-- Give a buffer a region (R42, R144). -/
def BufMap.set (m : BufMap) (b : Buf) (r : Region) : BufMap :=
  match b with
  | .pin => { m with pin := r }
  | .bout => { m with bout := r }
  | .bin => { m with bin := r }
  | .pout => { m with pout := r }

/-- An address lies in a region. -/
def Region.has (r : Region) (a : Nat) : Bool := decide (r.base ≤ a) && decide (a < r.base + r.cap)

/-- Two regions share no byte (R49). -/
def Region.disjoint (r t : Region) : Bool :=
  decide (r.cap = 0) || decide (t.cap = 0) || decide (r.base + r.cap ≤ t.base) || decide (t.base + t.cap ≤ r.base)

/-- The platform address of an offset of a buffer; an offset is used as is (R44). -/
def bufAddr (s : State) (b : Buf) (off : Nat) : Nat := (s.bufs.get b).base + off

/-- The byte a buffer holds at an offset, if the offset exists and a byte is known there. -/
def bufByte (s : State) (b : Buf) (off : Nat) : Option Byte :=
  if off < (s.bufs.get b).cap then s.mem.read (bufAddr s b off) else none

/-- An address of `BOUT` that the running encode has already written: the bytes below `e.op` (R71, R85). -/
def encWrote (s : State) (a : Nat) : Bool :=
  match s.enc.phase with
  | .idle => false
  | .validate => false
  | .loop => s.bufs.bout.has a && decide (a < bufAddr s .bout s.enc.op)
  | .tail => s.bufs.bout.has a && decide (a < bufAddr s .bout s.enc.op)
  | .done => false
  | .error => false

/-- An address of `POUT` that the running decode has already written: the bytes of its `d.k` pixels (R111). -/
def decWrote (s : State) (a : Nat) : Bool :=
  match s.dec.phase with
  | .idle => false
  | .header => false
  | .loop => s.bufs.pout.has a && decide (a < bufAddr s .pout (s.dec.k * s.dec.ch.toNat))
  | .done => false
  | .error => false

/-- The free value the engine whose buffer `b` is reads at an address where the other engine's running operation has written,
or none if the address is no such (R139; log 20). -/
def hiddenByte (s : State) (b : Buf) (a : Nat) : Option Byte :=
  match b with
  | .pin => if decWrote s a then some (Config.encInputByte s.freeCount a) else none
  | .bout => if decWrote s a then some (Config.encInputByte s.freeCount a) else none
  | .bin => if encWrote s a then some (Config.decInputByte s.freeCount a) else none
  | .pout => if encWrote s a then some (Config.decInputByte s.freeCount a) else none

/-- The byte an engine gets at an offset of its buffer, if any: a free value where the other engine's running operation has
written, else the byte the buffer holds, which is the one it held at START (R46 part 1, R50). -/
def inputByte (s : State) (b : Buf) (off : Nat) : Option Byte :=
  if off < (s.bufs.get b).cap then
    match hiddenByte s b (bufAddr s b off) with
    | some v => some v
    | none => s.mem.read (bufAddr s b off)
  else none

/-- `MemRead(M, off, 1)` by an engine (R11). A byte the host has not placed is a broken duty (R125; log 4). -/
def loadByte (b : Buf) (off : Nat) (s : State) : Result Byte :=
  match inputByte s b off with
  | some v => .next v
  | none => .refused (.inputNotPlaced b off)

/-- The `n` bytes at `off ..`, read one at a time in rising order (R41). -/
def loadBytes (b : Buf) : (off n : Nat) → State → Result (List Byte)
  | _, 0, _ => .next []
  | off, n + 1, s =>
    andThen (loadByte b off s) fun v =>
    andThen (loadBytes b (off + 1) n s) fun vs => .next (v :: vs)

/-- An address lies inside a buffer of the encoder, and the encoder is busy: nobody else writes it (R49). -/
def encOwns (s : State) (a : Nat) : Bool := encBusy s && (s.bufs.pin.has a || s.bufs.bout.has a)

/-- An address lies inside a buffer of the decoder, and the decoder is busy: nobody else writes it (R49). -/
def decOwns (s : State) (a : Nat) : Bool := decBusy s && (s.bufs.bin.has a || s.bufs.pout.has a)

/-- An address is the other engine's, for the engine whose buffer `b` is (R35, R49). -/
def otherOwns (s : State) (b : Buf) (a : Nat) : Bool :=
  match b with
  | .pin => decOwns s a
  | .bout => decOwns s a
  | .bin => encOwns s a
  | .pout => encOwns s a

/-- `MemWrite(M, off, 1, v)` by the engine whose buffer `b` is (R11). An offset at or beyond the capacity does not exist
(R35; log 14); a byte inside a buffer of the other engine, while that one is busy, may not be written (R49; log 12). -/
def storeByte (b : Buf) (off : Nat) (v : Byte) (s : State) : Result State :=
  if off < (s.bufs.get b).cap then
    if otherOwns s b (bufAddr s b off) then .refused (.engineWroteBusyBuffer b off)
    else .next { s with mem := s.mem.write (bufAddr s b off) v }
  else .fault (.outsideBuffer b off)

/-- Bytes stored one at a time at `off ..`, in rising order (R41). -/
def storeBytes (b : Buf) : (off : Nat) → List Byte → State → Result State
  | _, [], s => .next s
  | off, v :: vs, s => andThen (storeByte b off v s) (storeBytes b (off + 1) vs)

/-- Big-endian combination of bytes: the byte at the lowest offset is the most significant (R11, R39). -/
def bigEndian (bs : List Byte) : Nat := bs.foldl (fun n v => n * 256 + v.toNat) 0

/-- The four bytes of a 32-bit value, most significant first (R11, R39). -/
def wordBytes (w : Word) : List Byte :=
  [w.extractLsb' 24 8, w.extractLsb' 16 8, w.extractLsb' 8 8, w.extractLsb' 0 8]

/-! ### Pixels and caches -/

/-- `hash(px) = (3r + 5g + 7b + 11a) mod 64`, the sum exact (R76). -/
def hash (px : Pixel) : BitVec 6 :=
  BitVec.ofNat 6 ((px.r.toNat * 3 + px.g.toNat * 5 + px.b.toNat * 7 + px.a.toNat * 11) % 64)

/-- The pixel of a cache slot (R11). -/
def cacheGet (c : PixelCache) (k : BitVec 6) : Pixel := c.get ⟨k.toNat, k.isLt⟩

/-- A cache with one slot replaced (R11). -/
def cachePut (c : PixelCache) (k : BitVec 6) (px : Pixel) : PixelCache := c.set k.toNat px k.isLt

/-- The bytes of a pixel in a raw buffer: `r, g, b`, then `a` when there are 4 channels (R36, R37, R111). -/
def pixelBytes (ch : Byte) (px : Pixel) : List Byte :=
  if ch = 4#8 then [px.r, px.g, px.b, px.a] else [px.r, px.g, px.b]

/-! ### Error entry and START -/

/-- Error entry of the encoder (R131): phase ERROR, which STATUS shows as STATE 3, and the code in ERR. No result register
is written, no state is saved, `BOUT` is untouched. -/
def raiseEnc (e : Err) (s : State) : State :=
  { s with enc := { s.enc with phase := .error, err := some e } }

/-- Error entry of the decoder (R131): phase ERROR, which STATUS shows as STATE 3, and the code in ERR. No result register is
written and no state is saved. After an error the whole of `POUT` holds any value (log 11). -/
def raiseDec (e : Err) (s : State) : State :=
  { s with
    dec := { s.dec with phase := .error, err := some e },
    mem := s.mem.freeIf s.bufs.pout.has (Config.leftByte s.freeCount) }

/-- The command ENC_START: latch the operands, clear the result register, leave any earlier state for VALIDATE with STATE 1
and ERR 0 (R31, R117, R132). The counter of free values moves on, so that no operation draws one again (log 10). -/
def beginEnc (s : State) : State :=
  { s with
    enc := { s.enc with
      phase := .validate, err := none, w := s.encRegs.width, h := s.encRegs.height, ch := s.encRegs.channels,
      cs := s.encRegs.colorspace, plen := s.encRegs.inLen },
    encRegs := { s.encRegs with outLen := 0 }
    freeCount := s.freeCount + 1 }

/-- The command DEC_START: latch the length, clear the result registers, leave any earlier state for HEADER with STATE 1
and ERR 0 (R31, R118, R132). The counter of free values moves on (log 10). -/
def beginDec (s : State) : State :=
  { s with
    dec := { s.dec with phase := .header, err := none, len := s.decRegs.inLen },
    decRegs := { s.decRegs with width := 0#32, height := 0#32, channels := 0#8, colorspace := 0#8, outLen := 0 }
    freeCount := s.freeCount + 1 }

/-- The buffer duty at ENC_START: the engine's own two buffers do not overlap (R49, R125). The duty against the other
engine is about what is written, so `storeByte` checks it. -/
def encPlaced (s : State) : Bool := s.bufs.pin.disjoint s.bufs.bout

/-- The buffer duty at DEC_START: the engine's own two buffers do not overlap (R49, R125). -/
def decPlaced (s : State) : Bool := s.bufs.bin.disjoint s.bufs.pout

/-! ### What every chunk ends with -/

/-- The tag and operand bytes of a chunk are behind `d.ip` once it has run (R23, R101, R106, R108, R109). -/
def advance (len : Nat) (s : State) : State :=
  { s with dec := { s.dec with ip := s.dec.ip + len } }

/-- COMMIT: the cache write, then the new previous pixel (R79, R110). -/
def commit (px : Pixel) (s : State) : State :=
  { s with dec := { s.dec with cache := cachePut s.dec.cache (hash px) px, prev := px } }

/-- OUTPUT: the pixel's bytes at `d.k * d.ch` of `POUT`, then `d.k` plus 1 (R37, R111). -/
def output (px : Pixel) (s : State) : Result State :=
  andThen (storeBytes .pout (s.dec.k * s.dec.ch.toNat) (pixelBytes s.dec.ch px) s) fun t =>
    .next { t with dec := { t.dec with k := t.dec.k + 1 } }

/-- DONE, when the last pixel is out: the result registers, then the phase, with ERR 0 (R112, R121). -/
def finish (s : State) : State :=
  if s.dec.k = s.dec.n then
    { s with
      decRegs := { s.decRegs with
        width := s.dec.w, height := s.dec.h, channels := s.dec.ch, colorspace := s.dec.cs,
        outLen := s.dec.n * s.dec.ch.toNat },
      dec := { s.dec with phase := .done, err := none } }
  else s

/-- The whole of a chunk of `len` bytes that yields `px` (R101: COMMIT, OUTPUT, DONE). -/
def produce (len : Nat) (px : Pixel) (s : State) : Result State :=
  andThen (output px (commit px (advance len s))) fun t => .next (finish t)

end Sys2Proof.Machine
end

