-- ==== Sys2Proof/Machine/Chunks.lean ====
section
/-! DEFINITION. What each of the six chunk kinds does in the decoder (spec/43_decoder.md R104 to R109). A meaning is the
chunk's whole effect once it has been read: its pixel, `d.ip`, COMMIT, OUTPUT and DONE. That a chunk is read only in
LOOP, with `d.run = 0` and `d.ip < d.END`, is the decoder's step (R101; log 15). -/

namespace Sys2Proof.Machine

/-- The pixel of a DIFF chunk: three deltas on the previous pixel, alpha kept (R105). -/
def diffPixel (r g b : BitVec 2) (p : Pixel) : Pixel :=
  ⟨addDelta p.r (diffDelta r), addDelta p.g (diffDelta g), addDelta p.b (diffDelta b), p.a⟩

/-- The pixel of a LUMA chunk: the green delta on all three, the relative ones on red and blue, alpha kept (R106). -/
def lumaPixel (g : BitVec 6) (r b : BitVec 4) (p : Pixel) : Pixel :=
  ⟨addDelta p.r (lumaGreen g + lumaRelative r), addDelta p.g (lumaGreen g),
   addDelta p.b (lumaGreen g + lumaRelative b), p.a⟩

/-- RUN loads the replays still owed (R107). -/
def setRun (l : BitVec 6) (s : State) : State :=
  { s with dec := { s.dec with run := l } }

/-- INDEX: the pixel of the named slot (R104). -/
def execIndex (slot : BitVec 6) (s : State) : Host.Outcome State Fault Refusal :=
  produce 1 (cacheGet s.dec.cache slot) s

/-- DIFF (R105). -/
def execDiff (r g b : BitVec 2) (s : State) : Host.Outcome State Fault Refusal :=
  produce 1 (diffPixel r g b s.dec.prev) s

/-- LUMA (R106). -/
def execLuma (g : BitVec 6) (r b : BitVec 4) (s : State) : Host.Outcome State Fault Refusal :=
  produce 2 (lumaPixel g r b s.dec.prev) s

/-- RUN: the previous pixel now, and `l` replays owed (R107). -/
def execRun (l : BitVec 6) (s : State) : Host.Outcome State Fault Refusal :=
  produce 1 s.dec.prev (setRun l s)

/-- RGB: three raw channels, alpha kept (R108). -/
def execRgb (r g b : Byte) (s : State) : Host.Outcome State Fault Refusal :=
  produce 4 ⟨r, g, b, s.dec.prev.a⟩ s

/-- RGBA: four raw channels (R109). -/
def execRgba (r g b a : Byte) (s : State) : Host.Outcome State Fault Refusal :=
  produce 5 ⟨r, g, b, a⟩ s

end Sys2Proof.Machine
end

