-- ==== Sys2Proof/Machine/Commands.lean ====
section
/-! DEFINITION. The two host commands (spec/44_commands.md R117 to R119). -/

namespace Sys2Proof.Machine

/-- ENC_START: ignored while the encoder is busy (R119); refused when the buffers break R49 (log 12); else a fresh
operation (R117). The reserved bits are ignored (R27). -/
def execEncStart (_x : BitVec 31) (s : State) : Host.Outcome State Fault Refusal :=
  if encBusy s then .next s
  else if encPlaced s then .next (beginEnc s)
  else .refused .buffersOverlap

/-- DEC_START: ignored while the decoder is busy (R119); refused when the buffers break R49 (log 12); else a fresh
operation (R118). The reserved bits are ignored (R28). -/
def execDecStart (_x : BitVec 31) (s : State) : Host.Outcome State Fault Refusal :=
  if decBusy s then .next s
  else if decPlaced s then .next (beginDec s)
  else .refused .buffersOverlap

end Sys2Proof.Machine
end

