-- ==== Sys2Proof/Machine/Dispatch.lean ====
section
/-! DEFINITION. One meaning per instruction. -/

namespace Sys2Proof.Machine

/-- The meaning of each instruction (R103 for the chunks, R117 and R118 for the commands). -/
def exec (i : Instr) (s : State) : Host.Outcome State Fault Refusal :=
  match i with
  | .index slot => Sys2Proof.Machine.execIndex slot s
  | .diff r g b => Sys2Proof.Machine.execDiff r g b s
  | .luma g r b => Sys2Proof.Machine.execLuma g r b s
  | .run l => Sys2Proof.Machine.execRun l s
  | .rgb r g b => Sys2Proof.Machine.execRgb r g b s
  | .rgba r g b a => Sys2Proof.Machine.execRgba r g b a s
  | .encStart x => Sys2Proof.Machine.execEncStart x s
  | .decStart x => Sys2Proof.Machine.execDecStart x s

end Sys2Proof.Machine
end

