-- ==== Sys2Proof/Machine/HeaderCodec.lean ====
section
/-! DEFINITION. The header codec: field predicates, serializer, deserializer (spec/40_header_codec.md). -/

namespace Sys2Proof.Machine

/-- `dim_ok`, the product exact (R67). -/
def dimOk (w h : Word) (pixelsMax : Nat) : Bool :=
  decide (1 ≤ w.toNat) && decide (1 ≤ h.toNat) && decide (w.toNat * h.toNat < pixelsMax)

/-- `ch_ok` on the full byte (R68). -/
def chOk (c : Byte) : Bool := decide (c = 3#8) || decide (c = 4#8)

/-- `cs_ok` on the full byte (R69). -/
def csOk (c : Byte) : Bool := decide (c = 0#8) || decide (c = 1#8)

/-- The first failing field check in the order of R73 and R83: dimension, channel, colorspace. -/
def fieldError (w h : Word) (ch cs : Byte) (pixelsMax : Nat) : Option Err :=
  if !dimOk w h pixelsMax then some .dimension
  else if !chOk ch then some .channel
  else if !csOk cs then some .colorspace
  else none

/-- The 14 header bytes (R52, R71). -/
def headerBytes (magic : Vector Byte 4) (w h : Word) (ch cs : Byte) : List Byte :=
  magic.toList ++ wordBytes w ++ wordBytes h ++ [ch, cs]

/-- The fields read from 14 header bytes (R72), the signature first. -/
structure Header where
  magic : List Byte
  w : Word
  h : Word
  ch : Byte
  cs : Byte
deriving DecidableEq, Repr

/-- HEADER READ's fields (R52, R72): width at 4..7, height at 8..11, big-endian, channels at 12, colorspace at 13. -/
def parseHeader (bs : List Byte) : Header where
  magic := bs.take 4
  w := BitVec.ofNat 32 (bigEndian ((bs.drop 4).take 4))
  h := BitVec.ofNat 32 (bigEndian ((bs.drop 8).take 4))
  ch := bs.getD 12 0#8
  cs := bs.getD 13 0#8

/-- HEADER VALIDATE in the decoder: the signature, then the fields in order (R70, R73). -/
def headerError (p : Config.Params) (x : Header) : Option Err :=
  if x.magic = p.magic.toList then fieldError x.w x.h x.ch x.cs p.pixelsMax else some .signature

end Sys2Proof.Machine
end

