-- ==== Sys2Proof/Machine/Decoder.lean ====
section
/-! DEFINITION. The decoder engine's steps: HEADER, REPLAY, reading a chunk, INCOMPLETE IMAGE (spec/43_decoder.md). -/

namespace Sys2Proof.Machine

/-- HEADER READ (R72). -/
def readHeader (x : Header) (s : State) : State :=
  { s with dec := { s.dec with w := x.w, h := x.h, ch := x.ch, cs := x.cs } }

/-- HEADER's set-up of the working registers (R99, R143). -/
def setUpDec (s : State) : State :=
  { s with
    dec := { s.dec with
      n := s.dec.w.toNat * s.dec.h.toNat, stop := s.dec.len - endSize, ip := headerSize, k := 0,
      prev := prevInit, run := 0#6, cache := freshCache, phase := .loop } }

/-- The output capacity a decode needs (R42): `N*ch`. -/
def decCapacity (x : Header) : Nat := x.w.toNat * x.h.toNat * x.ch.toNat

/-- The HEADER step (R99): short stream (R74), HEADER READ (R72), HEADER VALIDATE (R73), set-up. Once the checks pass, a
`POUT` below the capacity of R42 is a broken duty (log 12). -/
def decHeader (s : State) : Result State :=
  if s.dec.len < headerSize then .next (raiseDec .incompleteImage s)
  else
    andThen (loadBytes .bin 0 headerSize s) fun bs =>
      match headerError s.cfg (parseHeader bs) with
      | some e => .next (raiseDec e (readHeader (parseHeader bs) s))
      | none =>
        if s.bufs.pout.cap < decCapacity (parseHeader bs) then .refused (.outputTooSmall .pout)
        else .next (setUpDec (readHeader (parseHeader bs) s))

/-- The chunk at `d.ip`: the tag byte, then as many bytes as its kind has (R60, R61, R101). -/
def fetchChunk (s : State) : Result Instr :=
  andThen (loadByte .bin s.dec.ip s) fun b0 =>
  andThen (loadBytes .bin (s.dec.ip + 1) ((kindOf b0).length - 1) s) fun operands =>
    match decode (.chunk (b0 :: operands)) with
    | .ok (i, _) => .next i
    | .error _ => .refused .chunkUndecoded

/-- REPLAY (R102): the previous pixel again, no byte consumed, no cache write. -/
def replay (s : State) : Result State :=
  andThen (output s.dec.prev { s with dec := { s.dec with run := s.dec.run - 1#6 } }) fun t => .next (finish t)

/-- The LOOP step (R101): REPLAY, or one chunk, or INCOMPLETE IMAGE (R113). -/
def decLoop (s : State) : Result State :=
  if s.dec.run ≠ 0#6 then replay s
  else if s.dec.ip < s.dec.stop then andThen (fetchChunk s) fun i => exec i s
  else .next (raiseDec .incompleteImage s)

/-- One step of DEC (R25, R26): an engine that is not busy takes none. -/
def decTurn (s : State) : Result State :=
  match s.dec.phase with
  | .idle => .next s
  | .header => decHeader s
  | .loop => decLoop s
  | .done => .next s
  | .error => .next s

end Sys2Proof.Machine
end

