-- ==== Sys2Proof/Machine/Encoder.lean ====
section
/-! DEFINITION. The encoder engine's steps: VALIDATE, LOOP, TAIL (spec/42_encoder.md). Every chunk it emits is an `Instr`,
written by the encoder of Decode.lean. -/

namespace Sys2Proof.Machine

/-- `emit`: bytes at `e.op` of `BOUT`, and `e.op` past them (R11). -/
def emit (bs : List Byte) (s : State) : Result State :=
  andThen (storeBytes .bout s.enc.op bs s) fun t =>
    .next { t with enc := { t.enc with op := t.enc.op + bs.length } }

/-- The first check of VALIDATE that fails: the fields, then the buffer length (R83). -/
def encError (s : State) : Option Err :=
  match fieldError s.enc.w s.enc.h s.enc.ch s.enc.cs s.cfg.pixelsMax with
  | some e => some e
  | none => if s.enc.plen = s.enc.w.toNat * s.enc.h.toNat * s.enc.ch.toNat then none else some .bufferLength

/-- The output capacity an encode needs (R42): `22 + N*(ch+1)`. -/
def encCapacity (w h : Word) (ch : Byte) : Nat := 22 + w.toNat * h.toNat * (ch.toNat + 1)

/-- VALIDATE's set-up of the working registers (R83, R143). -/
def setUpEnc (s : State) : State :=
  { s with
    enc := { s.enc with
      n := s.enc.w.toNat * s.enc.h.toNat, i := 0, prev := prevInit, run := 0#6, cache := freshCache } }

/-- HEADER WRITE (R71): the 14 bytes at offset 0, then `e.op = 14`. -/
def writeHeader (s : State) : Result State :=
  andThen (storeBytes .bout 0 (headerBytes s.cfg.magic s.enc.w s.enc.h s.enc.ch s.enc.cs) s) fun t =>
    .next { t with enc := { t.enc with op := headerSize } }

/-- The VALIDATE step (R83). Once the checks pass, a `BOUT` below the capacity of R42 is a broken duty (log 12). -/
def encValidate (s : State) : Result State :=
  match encError s with
  | some e => .next (raiseEnc e s)
  | none =>
    if s.bufs.bout.cap < encCapacity s.enc.w s.enc.h s.enc.ch then .refused (.outputTooSmall .bout)
    else andThen (writeHeader (setUpEnc s)) fun t => .next { t with enc := { t.enc with phase := .loop } }

/-- PIXEL FETCH (R84): alpha is read when there are 4 channels, else 255. -/
def fetchPixel (i : Nat) (s : State) : Result Pixel :=
  andThen (loadByte .pin (i * s.enc.ch.toNat) s) fun r =>
  andThen (loadByte .pin (i * s.enc.ch.toNat + 1) s) fun g =>
  andThen (loadByte .pin (i * s.enc.ch.toNat + 2) s) fun b =>
  if s.enc.ch = 4#8 then andThen (loadByte .pin (i * s.enc.ch.toNat + 3) s) fun a => .next ⟨r, g, b, a⟩
  else .next ⟨r, g, b, 255#8⟩

/-- CLASSIFY (R90 to R94): the chunk for `px` after the previous pixel `p`. -/
def classify (px p : Pixel) : Instr :=
  if px.a ≠ p.a then .rgba px.r px.g px.b px.a
  else
    let dr := channelDelta px.r p.r
    let dg := channelDelta px.g p.g
    let db := channelDelta px.b p.b
    if within (-2) 1 dr && within (-2) 1 dg && within (-2) 1 db then
      .diff (diffField dr) (diffField dg) (diffField db)
    else if within (-32) 31 dg && within (-8) 7 (dr - dg) && within (-8) 7 (db - dg) then
      .luma (lumaGreenField dg) (lumaRelativeField (dr - dg)) (lumaRelativeField (db - dg))
    else .rgb px.r px.g px.b

/-- CACHE PROBE (R77). -/
def cacheHit (c : PixelCache) (px : Pixel) : Bool := decide (cacheGet c (hash px) = px)

/-- The chunk of a pixel that differs from the previous one: INDEX on a hit, else CLASSIFY's (R88, R89, R90). -/
def pixelChunk (px p : Pixel) (c : PixelCache) : Instr :=
  if cacheHit c px then .index (hash px) else classify px p

/-- The cache after such a pixel: written on a miss only (R78). -/
def encCache (px : Pixel) (c : PixelCache) : PixelCache :=
  if cacheHit c px then c else cachePut c (hash px) px

/-- FLUSH (R87): the RUN chunk of the pending run, and the counter to 0. -/
def flush (s : State) : Result State :=
  andThen (emit (chunkBytes (.run (s.enc.run - 1#6))) s) fun t =>
    .next { t with enc := { t.enc with run := 0#6 } }

/-- FLUSH if a run is pending (R88, R95). -/
def flushPending (s : State) : Result State := if s.enc.run = 0#6 then .next s else flush s

/-- RUN EXTEND (R86): flush at 62 or at the last pixel. -/
def runExtend (s : State) : Result State :=
  let t := { s with enc := { s.enc with run := s.enc.run + 1#6 } }
  if t.enc.run.toNat = runMax ∨ t.enc.i + 1 = t.enc.n then flush t else .next t

/-- DIFFERING PIXEL (R88): the pending run, then the pixel's own chunk, the cache and the previous pixel. -/
def differingPixel (px : Pixel) (s : State) : Result State :=
  andThen (flushPending s) fun t =>
  andThen (emit (chunkBytes (pixelChunk px t.enc.prev t.enc.cache)) t) fun u =>
    .next { u with enc := { u.enc with cache := encCache px u.enc.cache, prev := px } }

/-- The end of a LOOP step: the next pixel, or TAIL after the last (R85). -/
def nextPixel (s : State) : State :=
  { s with
    enc := { s.enc with
      i := s.enc.i + 1, phase := if s.enc.i + 1 = s.enc.n then .tail else s.enc.phase } }

/-- The LOOP step, one pixel (R85). -/
def encLoop (s : State) : Result State :=
  andThen (fetchPixel s.enc.i s) fun px =>
  andThen (if px = s.enc.prev then runExtend s else differingPixel px s) fun t => .next (nextPixel t)

/-- The TAIL step (R95, R121): the end marker, the result register, DONE. -/
def encTail (s : State) : Result State :=
  andThen (flushPending s) fun t =>
  andThen (emit endMarker t) fun u =>
    .next { u with
      encRegs := { u.encRegs with outLen := u.enc.op },
      enc := { u.enc with phase := .done, err := none } }

/-- One step of ENC (R25, R26): an engine that is not busy takes none. -/
def encTurn (s : State) : Result State :=
  match s.enc.phase with
  | .idle => .next s
  | .validate => encValidate s
  | .loop => encLoop s
  | .tail => encTail s
  | .done => .next s
  | .error => .next s

end Sys2Proof.Machine
end

