-- ==== Sys2Proof/Machine/HostPort.lean ====
section
/-! DEFINITION. The host's accesses: registers, buffers, placement, hardware reset (spec/10_state.md R27 to R31,
spec/44_commands.md R125, spec/70_reset_and_hazards.md R141). -/

namespace Sys2Proof.Machine

/-- What a read of a register returns; it has no side effect (R27 to R30). -/
def readReg (r : Reg) (s : State) : Nat :=
  match r with
  | .encCtrl => 0
  | .encStatus => (encStatus s).toNat
  | .encWidth => s.encRegs.width.toNat
  | .encHeight => s.encRegs.height.toNat
  | .encChannels => s.encRegs.channels.toNat
  | .encColorspace => s.encRegs.colorspace.toNat
  | .encInLen => s.encRegs.inLen
  | .encOutLen => s.encRegs.outLen
  | .decCtrl => 0
  | .decStatus => (decStatus s).toNat
  | .decInLen => s.decRegs.inLen
  | .decWidth => s.decRegs.width.toNat
  | .decHeight => s.decRegs.height.toNat
  | .decChannels => s.decRegs.channels.toNat
  | .decColorspace => s.decRegs.colorspace.toNat
  | .decOutLen => s.decRegs.outLen

/-- A write to a control register: the command it decodes to, or nothing when bit 0 is 0 (R30). -/
def command (reg : CtrlReg) (v : Word) (s : State) : Result State :=
  match decode (.ctrlWrite reg v) with
  | .ok (i, _) => exec i s
  | .error _ => .next s

/-- A register write: operands are kept as written, read-only registers ignore it (R27, R28, R30). -/
def writeReg (w : RegWrite) (s : State) : Result State :=
  match w with
  | .encCtrl v => command .enc v s
  | .encStatus _ => .next s
  | .encWidth v => .next { s with encRegs := { s.encRegs with width := v } }
  | .encHeight v => .next { s with encRegs := { s.encRegs with height := v } }
  | .encChannels v => .next { s with encRegs := { s.encRegs with channels := v } }
  | .encColorspace v => .next { s with encRegs := { s.encRegs with colorspace := v } }
  | .encInLen v => .next { s with encRegs := { s.encRegs with inLen := v } }
  | .encOutLen _ => .next s
  | .decCtrl v => command .dec v s
  | .decStatus _ => .next s
  | .decInLen v => .next { s with decRegs := { s.decRegs with inLen := v } }
  | .decWidth _ => .next s
  | .decHeight _ => .next s
  | .decChannels _ => .next s
  | .decColorspace _ => .next s
  | .decOutLen _ => .next s

/-! ### Access by address -/

/-- The interface registers, in the order of R27 and R28. -/
def regs : List Reg :=
  [.encCtrl, .encStatus, .encWidth, .encHeight, .encChannels, .encColorspace, .encInLen, .encOutLen,
    .decCtrl, .decStatus, .decInLen, .decWidth, .decHeight, .decChannels, .decColorspace, .decOutLen]

/-- The address `REG_MAP` gives a register (R27, R28). -/
def regAddr (m : Config.RegMap) : Reg → Nat
  | .encCtrl => m.encCtrl
  | .encStatus => m.encStatus
  | .encWidth => m.encWidth
  | .encHeight => m.encHeight
  | .encChannels => m.encChannels
  | .encColorspace => m.encColorspace
  | .encInLen => m.encInLen
  | .encOutLen => m.encOutLen
  | .decCtrl => m.decCtrl
  | .decStatus => m.decStatus
  | .decInLen => m.decInLen
  | .decWidth => m.decWidth
  | .decHeight => m.decHeight
  | .decChannels => m.decChannels
  | .decColorspace => m.decColorspace
  | .decOutLen => m.decOutLen

/-- The register at an address of the platform, if `REG_MAP` places one there. -/
def regAt (m : Config.RegMap) (a : Nat) : Option Reg := regs.find? fun r => regAddr m r == a

/-- A value as `n` bits, if it fits. -/
def fitted (n : Nat) (v : Nat) : Option (BitVec n) := if v < 2 ^ n then some (BitVec.ofNat n v) else none

/-- The write of a value to a register, in the register's own width (R27, R28); none if it does not fit. A length register
takes any value (R5, log 7), and so does a read-only one, which ignores it (R30). -/
def regWrite (r : Reg) (v : Nat) : Option RegWrite :=
  match r with
  | .encCtrl => (fitted 32 v).map .encCtrl
  | .encStatus => some (.encStatus (BitVec.ofNat 32 v))
  | .encWidth => (fitted 32 v).map .encWidth
  | .encHeight => (fitted 32 v).map .encHeight
  | .encChannels => (fitted 8 v).map .encChannels
  | .encColorspace => (fitted 8 v).map .encColorspace
  | .encInLen => some (.encInLen v)
  | .encOutLen => some (.encOutLen v)
  | .decCtrl => (fitted 32 v).map .decCtrl
  | .decStatus => some (.decStatus (BitVec.ofNat 32 v))
  | .decInLen => some (.decInLen v)
  | .decWidth => some (.decWidth (BitVec.ofNat 32 v))
  | .decHeight => some (.decHeight (BitVec.ofNat 32 v))
  | .decChannels => some (.decChannels (BitVec.ofNat 8 v))
  | .decColorspace => some (.decColorspace (BitVec.ofNat 8 v))
  | .decOutLen => some (.decOutLen v)

/-- A host write of a number to a register: the write of it in the register's width (R27, R28; log 8). -/
def writeNumber (r : Reg) (v : Nat) (s : State) : Result State :=
  match regWrite r v with
  | some w => writeReg w s
  | none => .refused (.hostValueTooWide r v)

/-- A host write at an address: the write of the register there (R27, R28; log 8). -/
def hostWriteAt (a v : Nat) (s : State) : Result State :=
  match regAt s.cfg.regMap a with
  | none => .refused (.noRegisterAt a)
  | some r => writeNumber r v s

/-- A host read at an address: the read of the register there (R27, R28; log 8). -/
def hostReadAt (a : Nat) (s : State) : Result State :=
  match regAt s.cfg.regMap a with
  | none => .refused (.noRegisterAt a)
  | some r => .next { s with rdata := readReg r s }

/-! ### Buffers -/

/-- An address lies in a buffer of a busy engine (R49). -/
def busyAddr (s : State) (a : Nat) : Bool := encOwns s a || decOwns s a

/-- A buffer belongs to a busy engine (R35). -/
def busyBuf (s : State) : Buf → Bool
  | .pin => encBusy s
  | .bout => encBusy s
  | .bin => decBusy s
  | .pout => decBusy s

/-- A byte the host may not rely on: in the output buffer of a busy engine (R46 part 3), or read as the output buffer of an
engine in ERROR (R125, R131). -/
def unspecifiedByte (s : State) (b : Buf) (a : Nat) : Bool :=
  (encBusy s && s.bufs.bout.has a) || (decBusy s && s.bufs.pout.has a)
    || (b == .bout && s.enc.phase == .error) || (b == .pout && s.dec.phase == .error)

/-- What the host can know of a byte of a buffer: nothing where it is unspecified or unknown. -/
def hostByte (s : State) (b : Buf) (off : Nat) : Option Byte :=
  if unspecifiedByte s b (bufAddr s b off) then none else s.mem.read (bufAddr s b off)

/-- A host read of one buffer byte; an unspecified or unknown one is a free value (log 10). -/
def hostLoad (b : Buf) (off : Nat) (s : State) : Result State :=
  if off < (s.bufs.get b).cap then
    match hostByte s b off with
    | some v => .next { s with rdata := v.toNat }
    | none => .next { s with rdata := (Config.freeByte s.freeCount).toNat, freeCount := s.freeCount + 1 }
  else .refused (.hostOutsideBuffer b off)

/-- A host write of one buffer byte, refused in a busy engine's buffers (R49; log 13). -/
def hostStore (b : Buf) (off : Nat) (v : Byte) (s : State) : Result State :=
  if off < (s.bufs.get b).cap then
    if busyAddr s (bufAddr s b off) then .refused (.hostWroteBusyBuffer b off)
    else .next { s with mem := s.mem.write (bufAddr s b off) v }
  else .refused (.hostOutsideBuffer b off)

/-- The host provides a buffer (R42, R144); moving a busy engine's buffer is refused (R49; log 13). -/
def hostPlace (b : Buf) (r : Region) (s : State) : Result State :=
  if busyBuf s b then .refused (.hostMovedBusyBuffer b) else .next { s with bufs := s.bufs.set b r }

/-! ### Hardware reset -/

/-- The hardware reset, in any phase (R141): both engines and every interface register take their reset values. No buffer
is written, and what an abandoned operation had already written holds any value (log 11). -/
def hardReset (s : State) : State :=
  { s with
    enc := Enc.reset, dec := Dec.reset, encRegs := EncRegs.reset, decRegs := DecRegs.reset,
    mem := s.mem.freeIf (fun a => encWrote s a || decWrote s a) (Config.leftByte s.freeCount),
    freeCount := s.freeCount + 1 }

/-- One host access (R125). -/
def hostTurn (a : HostAccess) (s : State) : Result State :=
  match a with
  | .write w => writeReg w s
  | .read r => .next { s with rdata := readReg r s }
  | .writeAt a v => hostWriteAt a v s
  | .readAt a => hostReadAt a s
  | .storeByte b off v => hostStore b off v s
  | .loadByte b off => hostLoad b off s
  | .place b r => hostPlace b r s
  | .hardReset => .next (hardReset s)

end Sys2Proof.Machine
end

