-- ==== Sys2Proof/Machine/Turns.lean ====
section
/-! DEFINITION. Whose turn it is, and how an instruction is placed where the next step fetches it (spec/10_state.md R26;
logs 2 and 9). -/

namespace Sys2Proof.Machine

/-- With no turn scripted, a busy engine steps (the fairness of R147), the decoder first; with none busy nothing happens
(R26). DESIGN CHOICE, log 9. -/
def idleTurn (s : State) : Result State :=
  if decBusy s then decTurn s else encTurn s

/-- One turn: the first of the script, which leaves it. -/
def takeTurn (s : State) : Result State :=
  match s.script with
  | [] => idleTurn s
  | .enc :: rest => encTurn { s with script := rest }
  | .dec :: rest => decTurn { s with script := rest }
  | .host a :: rest => hostTurn a { s with script := rest }

/-- A region as large as asked, kept where it is. -/
def Region.grow (r : Region) (n : Nat) : Region := { r with cap := max r.cap n }

/-- The channel count if it is legal, else 4. -/
def legalCh (ch : Byte) : Byte := if ch = 3#8 then ch else 4#8

/-- The decoder registers with which its next LOOP step reads a chunk of up to five bytes at `d.ip` (log 2). -/
def readyDec (d : Dec) : Dec :=
  { d with
    phase := .loop, run := 0#6, ch := legalCh d.ch, n := max d.n (d.k + 2), stop := max d.stop (d.ip + 5),
    len := max d.len (max d.stop (d.ip + 5) + endSize) }

/-- An output region with room for the next pixel, behind `lim` if the present one has none. -/
def readyPout (r : Region) (need lim : Nat) : Region := if need ≤ r.cap then r else ⟨lim, need⟩

/-- An instruction's code placed so that the very next step runs it (log 2): a control write is the next host turn; chunk
bytes stand at `d.ip` of `BIN`, with the decoder in LOOP and its turn next. -/
def stage (c : Code) (s : State) : State :=
  match c with
  | .ctrlWrite .enc v => { s with script := .host (.write (.encCtrl v)) :: s.script }
  | .ctrlWrite .dec v => { s with script := .host (.write (.decCtrl v)) :: s.script }
  | .chunk bs =>
    { s with
      dec := readyDec s.dec,
      bufs := { s.bufs with
        bin := s.bufs.bin.grow (s.dec.ip + bs.length + endSize),
        pout := readyPout s.bufs.pout ((s.dec.k + 2) * 4)
          (s.bufs.bin.base + (s.bufs.bin.grow (s.dec.ip + bs.length + endSize)).cap) },
      mem := s.mem.writeAll (s.bufs.bin.base + s.dec.ip) bs,
      script := .dec :: s.script }

end Sys2Proof.Machine
end

