-- ==== Sys2Proof/Machine/Step.lean ====
section
/-! DEFINITION. The step of the machine, and the placing of one instruction for it. -/

namespace Sys2Proof.Machine

/-- One step: one turn of the host or of an engine (R26). -/
def step (s : State) : Host.Outcome State Fault Refusal := takeTurn s

/-- The state whose next step runs the instruction with the table bits `w` (log 2). -/
def State.withFetchWord (s : State) (nbits w : Nat) : State := stage (tableCode nbits w) s

end Sys2Proof.Machine
end

