-- ==== Sys2Proof/Safety.lean ====
section
/-! DEFINITION. What a sound state of the machine is, what counts as a safe step, and the words the statements are written
in. -/

namespace Sys2Proof.Machine

/-! ### Reading a result -/

/-- The next state of a result, if it has one. -/
def nextOf {α : Type} : Result α → Option α
  | .next a => some a
  | .fault _ => none
  | .refused _ => none

/-- The step completes. -/
def Completes (o : Result State) : Prop := ∃ t, o = .next t

/-- The step stops with a fault. -/
def Faults (o : Result State) : Prop := ∃ r, o = .fault r

/-- Some decoder steps in a row. -/
def decTurns : Nat → State → Result State
  | 0, s => .next s
  | k + 1, s => andThen (decTurn s) (decTurns k)

/-! ### Sound states -/

/-- A pending run owes one RUN byte. -/
def pendingByte (run : BitVec 6) : Nat := if run = 0#6 then 0 else 1

/-- What holds of the encoder in LOOP and TAIL (R19, R83, R86, R91, R96). -/
structure EncRunning (s : State) : Prop where
  /-- Every check of VALIDATE passed. -/
  checked : encError s = none
  /-- `e.N = e.w * e.h`, exact. -/
  count : s.enc.n = s.enc.w.toNat * s.enc.h.toNat
  /-- R42. -/
  room : encCapacity s.enc.w s.enc.h s.enc.ch ≤ s.bufs.bout.cap
  /-- R19, C2. -/
  runShort : s.enc.run.toNat ≤ 61
  /-- With 3 channels every alpha is 255 (R91). -/
  alpha : s.enc.ch = 3#8 → s.enc.prev.a = 255#8
  /-- R96, counting the byte a pending run still owes. -/
  upper : s.enc.op + pendingByte s.enc.run ≤ 14 + s.enc.i * (s.enc.ch.toNat + 1)
  /-- The header is written (R71). -/
  header : 14 ≤ s.enc.op
  /-- R96: the pixels so far have cost at least one byte, counting the byte a pending run owes. -/
  lower : 14 + min s.enc.i 1 ≤ s.enc.op + pendingByte s.enc.run

/-- What holds of the encoder in every state (R19, R25, R27, R29, R49, R96). -/
structure EncSound (s : State) : Prop where
  /-- `ERR` is set in ERROR and only there (R29). -/
  errOnly : s.enc.err.isSome ↔ s.enc.phase = .error
  /-- The encoder's errors (R127, R128). -/
  errKind : ∀ e, s.enc.err = some e → e ∈ [Err.bufferLength, Err.dimension, Err.channel, Err.colorspace]
  /-- `ENC_OUT_LEN` is 0 unless the last operation reached DONE (R27). -/
  noLength : s.enc.phase ≠ .done → s.encRegs.outLen = 0
  /-- R49. -/
  placed : encBusy s → s.bufs.pin.disjoint s.bufs.bout
  running : s.enc.phase = .loop ∨ s.enc.phase = .tail → EncRunning s
  /-- R85. -/
  inLoop : s.enc.phase = .loop → s.enc.i < s.enc.n
  /-- R95: nothing is pending in TAIL. -/
  inTail : s.enc.phase = .tail → s.enc.i = s.enc.n ∧ s.enc.run = 0#6
  /-- R96. -/
  atDone : s.enc.phase = .done →
    s.encRegs.outLen = s.enc.op ∧ encError s = none ∧
      s.enc.n = s.enc.w.toNat * s.enc.h.toNat ∧ s.enc.i = s.enc.n ∧ 23 ≤ s.enc.op ∧
      s.enc.op ≤ encCapacity s.enc.w s.enc.h s.enc.ch

/-- What holds of the decoder in LOOP (R21, R23, R82, R99, R101). -/
structure DecRunning (s : State) : Prop where
  /-- The field checks of HEADER passed. -/
  checked : fieldError s.dec.w s.dec.h s.dec.ch s.dec.cs s.cfg.pixelsMax = none
  /-- `d.N = d.w * d.h`, exact. -/
  count : s.dec.n = s.dec.w.toNat * s.dec.h.toNat
  /-- Pixels are still owed (R101). -/
  owed : s.dec.k < s.dec.n
  /-- R74, R99. -/
  region : 14 ≤ s.dec.len ∧ s.dec.stop = s.dec.len - 8
  /-- R23: `d.ip` never passes `d.L`. -/
  ipIn : 14 ≤ s.dec.ip ∧ s.dec.ip ≤ s.dec.len
  /-- R21. -/
  runShort : s.dec.run.toNat ≤ 61
  /-- R42. -/
  room : s.dec.n * s.dec.ch.toNat ≤ s.bufs.pout.cap
  /-- R82: the slot a replayed pixel would write already holds it. -/
  replayed : s.dec.run ≠ 0#6 → cacheGet s.dec.cache (hash s.dec.prev) = s.dec.prev

/-- What holds of the decoder in every state (R21, R25, R28, R29, R49). -/
structure DecSound (s : State) : Prop where
  errOnly : s.dec.err.isSome ↔ s.dec.phase = .error
  /-- The decoder's errors (R127). -/
  errKind : ∀ e, s.dec.err = some e →
    e ∈ [Err.signature, Err.dimension, Err.channel, Err.colorspace, Err.incompleteImage]
  /-- The result registers are 0 unless the last operation reached DONE (R28). -/
  noResult : s.dec.phase ≠ .done →
    s.decRegs.width = 0#32 ∧ s.decRegs.height = 0#32 ∧ s.decRegs.channels = 0#8 ∧ s.decRegs.colorspace = 0#8 ∧
      s.decRegs.outLen = 0
  /-- R49. -/
  placed : decBusy s → s.bufs.bin.disjoint s.bufs.pout
  running : s.dec.phase = .loop → DecRunning s
  /-- R112. -/
  atDone : s.dec.phase = .done →
    s.dec.k = s.dec.n ∧ s.dec.n = s.dec.w.toNat * s.dec.h.toNat ∧
      fieldError s.dec.w s.dec.h s.dec.ch s.dec.cs s.cfg.pixelsMax = none ∧
      s.decRegs.width = s.dec.w ∧ s.decRegs.height = s.dec.h ∧ s.decRegs.channels = s.dec.ch ∧
      s.decRegs.colorspace = s.dec.cs ∧ s.decRegs.outLen = s.dec.n * s.dec.ch.toNat ∧
      s.dec.stop = s.dec.len - 8 ∧ s.dec.ip ≤ s.dec.len

/-- The invariant of the machine. -/
structure Sound (s : State) : Prop where
  /-- R6. -/
  cfgOk : s.cfg.ok
  /-- The memory is in its canonical form. -/
  memOk : s.mem.wf
  enc : EncSound s
  dec : DecSound s

/-! ### The words of the statements -/

/-- None of the `n` bytes at `off` of a buffer lies inside a buffer of the other engine while that one is busy: the engine
may write them (R49). -/
def FreeAt (s : State) (b : Buf) (off n : Nat) : Prop := ∀ j, j < n → otherOwns s b (bufAddr s b (off + j)) = false

/-- While the decoder is busy, `BOUT` shares no byte with either of its buffers: the encoder may write all of it (R49). -/
def BoutClear (s : State) : Prop :=
  decBusy s = true → s.bufs.bout.disjoint s.bufs.bin = true ∧ s.bufs.bout.disjoint s.bufs.pout = true

/-- While the encoder is busy, `POUT` shares no byte with either of its buffers: the decoder may write all of it (R49). -/
def PoutClear (s : State) : Prop :=
  encBusy s = true → s.bufs.pout.disjoint s.bufs.pin = true ∧ s.bufs.pout.disjoint s.bufs.bout = true

/-- The pixel the decoder produces next lies below the capacity of `POUT` (R42, R111). -/
def PixelFits (s : State) : Prop :=
  s.dec.k * s.dec.ch.toNat + (if s.dec.ch = 4#8 then 4 else 3) ≤ s.bufs.pout.cap

/-- There is room in `POUT` for the pixel the decoder produces next: its bytes exist (R42, R111), and none of them is the
busy encoder's (R49). -/
def RoomForPixel (s : State) : Prop :=
  PixelFits s ∧ FreeAt s .pout (s.dec.k * s.dec.ch.toNat) (if s.dec.ch = 4#8 then 4 else 3)

/-- The pixel bytes at `off ..` of a buffer: `r, g, b`, then `a` with 4 channels (R36, R37). -/
def HoldsPixel (s : State) (b : Buf) (off : Nat) (ch : Byte) (px : Pixel) : Prop :=
  bufByte s b off = some px.r ∧ bufByte s b (off + 1) = some px.g ∧ bufByte s b (off + 2) = some px.b ∧
    (ch = 4#8 → bufByte s b (off + 3) = some px.a)

/-- The bytes at `off ..` of a buffer, as its engine reads them: what it holds, or free values where the other engine's
running operation has written (R139; log 20). -/
def GetsBytes (s : State) (b : Buf) (off : Nat) (bs : List Byte) : Prop :=
  ∀ j, (h : j < bs.length) → inputByte s b (off + j) = some bs[j]

/-- The pixel bytes at `off ..` of a buffer, as its engine reads them (R36). -/
def GetsPixel (s : State) (b : Buf) (off : Nat) (ch : Byte) (px : Pixel) : Prop :=
  inputByte s b off = some px.r ∧ inputByte s b (off + 1) = some px.g ∧ inputByte s b (off + 2) = some px.b ∧
    (ch = 4#8 → inputByte s b (off + 3) = some px.a)

/-- The bytes at `off ..` of a buffer. -/
def HoldsBytes (s : State) (b : Buf) (off : Nat) (bs : List Byte) : Prop :=
  ∀ j, (h : j < bs.length) → bufByte s b (off + j) = some bs[j]

/-- Every byte of memory outside `n` bytes at `off` of a buffer reads as before. -/
def OnlyWrote (s t : State) (b : Buf) (off n : Nat) : Prop :=
  ∀ a, ¬ (bufAddr s b off ≤ a ∧ a < bufAddr s b off + n) → t.mem.read a = s.mem.read a

/-- Everything but the decoder's registers and memory is as before. -/
def SameBesideDec (s t : State) : Prop :=
  t.cfg = s.cfg ∧ t.enc = s.enc ∧ t.encRegs = s.encRegs ∧ t.bufs = s.bufs ∧ t.script = s.script ∧
    t.rdata = s.rdata ∧ t.freeCount = s.freeCount

/-- Everything but the encoder's registers and memory is as before. -/
def SameBesideEnc (s t : State) : Prop :=
  t.cfg = s.cfg ∧ t.dec = s.dec ∧ t.decRegs = s.decRegs ∧ t.bufs = s.bufs ∧ t.script = s.script ∧
    t.rdata = s.rdata ∧ t.freeCount = s.freeCount

/-- What every LOOP step that produces a pixel leaves of the decoder (R111, R112): the latched and header registers as
before, one more pixel, its bytes in `POUT` and no other byte written, and DONE with its results when it was the last. -/
structure PixelOut (s t : State) (px : Pixel) : Prop where
  others : SameBesideDec s t
  latched : t.dec.len = s.dec.len ∧ t.dec.w = s.dec.w ∧ t.dec.h = s.dec.h ∧ t.dec.ch = s.dec.ch ∧ t.dec.cs = s.dec.cs ∧
    t.dec.n = s.dec.n ∧ t.dec.stop = s.dec.stop ∧ t.decRegs.inLen = s.decRegs.inLen
  counted : t.dec.k = s.dec.k + 1
  stored : HoldsPixel t .pout (s.dec.k * s.dec.ch.toNat) s.dec.ch px
  onlyStored : OnlyWrote s t .pout (s.dec.k * s.dec.ch.toNat) (if s.dec.ch = 4#8 then 4 else 3)
  more : s.dec.k + 1 ≠ s.dec.n → t.dec.phase = s.dec.phase ∧ t.dec.err = s.dec.err ∧ t.decRegs = s.decRegs
  last : s.dec.k + 1 = s.dec.n →
    t.dec.phase = .done ∧ t.dec.err = none ∧ t.decRegs.width = s.dec.w ∧ t.decRegs.height = s.dec.h ∧
      t.decRegs.channels = s.dec.ch ∧ t.decRegs.colorspace = s.dec.cs ∧
      t.decRegs.outLen = s.dec.n * s.dec.ch.toNat

/-- What every chunk of `len` bytes that yields `px` leaves (R23, R79, R110): `d.ip` past it, the pixel in its own hash's
slot and no other slot changed, the pixel as the previous one, and the pixel out. -/
structure ChunkRan (s t : State) (len : Nat) (run : BitVec 6) (px : Pixel) : Prop where
  out : PixelOut s t px
  ip : t.dec.ip = s.dec.ip + len
  prev : t.dec.prev = px
  owes : t.dec.run = run
  slot : ∀ k, cacheGet t.dec.cache k = if k = hash px then px else cacheGet s.dec.cache k

/-- The encoder's and the decoder's caches as R81 relates them: equal in every slot, but for slot 53, which may hold
`CACHE_INIT` in the encoder and `PREV_INIT` in the decoder. -/
def CachesAgree (ce cd : PixelCache) : Prop :=
  ∀ k, cacheGet ce k = cacheGet cd k ∨
    (k = 53#6 ∧ cacheGet ce k = ⟨0#8, 0#8, 0#8, 0#8⟩ ∧ cacheGet cd k = ⟨0#8, 0#8, 0#8, 255#8⟩)

/-- The previous pixel stands in its slot of the encoder's cache, unless it is still `PREV_INIT` from the start of the
operation, which the encoder never cached (C4 of spec/90_conflicts.md). -/
def PrevCached (ce : PixelCache) (p : Pixel) : Prop :=
  cacheGet ce (hash p) = p ∨ (p = ⟨0#8, 0#8, 0#8, 255#8⟩ ∧ cacheGet ce 53#6 = ⟨0#8, 0#8, 0#8, 0#8⟩)

/-- `d = wrapdelta(c - p)`: the integer in -128 to 127 that differs from `c - p` by a multiple of 256 (R9). -/
def IsWrapDelta (d : Int) (c p : Byte) : Prop :=
  -128 ≤ d ∧ d ≤ 127 ∧ (256 : Int) ∣ d - ((c.toNat : Int) - (p.toNat : Int))

/-- The big-endian 32-bit number at offset `i` of a byte list (R11, R39). -/
def wordAt (bs : List Byte) (i : Nat) : Nat :=
  (((bs.getD i 0#8).toNat * 256 + (bs.getD (i + 1) 0#8).toNat) * 256 + (bs.getD (i + 2) 0#8).toNat) * 256
    + (bs.getD (i + 3) 0#8).toNat

/-- 14 header bytes pass every check of HEADER: the signature, then dimension, channel and colorspace (R73). -/
def HeaderPasses (p : Config.Params) (hdr : List Byte) : Prop :=
  hdr.take 4 = p.magic.toList ∧ 1 ≤ wordAt hdr 4 ∧ 1 ≤ wordAt hdr 8 ∧ wordAt hdr 4 * wordAt hdr 8 < p.pixelsMax ∧
    (hdr.getD 12 0#8 = 3#8 ∨ hdr.getD 12 0#8 = 4#8) ∧ (hdr.getD 13 0#8 = 0#8 ∨ hdr.getD 13 0#8 = 1#8)

/-- The whole of `POUT` holds any value: each known byte there is the free value at its address; every other byte is as before
(R131; the form is log 11). -/
def PoutFreed (s t : State) : Prop :=
  ∀ a, t.mem.read a =
    if s.bufs.pout.has a = true then (s.mem.read a).map fun _ => Config.leftByte s.freeCount a else s.mem.read a

/-- Two states that differ only in a running decode: in the decoder's working registers, both decoders being busy and having
written as much, and in what they have written (R139). -/
structure SameButRunningDec (s u : State) : Prop where
  busy : decBusy s = true ∧ decBusy u = true
  err : u.dec.err = s.dec.err
  rest : u = { s with dec := u.dec, mem := u.mem }
  written : ∀ a, decWrote u a = decWrote s a
  bytes : ∀ a, decWrote s a = false → u.mem.read a = s.mem.read a

/-- Two states that differ only in a running encode: in the encoder's working registers, both encoders being busy and having
written as much, and in what they have written (R139). -/
structure SameButRunningEnc (s u : State) : Prop where
  busy : encBusy s = true ∧ encBusy u = true
  err : u.enc.err = s.enc.err
  rest : u = { s with enc := u.enc, mem := u.mem }
  written : ∀ a, encWrote u a = encWrote s a
  bytes : ∀ a, encWrote s a = false → u.mem.read a = s.mem.read a

/-- The next turn is ENC_START: a host write to `ENC_CTRL` with bit 0 = 1 (R117), by name or at its address. -/
def EncStartNext (s : State) : Prop :=
  ∃ rest, (∃ v : Word, v.toNat % 2 = 1 ∧ s.script = .host (.write (.encCtrl v)) :: rest) ∨
    (∃ v : Nat, v < 2 ^ 32 ∧ v % 2 = 1 ∧ s.script = .host (.writeAt s.cfg.regMap.encCtrl v) :: rest)

/-- The next turn is DEC_START: a host write to `DEC_CTRL` with bit 0 = 1 (R118), by name or at its address. -/
def DecStartNext (s : State) : Prop :=
  ∃ rest, (∃ v : Word, v.toNat % 2 = 1 ∧ s.script = .host (.write (.decCtrl v)) :: rest) ∨
    (∃ v : Nat, v < 2 ^ 32 ∧ v % 2 = 1 ∧ s.script = .host (.writeAt s.cfg.regMap.decCtrl v) :: rest)

/-- Two host accesses are one: whatever turns follow, the step is the same. -/
def SameTurn (s : State) (a b : HostAccess) : Prop :=
  ∀ rest, step { s with script := .host a :: rest } = step { s with script := .host b :: rest }

/-- Is the instruction a chunk of the stream? -/
def isChunk : Instr → Bool
  | .index _ => true
  | .diff _ _ _ => true
  | .luma _ _ _ => true
  | .run _ => true
  | .rgb _ _ _ => true
  | .rgba _ _ _ _ => true
  | .encStart _ => false
  | .decStart _ => false

end Sys2Proof.Machine
end

