-- ==== Sys2Proof/Certificates/Slice0/Obligations.lean ====
section
/-! DEFINITION. The statements for the provers. Each docstring names the rule of spec/ it formalises. -/

open Sys2Proof Sys2Proof.Machine

/-! ### Encodings -/

/-- Words written out from R54 to R59 and from R117 and R118 decode to the instructions they stand for. -/
def Obligations.SpecWordsDecode : Prop :=
  decode (.chunk [0x09#8]) = .ok (.index 9#6, []) ∧
  decode (.chunk [0x77#8]) = .ok (.diff 3#2 1#2 3#2, []) ∧
  decode (.chunk [0xA2#8, 0x79#8]) = .ok (.luma 34#6 7#4 9#4, []) ∧
  decode (.chunk [0xD7#8]) = .ok (.run 23#6, []) ∧
  decode (.chunk [0xFE#8, 0x64#8, 0x32#8, 0x19#8]) = .ok (.rgb 100#8 50#8 25#8, []) ∧
  decode (.chunk [0xFF#8, 0x64#8, 0x32#8, 0x19#8, 0x80#8]) = .ok (.rgba 100#8 50#8 25#8 128#8, []) ∧
  decode (.ctrlWrite .enc 0x00000001#32) = .ok (.encStart 0#31, []) ∧
  decode (.ctrlWrite .dec 0x80000001#32) = .ok (.decStart 0x40000000#31, []) ∧
  decode (.ctrlWrite .enc 0xFFFFFFFE#32) = .error .notStart

/-- Every well-formed instruction is decoded back from its encoding, whatever bytes follow a chunk (R54 to R59, R117,
R118). -/
def Obligations.EncodedInstructionDecodesToItself : Prop :=
  ∀ i : Instr, i.wf = true →
    (isChunk i = true → ∀ rest, encode i = .chunk (chunkBytes i) ∧ decode (.chunk (chunkBytes i ++ rest)) = .ok (i, rest)) ∧
    (isChunk i = false → decode (encode i) = .ok (i, []))

/-- Whatever decodes is well-formed and its bytes are its encoding: no two byte strings mean the same chunk (R60, R63). -/
def Obligations.DecodedBytesAreTheEncoding : Prop :=
  (∀ bs i rest, decode (.chunk bs) = .ok (i, rest) → i.wf = true ∧ isChunk i = true ∧ bs = chunkBytes i ++ rest) ∧
  (∀ reg v i rest, decode (.ctrlWrite reg v) = .ok (i, rest) →
    i.wf = true ∧ isChunk i = false ∧ rest = [] ∧ encode i = .ctrlWrite reg v)

/-- The tag byte selects the kind by the ranges of R60. -/
def Obligations.TagByteSelectsKind : Prop :=
  ∀ b0 : Byte,
    (b0.toNat ≤ 0x3F → kindOf b0 = .index) ∧
    (0x40 ≤ b0.toNat ∧ b0.toNat ≤ 0x7F → kindOf b0 = .diff) ∧
    (0x80 ≤ b0.toNat ∧ b0.toNat ≤ 0xBF → kindOf b0 = .luma) ∧
    (0xC0 ≤ b0.toNat ∧ b0.toNat ≤ 0xFD → kindOf b0 = .run) ∧
    (b0.toNat = 0xFE → kindOf b0 = .rgb) ∧
    (b0.toNat = 0xFF → kindOf b0 = .rgba)

/-- A chunk takes as many bytes as its tag says, and is decoded whenever they are there (R61, R63). That a shorter list is
rejected as truncated is the model's own reject case, which no run reaches (log 19, DEDUCED). -/
def Obligations.ChunkLengthFollowsFromTag : Prop :=
  ∀ (b0 : Byte) (rest : List Byte),
    ((kindOf b0).length ≤ rest.length + 1 →
      ∃ i, decode (.chunk (b0 :: rest)) = .ok (i, rest.drop ((kindOf b0).length - 1))) ∧
    (rest.length + 1 < (kindOf b0).length →
      decode (.chunk (b0 :: rest)) = .error (.truncated (kindOf b0).length (rest.length + 1))) ∧
    (kindOf b0).length = (if b0.toNat < 0x80 then 1 else if b0.toNat < 0xC0 then 2 else if b0.toNat < 0xFE then 1
      else if b0.toNat = 0xFE then 4 else 5)

/-- Each channel value's part in the hash (R76). -/
def Obligations.HashIsLowSixBitsOfSum : Prop :=
  ∀ px : Pixel,
    (hash px).toNat = (px.r.toNat * 3 + px.g.toNat * 5 + px.b.toNat * 7 + px.a.toNat * 11) % 64 ∧
    px.r.toNat * 3 + px.g.toNat * 5 + px.b.toNat * 7 + px.a.toNat * 11 ≤ 6630

/-! ### A step runs the decoded instruction -/

/-- When the decoder is to read a chunk and the bytes at `d.ip` encode a well-formed chunk, the step is that chunk's
meaning (R101, R103); its turn leaves the script. That the decoder steps on an empty script is log 9. -/
def Obligations.StepRunsFetchedChunk : Prop :=
  ∀ (s : State) (i : Instr), isChunk i = true → i.wf = true → s.dec.phase = .loop → s.dec.run = 0#6 →
    s.dec.ip < s.dec.stop → GetsBytes s .bin s.dec.ip (chunkBytes i) →
    (∀ rest, s.script = .dec :: rest → step s = exec i { s with script := rest }) ∧
    (s.script = [] → step s = exec i s)

/-- A host write to a control register runs the START it decodes to, or does nothing when bit 0 is 0 (R30, R117, R118). -/
def Obligations.StepRunsCommandWrite : Prop :=
  ∀ (s : State) (rest : List Turn) (v : Word),
    (s.script = .host (.write (.encCtrl v)) :: rest →
      step s = if v.toNat % 2 = 1 then exec (.encStart (v.extractLsb' 1 31)) { s with script := rest }
        else .next { s with script := rest }) ∧
    (s.script = .host (.write (.decCtrl v)) :: rest →
      step s = if v.toNat % 2 = 1 then exec (.decStart (v.extractLsb' 1 31)) { s with script := rest }
        else .next { s with script := rest })

/-! ### Chunks in the decoder -/

/-- INDEX yields the pixel of the named slot, and the commit writes the slot of that pixel's hash (R104). -/
def Obligations.IndexYieldsSlotPixel : Prop :=
  ∀ (s : State) (slot : BitVec 6), RoomForPixel s →
    ∃ t, exec (.index slot) s = .next t ∧ ChunkRan s t 1 s.dec.run (cacheGet s.dec.cache slot)

/-- DIFF adds its three fields, each less 2, to the previous channels modulo 256 and keeps alpha (R105). -/
def Obligations.DiffAddsBiasedDeltas : Prop :=
  ∀ (s : State) (r g b : BitVec 2), RoomForPixel s →
    ∃ t px, exec (.diff r g b) s = .next t ∧ ChunkRan s t 1 s.dec.run px ∧
      (px.r.toNat : Int) = ((s.dec.prev.r.toNat : Int) + r.toNat - 2) % 256 ∧
      (px.g.toNat : Int) = ((s.dec.prev.g.toNat : Int) + g.toNat - 2) % 256 ∧
      (px.b.toNat : Int) = ((s.dec.prev.b.toNat : Int) + b.toNat - 2) % 256 ∧
      px.a = s.dec.prev.a

/-- LUMA adds the green delta to all three channels and the relative ones to red and blue, modulo 256, and keeps alpha
(R106). -/
def Obligations.LumaAddsRelativeDeltas : Prop :=
  ∀ (s : State) (g : BitVec 6) (r b : BitVec 4), RoomForPixel s →
    ∃ t px, exec (.luma g r b) s = .next t ∧ ChunkRan s t 2 s.dec.run px ∧
      (px.r.toNat : Int) = ((s.dec.prev.r.toNat : Int) + (g.toNat - 32) + r.toNat - 8) % 256 ∧
      (px.g.toNat : Int) = ((s.dec.prev.g.toNat : Int) + (g.toNat - 32)) % 256 ∧
      (px.b.toNat : Int) = ((s.dec.prev.b.toNat : Int) + (g.toNat - 32) + b.toNat - 8) % 256 ∧
      px.a = s.dec.prev.a

/-- RUN repeats the previous pixel now and owes its field of replays (R107). -/
def Obligations.RunRepeatsPreviousPixel : Prop :=
  ∀ (s : State) (l : BitVec 6), RoomForPixel s →
    ∃ t, exec (.run l) s = .next t ∧ ChunkRan s t 1 l s.dec.prev

/-- RGB sets red, green and blue and keeps alpha (R108). -/
def Obligations.RgbKeepsPreviousAlpha : Prop :=
  ∀ (s : State) (r g b : Byte), RoomForPixel s →
    ∃ t, exec (.rgb r g b) s = .next t ∧ ChunkRan s t 4 s.dec.run ⟨r, g, b, s.dec.prev.a⟩

/-- RGBA sets all four channels, in a 3-channel stream too (R109). -/
def Obligations.RgbaSetsAllChannels : Prop :=
  ∀ (s : State) (r g b a : Byte), RoomForPixel s →
    ∃ t, exec (.rgba r g b a) s = .next t ∧ ChunkRan s t 5 s.dec.run ⟨r, g, b, a⟩

/-- A chunk completes when its pixel has room in `POUT`, and its only stops are two, by the first byte of the pixel that
cannot be stored: one that is not below the capacity faults (the fault is the model's choice, log 14: R111 says it does not
happen); one inside a buffer of the busy encoder is refused (R49; the refusal's form is log 12). -/
def Obligations.ChunkWithoutRoomFaults : Prop :=
  ∀ (s : State) (i : Instr), isChunk i = true →
    let first := s.dec.k * s.dec.ch.toNat
    let cap := s.bufs.pout.cap
    let size := if s.dec.ch = 4#8 then 4 else 3
    let owned (off : Nat) : Prop := encBusy s = true ∧
      (s.bufs.pin.has (bufAddr s .pout off) = true ∨ s.bufs.bout.has (bufAddr s .pout off) = true)
    (first + size ≤ cap → (∀ off, first ≤ off → off < first + size → ¬ owned off) → ∃ t, exec i s = .next t) ∧
    (cap < first + size → (∀ off, first ≤ off → off < cap → ¬ owned off) →
      exec i s = .fault (.outsideBuffer .pout (max first cap))) ∧
    (∀ o, first ≤ o → o < first + size → o < cap → owned o → (∀ off, first ≤ off → off < o → ¬ owned off) →
      exec i s = .refused (.engineWroteBusyBuffer .pout o))

/-- A RUN chunk loads `b0[5:0]` replays, produces the previous pixel and writes its slot, and the next `b0[5:0]` LOOP steps
replay it: `b0[5:0] + 1` pixels in all (R107). -/
def Obligations.RunChunkYieldsItsLength : Prop :=
  ∀ (s : State) (l : BitVec 6), s.dec.phase = .loop → s.dec.run = 0#6 → l.toNat ≤ 61 →
    s.dec.ip < s.dec.stop → GetsBytes s .bin s.dec.ip (chunkBytes (.run l)) →
    (s.dec.ch = 3#8 ∨ s.dec.ch = 4#8) → s.dec.k + (l.toNat + 1) ≤ s.dec.n → s.dec.n * s.dec.ch.toNat ≤ s.bufs.pout.cap →
    FreeAt s .pout (s.dec.k * s.dec.ch.toNat) ((l.toNat + 1) * s.dec.ch.toNat) →
    ∃ u t, decTurn s = .next u ∧ ChunkRan s u 1 l s.dec.prev ∧
      decTurns l.toNat u = .next t ∧ t.dec.k = s.dec.k + (l.toNat + 1) ∧ t.dec.ip = s.dec.ip + 1 ∧
      t.dec.run = 0#6 ∧ t.dec.prev = s.dec.prev ∧ t.dec.cache = u.dec.cache ∧
      ∀ j, j < l.toNat + 1 → HoldsPixel t .pout ((s.dec.k + j) * s.dec.ch.toNat) s.dec.ch s.dec.prev

/-! ### The host commands -/

/-- ENC_START latches the operands, clears `ENC_OUT_LEN` and enters VALIDATE with STATE 1 and ERR 0, whatever the reserved
bits (R117, R31). Of the model's own counter of free values nothing is said (log 10). -/
def Obligations.EncStartBeginsOperation : Prop :=
  ∀ (s : State) (x : BitVec 31), encBusy s = false → s.bufs.pin.disjoint s.bufs.bout = true →
    ∃ n, exec (.encStart x) s = .next { s with
      enc := { s.enc with
        w := s.encRegs.width, h := s.encRegs.height, ch := s.encRegs.channels, cs := s.encRegs.colorspace,
        plen := s.encRegs.inLen, phase := .validate, err := none },
      encRegs := { s.encRegs with outLen := 0 },
      freeCount := n }

/-- DEC_START latches the length, clears the five result registers and enters HEADER with STATE 1 and ERR 0, whatever the
reserved bits (R118, R31). Of the model's own counter of free values nothing is said (log 10). -/
def Obligations.DecStartBeginsOperation : Prop :=
  ∀ (s : State) (x : BitVec 31), decBusy s = false → s.bufs.bin.disjoint s.bufs.pout = true →
    ∃ n, exec (.decStart x) s = .next { s with
      dec := { s.dec with len := s.decRegs.inLen, phase := .header, err := none },
      decRegs := { s.decRegs with width := 0#32, height := 0#32, channels := 0#8, colorspace := 0#8, outLen := 0 },
      freeCount := n }

/-- A START while its engine is busy has no effect (R119). -/
def Obligations.StartWhileBusyIgnored : Prop :=
  ∀ (s : State) (x : BitVec 31),
    (encBusy s = true → exec (.encStart x) s = .next s) ∧ (decBusy s = true → exec (.decStart x) s = .next s)

/-- A START is refused exactly when it is not ignored and its engine's own two buffers share a byte (R49; that it is noticed at
START is log 12). Where the other engine's buffers lie does not matter to a START: R49 forbids writes there, not overlap. -/
def Obligations.StartRefusedOnOverlap : Prop :=
  (∀ r t : Region, r.disjoint t = true ↔ ∀ a, ¬ (r.has a = true ∧ t.has a = true)) ∧
  ∀ (s : State) (x : BitVec 31),
    ((∃ r, exec (.encStart x) s = .refused r) ↔ encBusy s = false ∧ s.bufs.pin.disjoint s.bufs.bout = false) ∧
    ((∃ r, exec (.decStart x) s = .refused r) ↔ decBusy s = false ∧ s.bufs.bin.disjoint s.bufs.pout = false) ∧
    (∀ r, exec (.encStart x) s = .refused r ∨ exec (.decStart x) s = .refused r → r = .buffersOverlap)

/-! ### The decoder's steps -/

/-- A stream shorter than a header raises `IncompleteImageError` before any byte is read; one of 14 to 21 bytes whose header
is valid raises it in its first LOOP step (R74). The whole of `POUT` then holds any value (R131; the form is log 11). -/
def Obligations.ShortStreamIsIncomplete : Prop :=
  ∀ s : State, s.dec.phase = .header →
    (s.dec.len < 14 → ∃ t, decTurn s = .next t ∧ PoutFreed s t ∧
      t = { s with dec := { s.dec with phase := .error, err := some .incompleteImage }, mem := t.mem }) ∧
    (14 ≤ s.dec.len → s.dec.len < 22 → ∀ t, decTurn s = .next t → t.dec.phase = .loop →
      ∃ u, decTurn t = .next u ∧ u.dec.phase = .error ∧ u.dec.err = some .incompleteImage)

/-- The HEADER step reads the four fields and reports the first failing check in the order signature, dimension, channel,
colorspace; no byte beyond the header is looked at and no other register changes (R72, R73). After the error the whole of
`POUT` holds any value and every other byte is as before (R131; the form is log 11). -/
def Obligations.HeaderReportsFirstFailingCheck : Prop :=
  ∀ (s : State) (hdr : List Byte), s.dec.phase = .header → 14 ≤ s.dec.len → hdr.length = 14 →
    GetsBytes s .bin 0 hdr →
    let w := wordAt hdr 4
    let h := wordAt hdr 8
    let ch := hdr.getD 12 0#8
    let cs := hdr.getD 13 0#8
    let fails (e : Err) : Prop := ∃ t, decTurn s = .next t ∧ PoutFreed s t ∧ t = { s with
      dec := { s.dec with
        w := BitVec.ofNat 32 w, h := BitVec.ofNat 32 h, ch := ch, cs := cs, phase := .error, err := some e },
      mem := t.mem }
    if hdr.take 4 ≠ s.cfg.magic.toList then fails .signature
    else if ¬ (1 ≤ w ∧ 1 ≤ h ∧ w * h < s.cfg.pixelsMax) then fails .dimension
    else if ¬ (ch = 3#8 ∨ ch = 4#8) then fails .channel
    else if ¬ (cs = 0#8 ∨ cs = 1#8) then fails .colorspace
    else ∀ t, decTurn s = .next t → t.dec.phase ≠ .error

/-- A header that passes every check sets the decoder up; no byte is written (R72, R99). -/
def Obligations.ValidHeaderSetsUpDecoder : Prop :=
  ∀ (s : State) (hdr : List Byte), s.dec.phase = .header → 14 ≤ s.dec.len → hdr.length = 14 →
    GetsBytes s .bin 0 hdr → hdr.take 4 = s.cfg.magic.toList → 1 ≤ wordAt hdr 4 → 1 ≤ wordAt hdr 8 →
    wordAt hdr 4 * wordAt hdr 8 < s.cfg.pixelsMax → (hdr.getD 12 0#8 = 3#8 ∨ hdr.getD 12 0#8 = 4#8) →
    (hdr.getD 13 0#8 = 0#8 ∨ hdr.getD 13 0#8 = 1#8) →
    wordAt hdr 4 * wordAt hdr 8 * (hdr.getD 12 0#8).toNat ≤ s.bufs.pout.cap →
    ∃ t, decTurn s = .next t ∧ SameBesideDec s t ∧ t.mem = s.mem ∧ t.decRegs = s.decRegs ∧
      t.dec.w.toNat = wordAt hdr 4 ∧ t.dec.h.toNat = wordAt hdr 8 ∧ t.dec.ch = hdr.getD 12 0#8 ∧
      t.dec.cs = hdr.getD 13 0#8 ∧ t.dec.n = wordAt hdr 4 * wordAt hdr 8 ∧ t.dec.stop = s.dec.len - 8 ∧
      t.dec.ip = 14 ∧ t.dec.k = 0 ∧ t.dec.prev = ⟨0#8, 0#8, 0#8, 255#8⟩ ∧ t.dec.run = 0#6 ∧
      (∀ k, cacheGet t.dec.cache k = ⟨0#8, 0#8, 0#8, 0#8⟩) ∧ t.dec.phase = .loop ∧ t.dec.err = s.dec.err ∧
      t.dec.len = s.dec.len

/-- While replays are owed a LOOP step re-emits the previous pixel, takes one replay off, and touches neither `d.ip`, the
previous pixel nor the cache (R102). -/
def Obligations.ReplayReemitsPreviousPixel : Prop :=
  ∀ s : State, s.dec.phase = .loop → s.dec.run ≠ 0#6 → RoomForPixel s →
    ∃ t, decTurn s = .next t ∧ PixelOut s t s.dec.prev ∧ t.dec.run.toNat = s.dec.run.toNat - 1 ∧ t.dec.ip = s.dec.ip ∧
      t.dec.prev = s.dec.prev ∧ t.dec.cache = s.dec.cache

/-- With no replay owed and no chunk left the LOOP step raises `IncompleteImageError`: phase ERROR, code 7, result registers
and everything else as before; the whole of `POUT` then holds any value (R113, R131). That each known byte there becomes the
free value at its address, of which nothing can be proved, is the model's form of "any value": log 11, DESIGN CHOICE. -/
def Obligations.MissingChunkIsIncomplete : Prop :=
  ∀ s : State, s.dec.phase = .loop → s.dec.run = 0#6 → s.dec.stop ≤ s.dec.ip →
    ∃ t, decTurn s = .next t ∧ t = { s with
        dec := { s.dec with phase := .error, err := some .incompleteImage }, mem := t.mem } ∧
      decStatus t = 0x73#32 ∧ PoutFreed s t

/-- A LOOP step produces exactly one pixel or raises `IncompleteImageError` (R101). -/
def Obligations.LoopStepProducesOnePixelOrFails : Prop :=
  ∀ s t : State, s.dec.phase = .loop → decTurn s = .next t →
    (t.dec.k = s.dec.k + 1 ∧ PixelOut s t t.dec.prev ∧
      (t.dec.phase = .done ↔ s.dec.k + 1 = s.dec.n)) ∨
    (s.dec.run = 0#6 ∧ s.dec.stop ≤ s.dec.ip ∧ t.dec.k = s.dec.k ∧ t.dec.phase = .error ∧
      t.dec.err = some .incompleteImage)

/-- The decoder's step depends on its registers, the parameters and the bytes of `BIN` below `d.L` only (R114, R116): two
states that agree on these and on the output capacity, the second with an output it may write (R49), step alike, and write the
same pixel. -/
def Obligations.DecoderDependsOnlyOnStream : Prop :=
  ∀ s u t : State, Sound s → s.dec = u.dec → s.decRegs = u.decRegs → s.cfg = u.cfg →
    s.bufs.pout.cap = u.bufs.pout.cap → PoutClear u →
    (∀ off, off < s.dec.len → inputByte s .bin off = inputByte u .bin off) →
    decTurn s = .next t →
    ∃ v, decTurn u = .next v ∧ v.dec = t.dec ∧ v.decRegs = t.decRegs ∧
      (s.dec.phase = .loop → t.dec.k = s.dec.k + 1 →
        HoldsPixel t .pout (s.dec.k * s.dec.ch.toNat) s.dec.ch t.dec.prev ∧
        HoldsPixel v .pout (s.dec.k * s.dec.ch.toNat) s.dec.ch t.dec.prev)

/-! ### The encoder's steps -/

/-- VALIDATE reports the first failing check in the order dimension, channel, colorspace, buffer length, with the product
exact; nothing is written and no working register but the phase and the error changes (R83, R130, R131). -/
def Obligations.ValidateReportsFirstFailingCheck : Prop :=
  ∀ s : State, s.enc.phase = .validate →
    let fail (e : Err) : State := { s with enc := { s.enc with phase := .error, err := some e } }
    if ¬ (1 ≤ s.enc.w.toNat ∧ 1 ≤ s.enc.h.toNat ∧ s.enc.w.toNat * s.enc.h.toNat < s.cfg.pixelsMax) then
      encTurn s = .next (fail .dimension)
    else if ¬ (s.enc.ch = 3#8 ∨ s.enc.ch = 4#8) then encTurn s = .next (fail .channel)
    else if ¬ (s.enc.cs = 0#8 ∨ s.enc.cs = 1#8) then encTurn s = .next (fail .colorspace)
    else if s.enc.plen ≠ s.enc.w.toNat * s.enc.h.toNat * s.enc.ch.toNat then encTurn s = .next (fail .bufferLength)
    else ∀ e, encTurn s ≠ .next (fail e)

/-- When every check passes VALIDATE sets the encoder up and writes the 14 header bytes and no other (R71, R83). -/
def Obligations.ValidateWritesHeader : Prop :=
  ∀ s : State, s.enc.phase = .validate → 1 ≤ s.enc.w.toNat → 1 ≤ s.enc.h.toNat →
    s.enc.w.toNat * s.enc.h.toNat < s.cfg.pixelsMax → (s.enc.ch = 3#8 ∨ s.enc.ch = 4#8) →
    (s.enc.cs = 0#8 ∨ s.enc.cs = 1#8) → s.enc.plen = s.enc.w.toNat * s.enc.h.toNat * s.enc.ch.toNat →
    22 + s.enc.w.toNat * s.enc.h.toNat * (s.enc.ch.toNat + 1) ≤ s.bufs.bout.cap → FreeAt s .bout 0 14 →
    ∃ t, encTurn s = .next t ∧ SameBesideEnc s t ∧ t.encRegs = s.encRegs ∧
      t.enc = { s.enc with
        n := s.enc.w.toNat * s.enc.h.toNat, i := 0, op := 14, prev := ⟨0#8, 0#8, 0#8, 255#8⟩, run := 0#6,
        cache := t.enc.cache, phase := .loop } ∧
      (∀ k, cacheGet t.enc.cache k = ⟨0#8, 0#8, 0#8, 0#8⟩) ∧
      HoldsBytes t .bout 0 [s.cfg.magic[0], s.cfg.magic[1], s.cfg.magic[2], s.cfg.magic[3],
        BitVec.ofNat 8 (s.enc.w.toNat / 16777216), BitVec.ofNat 8 (s.enc.w.toNat / 65536),
        BitVec.ofNat 8 (s.enc.w.toNat / 256), BitVec.ofNat 8 s.enc.w.toNat,
        BitVec.ofNat 8 (s.enc.h.toNat / 16777216), BitVec.ofNat 8 (s.enc.h.toNat / 65536),
        BitVec.ofNat 8 (s.enc.h.toNat / 256), BitVec.ofNat 8 s.enc.h.toNat, s.enc.ch, s.enc.cs] ∧
      OnlyWrote s t .bout 0 14

/-- Once its checks have passed, an operation whose output buffer is below the capacity of R42 is refused. The moment of the
refusal is the model's choice (log 12). -/
def Obligations.TooSmallOutputIsRefused : Prop :=
  (∀ s : State, s.enc.phase = .validate → encError s = none →
    (encTurn s = .refused (.outputTooSmall .bout) ↔
      s.bufs.bout.cap < 22 + s.enc.w.toNat * s.enc.h.toNat * (s.enc.ch.toNat + 1))) ∧
  ∀ (s : State) (hdr : List Byte), s.dec.phase = .header → 14 ≤ s.dec.len → hdr.length = 14 → GetsBytes s .bin 0 hdr →
    headerError s.cfg (parseHeader hdr) = none →
    (decTurn s = .refused (.outputTooSmall .pout) ↔
      s.bufs.pout.cap < wordAt hdr 4 * wordAt hdr 8 * (hdr.getD 12 0#8).toNat)

/-- PIXEL FETCH reads the pixel's bytes at `i * ch` of `PIN`; with 3 channels alpha is 255 and no fourth byte is read
(R84). -/
def Obligations.FetchReadsPixelBytes : Prop :=
  ∀ (s : State) (i : Nat) (px : Pixel), (s.enc.ch = 3#8 ∨ s.enc.ch = 4#8) →
    GetsPixel s .pin (i * s.enc.ch.toNat) s.enc.ch px → (s.enc.ch = 3#8 → px.a = 255#8) →
    fetchPixel i s = .next px

/-- A pixel equal to the previous one extends the run: nothing is emitted, unless the run reaches 62 or the pixel is the
last, when one RUN byte `0xC0 + (run - 1)` goes out and the counter is 0 again. Neither cache nor previous pixel changes
(R86, R87). -/
def Obligations.RepeatedPixelExtendsRun : Prop :=
  ∀ s : State, s.enc.phase = .loop → s.enc.run.toNat ≤ 61 → fetchPixel s.enc.i s = .next s.enc.prev →
    (s.enc.run.toNat + 1 ≠ 62 → s.enc.i + 1 ≠ s.enc.n →
      encTurn s = .next { s with enc := { s.enc with run := s.enc.run + 1#6, i := s.enc.i + 1 } } ∧
      (s.enc.run + 1#6).toNat = s.enc.run.toNat + 1) ∧
    ((s.enc.run.toNat + 1 = 62 ∨ s.enc.i + 1 = s.enc.n) → s.enc.op < s.bufs.bout.cap → FreeAt s .bout s.enc.op 1 →
      ∃ t, encTurn s = .next t ∧ SameBesideEnc s t ∧ t.encRegs = s.encRegs ∧
        t.enc = { s.enc with
          run := 0#6, op := s.enc.op + 1, i := s.enc.i + 1,
          phase := if s.enc.i + 1 = s.enc.n then .tail else .loop } ∧
        HoldsBytes t .bout s.enc.op [BitVec.ofNat 8 (0xC0 + s.enc.run.toNat)] ∧ OnlyWrote s t .bout s.enc.op 1)

/-- A pixel that differs: the pending RUN byte first, then the slot byte on a cache hit, or else the classified chunk with
the cache slot overwritten; then it is the previous pixel (R77, R78, R88, R89). -/
def Obligations.DifferingPixelEmitsItsChunk : Prop :=
  ∀ (s : State) (px : Pixel), s.enc.phase = .loop → fetchPixel s.enc.i s = .next px → px ≠ s.enc.prev →
    let pending : List Byte := if s.enc.run.toNat = 0 then [] else [BitVec.ofNat 8 (0xC0 + (s.enc.run.toNat - 1))]
    let hit : Prop := cacheGet s.enc.cache (hash px) = px
    ∀ own : List Byte, (hit → own = [BitVec.ofNat 8 (hash px).toNat]) →
      (¬ hit → own = chunkBytes (classify px s.enc.prev)) →
      s.enc.op + (pending ++ own).length ≤ s.bufs.bout.cap → FreeAt s .bout s.enc.op (pending ++ own).length →
      ∃ t, encTurn s = .next t ∧ SameBesideEnc s t ∧ t.encRegs = s.encRegs ∧
        t.enc = { s.enc with
          run := 0#6, op := s.enc.op + (pending ++ own).length, prev := px, i := s.enc.i + 1, cache := t.enc.cache,
          phase := if s.enc.i + 1 = s.enc.n then .tail else .loop } ∧
        HoldsBytes t .bout s.enc.op (pending ++ own) ∧ OnlyWrote s t .bout s.enc.op (pending ++ own).length ∧
        (hit → t.enc.cache = s.enc.cache) ∧
        (¬ hit → ∀ k, cacheGet t.enc.cache k = if k = hash px then px else cacheGet s.enc.cache k)

/-- The classifier: RGBA when alpha differs, else DIFF, else LUMA, else RGB, by the ranges of the wrapped deltas, with the
bytes of each; and a differing pixel is never the zero DIFF `0x6A` (R90 to R94). -/
def Obligations.ClassifierPrefersDiffThenLuma : Prop :=
  ∀ (px p : Pixel) (dr dg db : Int), IsWrapDelta dr px.r p.r → IsWrapDelta dg px.g p.g → IsWrapDelta db px.b p.b →
    let isDiff : Prop := (-2 ≤ dr ∧ dr ≤ 1) ∧ (-2 ≤ dg ∧ dg ≤ 1) ∧ (-2 ≤ db ∧ db ≤ 1)
    let isLuma : Prop := (-32 ≤ dg ∧ dg ≤ 31) ∧ (-8 ≤ dr - dg ∧ dr - dg ≤ 7) ∧ (-8 ≤ db - dg ∧ db - dg ≤ 7)
    (px.a ≠ p.a → chunkBytes (classify px p) = [0xFF#8, px.r, px.g, px.b, px.a]) ∧
    (px.a = p.a → isDiff → ∃ b0 : Byte, chunkBytes (classify px p) = [b0] ∧
      (b0.toNat : Int) = 0x40 + (dr + 2) * 16 + (dg + 2) * 4 + (db + 2) ∧ (px ≠ p → b0 ≠ 0x6A#8)) ∧
    (px.a = p.a → ¬ isDiff → isLuma → ∃ b0 b1 : Byte, chunkBytes (classify px p) = [b0, b1] ∧
      (b0.toNat : Int) = 0x80 + (dg + 32) ∧ (b1.toNat : Int) = (dr - dg + 8) * 16 + (db - dg + 8)) ∧
    (px.a = p.a → ¬ isDiff → ¬ isLuma → chunkBytes (classify px p) = [0xFE#8, px.r, px.g, px.b])

/-- TAIL writes the pending RUN byte, if there is one, and the end marker, reports the length and is DONE (R95). -/
def Obligations.TailWritesEndMarker : Prop :=
  ∀ s : State, s.enc.phase = .tail →
    let bytes : List Byte :=
      (if s.enc.run.toNat = 0 then [] else [BitVec.ofNat 8 (0xC0 + (s.enc.run.toNat - 1))]) ++
        [0#8, 0#8, 0#8, 0#8, 0#8, 0#8, 0#8, 1#8]
    s.enc.op + bytes.length ≤ s.bufs.bout.cap → FreeAt s .bout s.enc.op bytes.length →
    ∃ t, encTurn s = .next t ∧ SameBesideEnc s t ∧
      t.enc = { s.enc with run := 0#6, op := s.enc.op + bytes.length, phase := .done, err := none } ∧
      t.encRegs = { s.encRegs with outLen := s.enc.op + bytes.length } ∧
      HoldsBytes t .bout s.enc.op bytes ∧ OnlyWrote s t .bout s.enc.op bytes.length

/-- In a sound state an encoder LOOP step cannot fail once its pixel is placed and `BOUT` is the encoder's to write (R49), and
handles exactly one pixel (R85). -/
def Obligations.EncoderLoopStepCompletes : Prop :=
  ∀ (s : State) (px : Pixel), Sound s → BoutClear s → s.enc.phase = .loop →
    GetsPixel s .pin (s.enc.i * s.enc.ch.toNat) s.enc.ch px →
    ∃ t, encTurn s = .next t ∧ t.enc.i = s.enc.i + 1 ∧
      t.enc.phase = if s.enc.i + 1 = s.enc.n then .tail else .loop

/-- The encoder's step depends on its registers, the parameters and the `N * ch` bytes of `PIN` only (R97): two states that
agree on these and on the output capacity, the second with an output it may write (R49), step alike. Both store the same bytes at the same offsets of `BOUT` and no
other byte: VALIDATE from offset 0 (R71), LOOP and TAIL from `e.op` (R11), up to the new `e.op`; a step that raises an error
stores none. -/
def Obligations.EncoderDependsOnlyOnInput : Prop :=
  ∀ s u t : State, Sound s → s.enc = u.enc → s.encRegs = u.encRegs → s.cfg = u.cfg →
    s.bufs.bout.cap = u.bufs.bout.cap → BoutClear u →
    (∀ off, off < s.enc.plen → inputByte s .pin off = inputByte u .pin off) →
    encTurn s = .next t →
    let start := if s.enc.phase = .validate then 0 else s.enc.op
    let count := if t.enc.phase = .error then 0 else t.enc.op - start
    ∃ v, encTurn u = .next v ∧ v.enc = t.enc ∧ v.encRegs = t.encRegs ∧
      OnlyWrote s t .bout start count ∧ OnlyWrote u v .bout start count ∧
      ∃ bs : List Byte, bs.length = count ∧ HoldsBytes t .bout start bs ∧ HoldsBytes v .bout start bs

/-! ### Encoder and decoder together -/

/-- Each chunk the classifier chooses is inverted by the decoder: from the same previous pixel it yields the pixel (R115). -/
def Obligations.ClassifiedChunkYieldsThePixel : Prop :=
  ∀ (s : State) (px : Pixel), RoomForPixel s →
    ∃ t, exec (classify px s.dec.prev) s = .next t ∧ t.dec.prev = px

/-- The caches stay as R81 relates them, and every chunk yields the encoder's pixel: for the chunk of a differing pixel, and
for the RUN chunk of repeated ones. -/
def Obligations.CachesStayInStep : Prop :=
  ∀ (s : State) (ce : PixelCache) (px : Pixel), RoomForPixel s → CachesAgree ce s.dec.cache →
    PrevCached ce s.dec.prev →
    (px ≠ s.dec.prev → ∃ t, exec (pixelChunk px s.dec.prev ce) s = .next t ∧ t.dec.prev = px ∧
      CachesAgree (encCache px ce) t.dec.cache ∧ PrevCached (encCache px ce) px) ∧
    (∀ l, ∃ t, exec (.run l) s = .next t ∧ t.dec.prev = s.dec.prev ∧ CachesAgree ce t.dec.cache)

/-- Round trip (R115): an image of any pixels and any legal header fields that `ENC` encodes into `BOUT`, in a START and `N + 2`
of its steps, is decoded by `DEC`, given that stream as `BIN`, in a START and `N + 1` of its steps, to the same pixel bytes
and the same width, height, channels and colorspace. -/
def Obligations.DecodingAnEncodingGivesTheImage : Prop :=
  ∀ s : State, Sound s → encBusy s = false → decBusy s = false →
    fieldError s.encRegs.width s.encRegs.height s.encRegs.channels s.encRegs.colorspace s.cfg.pixelsMax = none →
    s.encRegs.inLen = s.encRegs.width.toNat * s.encRegs.height.toNat * s.encRegs.channels.toNat →
    (∀ off, off < s.encRegs.inLen → ∃ v, bufByte s .pin off = some v) →
    encCapacity s.encRegs.width s.encRegs.height s.encRegs.channels ≤ s.bufs.bout.cap →
    s.encRegs.inLen ≤ s.bufs.pout.cap → s.bufs.pin.disjoint s.bufs.bout = true → s.bufs.bin = s.bufs.bout →
    s.bufs.bin.disjoint s.bufs.pout = true →
    let pixels := s.encRegs.width.toNat * s.encRegs.height.toNat
    ∃ t u : State,
      core.run (pixels + 3) { s with
        script := .host (.write (.encCtrl 1#32)) :: List.replicate (pixels + 2) .enc } = .next t ∧
      t.enc.phase = .done ∧
      core.run (pixels + 3) { t with
        script := .host (.write (.decInLen t.encRegs.outLen)) :: .host (.write (.decCtrl 1#32)) ::
          List.replicate (pixels + 1) .dec } = .next u ∧
      u.dec.phase = .done ∧ u.decRegs.width = s.encRegs.width ∧ u.decRegs.height = s.encRegs.height ∧
      u.decRegs.channels = s.encRegs.channels ∧ u.decRegs.colorspace = s.encRegs.colorspace ∧
      u.decRegs.outLen = s.encRegs.inLen ∧
      ∀ off, off < s.encRegs.inLen → bufByte u .pout off = bufByte s .pin off

/-! ### The whole machine -/

/-- Reset leaves a sound state, for every legal choice of the parameters (R6, R34; that no two registers share an address is
log 8). -/
def Obligations.ResetStateIsSound : Prop :=
  (∀ p : Config.Params, p.ok = true → Sound (State.resetWith p)) ∧ Sound State.reset

/-- What reset leaves of the interface: both engines IDLE, both STATUS words and every operand and result register 0 (R34,
R141). A byte an abandoned operation had already written holds any value: the free value at its address (log 11). -/
def Obligations.ResetClearsTheInterface : Prop :=
  ∀ s : State, ∃ t, hostTurn .hardReset s = .next t ∧
    (∀ u : State, (u = t ∨ u = State.reset) → u.enc.phase = .idle ∧ u.dec.phase = .idle ∧ ∀ r, readReg r u = 0) ∧
    t.cfg = s.cfg ∧ t.bufs = s.bufs ∧
    (let written (a : Nat) : Prop :=
        (s.enc.phase = .loop ∨ s.enc.phase = .tail) ∧ s.bufs.bout.has a = true ∧ a < bufAddr s .bout s.enc.op ∨
        s.dec.phase = .loop ∧ s.bufs.pout.has a = true ∧ a < bufAddr s .pout (s.dec.k * s.dec.ch.toNat)
     ∀ a, (written a → t.mem.read a = (s.mem.read a).map fun _ => Config.leftByte s.freeCount a) ∧
      (¬ written a → t.mem.read a = s.mem.read a))

/-- Every step of every agent keeps a sound state sound (R19, R21, R23, R29, R42, R49, R82, R96, R101). -/
def Obligations.EveryStepKeepsSound : Prop :=
  ∀ s t : State, Sound s → step s = .next t → Sound t

/-- No step from a sound state faults: no engine store leaves its buffer (R96, R111). -/
def Obligations.NoSoundStepFaults : Prop := ∀ s : State, Sound s → ¬ Faults (step s)

/-- No step changes the parameters, the addresses of the registers among them (R5). -/
def Obligations.ParametersNeverChange : Prop := ∀ s t : State, step s = .next t → t.cfg = s.cfg

/-- The length reported at DONE is at least 23 and at most `22 + N*(ch+1)` (R96). -/
def Obligations.OutputLengthIsBounded : Prop :=
  ∀ s t : State, Sound s → step s = .next t → t.enc.phase = .done →
    23 ≤ t.encRegs.outLen ∧ t.encRegs.outLen ≤ 22 + t.enc.n * (t.enc.ch.toNat + 1)

/-- No length, position or pixel-count register of an operation whose checks have passed outgrows `LEN_W` bits (R6, D15):
`e.plen`, `e.N`, `e.i`, `e.op`, `ENC_OUT_LEN`; `d.N`, `d.k`, `DEC_OUT_LEN`; and, when the stream length `d.L` that the host wrote
fits, `d.END` and `d.ip`, which never pass it. What the host writes to a length register is unbounded in the model
(log 7). -/
def Obligations.LengthRegistersFit : Prop :=
  ∀ s : State, Sound s →
    (s.enc.phase = .loop ∨ s.enc.phase = .tail ∨ s.enc.phase = .done →
      s.enc.plen < 2 ^ s.cfg.lenW ∧ s.enc.n < 2 ^ s.cfg.lenW ∧ s.enc.i ≤ s.enc.n ∧ s.enc.op < 2 ^ s.cfg.lenW ∧
        s.encRegs.outLen < 2 ^ s.cfg.lenW) ∧
    (s.dec.phase = .loop ∨ s.dec.phase = .done →
      s.dec.n < 2 ^ s.cfg.lenW ∧ s.dec.k ≤ s.dec.n ∧ s.decRegs.outLen < 2 ^ s.cfg.lenW ∧
        s.dec.stop ≤ s.dec.len ∧ s.dec.ip ≤ s.dec.len)

/-- The phases move only along the arrows of R25, each under its condition; a hardware reset sets both to IDLE. An arrow
out of a phase that has one is taken: by a START when the engine is not busy, by the engine's own step out of VALIDATE, TAIL
and HEADER, and out of the decoder's LOOP when no chunk is left. -/
def Obligations.PhasesMoveOnlyAsListed : Prop :=
  ∀ s t : State, Sound s → step s = .next t →
    (∀ rest, s.script = .host .hardReset :: rest → t.enc.phase = .idle ∧ t.dec.phase = .idle) ∧
    ((∀ rest, s.script ≠ .host .hardReset :: rest) →
      (t.enc.phase = s.enc.phase ∨
        (encBusy s = false ∧ t.enc.phase = .validate ∧ EncStartNext s) ∨
        (s.enc.phase = .validate ∧ t.enc.phase = .error ∧ encError s ≠ none ∧ t.enc.err = encError s) ∨
        (s.enc.phase = .validate ∧ t.enc.phase = .loop ∧ encError s = none) ∨
        (s.enc.phase = .loop ∧ t.enc.phase = .tail ∧ t.enc.i = t.enc.n) ∨
        (s.enc.phase = .tail ∧ t.enc.phase = .done)) ∧
      (s.enc.phase = .loop → t.enc.phase = .loop → t.enc.i < t.enc.n) ∧
      (encBusy s = false → EncStartNext s → t.enc.phase = .validate) ∧
      (s.script.head? = some .enc → s.enc.phase = .validate ∨ s.enc.phase = .tail → t.enc.phase ≠ s.enc.phase) ∧
      (t.dec.phase = s.dec.phase ∨
        (decBusy s = false ∧ t.dec.phase = .header ∧ DecStartNext s) ∨
        (s.dec.phase = .header ∧ t.dec.phase = .error ∧
          (s.dec.len < 14 ∨ ∃ hdr : List Byte, hdr.length = 14 ∧ GetsBytes s .bin 0 hdr ∧ ¬ HeaderPasses s.cfg hdr)) ∨
        (s.dec.phase = .header ∧ t.dec.phase = .loop ∧ 14 ≤ s.dec.len ∧
          ∃ hdr : List Byte, hdr.length = 14 ∧ GetsBytes s .bin 0 hdr ∧ HeaderPasses s.cfg hdr) ∨
        (s.dec.phase = .loop ∧ t.dec.phase = .done ∧ t.dec.k = t.dec.n) ∨
        (s.dec.phase = .loop ∧ t.dec.phase = .error ∧ t.dec.err = some .incompleteImage ∧ s.dec.run = 0#6 ∧
          s.dec.stop ≤ s.dec.ip)) ∧
      (s.dec.phase = .loop → t.dec.phase = .loop → t.dec.k < t.dec.n) ∧
      (decBusy s = false → DecStartNext s → t.dec.phase = .header) ∧
      (s.script.head? = some .dec → s.dec.phase = .header → t.dec.phase ≠ .header) ∧
      (s.script.head? = some .dec → s.dec.phase = .loop → s.dec.run = 0#6 → s.dec.stop ≤ s.dec.ip →
        t.dec.phase = .error))

/-- An engine that is not busy takes no step: its turn changes nothing but the script, and with no turn left and no engine
busy nothing happens (R26, R140; DONE and ERROR persist, R121). An engine's step touches nothing of the other engine, no operand
register, no byte outside its own output buffer and no byte inside a buffer of the other engine while that one is busy (R17,
R24, R35, R49, R50); only a decoder error, after which the whole of `POUT` holds any value (R131), spares none of `POUT`. -/
def Obligations.EngineStepsKeepApart : Prop :=
  ∀ s : State,
    (encBusy s = false → encTurn s = .next s ∧
      ∀ rest, s.script = .enc :: rest → step s = .next { s with script := rest }) ∧
    (decBusy s = false → decTurn s = .next s ∧
      ∀ rest, s.script = .dec :: rest → step s = .next { s with script := rest }) ∧
    (encBusy s = false → decBusy s = false → s.script = [] → step s = .next s) ∧
    (∀ t, encTurn s = .next t → SameBesideEnc s t ∧ t.encRegs = { s.encRegs with outLen := t.encRegs.outLen } ∧
      ∀ a, (s.bufs.bout.has a = false ∨ decBusy s = true ∧ (s.bufs.bin.has a = true ∨ s.bufs.pout.has a = true)) →
        t.mem.read a = s.mem.read a) ∧
    (∀ t, decTurn s = .next t → SameBesideDec s t ∧ t.decRegs.inLen = s.decRegs.inLen ∧
      ∀ a, (s.bufs.pout.has a = false ∨ (decBusy s = false ∨ t.dec.phase ≠ .error) ∧ encBusy s = true ∧
          (s.bufs.pin.has a = true ∨ s.bufs.bout.has a = true)) →
        t.mem.read a = s.mem.read a)

/-- The order of an encoder and a decoder step does not matter (R138): both run one way, to a state, exactly when they run the
other way, to that same state. The buffers do not overlap (R46 part 4: accesses "to different, non-overlapping buffers never
interact"); when both engines are busy that is a premise, because a store into the other's buffers is refused only while the
other is busy (R49), so a step that ends an operation can be what allows it. -/
def Obligations.EngineStepsCommute : Prop :=
  ∀ s b : State, Sound s → (encBusy s = true → decBusy s = true → BoutClear s ∧ PoutClear s) →
    ((∃ a, encTurn s = .next a ∧ decTurn a = .next b) ↔ ∃ c, decTurn s = .next c ∧ encTurn c = .next b)

/-- A write to a replayed pixel's slot would change nothing, so R82's choice cannot be observed. -/
def Obligations.ReplayCacheWriteChangesNothing : Prop :=
  ∀ s : State, Sound s → s.dec.phase = .loop → s.dec.run ≠ 0#6 → commit s.dec.prev s = s

/-- An encode ends (R121), the encoder taking the steps of an empty script (log 9): a failing check in one step, an image whose bytes are placed in exactly `N + 2` steps. -/
def Obligations.EncodeFinishes : Prop :=
  ∀ s : State, Sound s → s.script = [] → decBusy s = false → s.enc.phase = .validate →
    (encError s ≠ none → ∃ t, core.run 1 s = .next t ∧ t.enc.phase = .error) ∧
    (encError s = none → encCapacity s.enc.w s.enc.h s.enc.ch ≤ s.bufs.bout.cap →
      (∀ off, off < s.enc.plen → ∃ v, bufByte s .pin off = some v) →
      ∃ t, core.run (s.enc.w.toNat * s.enc.h.toNat + 2) s = .next t ∧ t.enc.phase = .done)

/-- A decode of a placed stream, with room for the image its header declares in a `POUT` it may write (R49), ends in DONE or
ERROR in at most `N + 1` steps (R121), the decoder taking the steps of an empty script (log 9). -/
def Obligations.DecodeFinishes : Prop :=
  ∀ (s : State) (stream : List Byte), Sound s → s.script = [] → s.dec.phase = .header →
    stream.length = s.dec.len → GetsBytes s .bin 0 stream →
    wordAt stream 4 * wordAt stream 8 * (stream.getD 12 0#8).toNat ≤ s.bufs.pout.cap → PoutClear s →
    ∃ (k : Nat) (t : State), core.run k s = .next t ∧ (t.dec.phase = .done ∨ t.dec.phase = .error) ∧
      (k ≤ 1 ∨ k ≤ wordAt stream 4 * wordAt stream 8 + 1)

/-! ### The host's side -/

/-- STATUS shows STATE by the phase, ERR by the recorded error in ERROR and 0 elsewhere, and no other bit; codes 1 and 8 to
15 never appear (R29, R127, R128). -/
def Obligations.StatusShowsPhaseAndError : Prop :=
  ∀ s : State, Sound s →
    (∃ st er : Nat, (encStatus s).toNat = st + er * 16 ∧
      (s.enc.phase = .idle → st = 0) ∧ (s.enc.phase = .validate ∨ s.enc.phase = .loop ∨ s.enc.phase = .tail → st = 1) ∧
      (s.enc.phase = .done → st = 2) ∧ (s.enc.phase = .error → st = 3) ∧ (st ≠ 3 → er = 0) ∧
      (st = 3 → er = 2 ∨ er = 4 ∨ er = 5 ∨ er = 6) ∧
      (s.enc.err = some .bufferLength → er = 2) ∧ (s.enc.err = some .dimension → er = 4) ∧
      (s.enc.err = some .channel → er = 5) ∧ (s.enc.err = some .colorspace → er = 6)) ∧
    (∃ st er : Nat, (decStatus s).toNat = st + er * 16 ∧
      (s.dec.phase = .idle → st = 0) ∧ (s.dec.phase = .header ∨ s.dec.phase = .loop → st = 1) ∧
      (s.dec.phase = .done → st = 2) ∧ (s.dec.phase = .error → st = 3) ∧ (st ≠ 3 → er = 0) ∧
      (st = 3 → er = 3 ∨ er = 4 ∨ er = 5 ∨ er = 6 ∨ er = 7) ∧
      (s.dec.err = some .signature → er = 3) ∧ (s.dec.err = some .dimension → er = 4) ∧
      (s.dec.err = some .channel → er = 5) ∧ (s.dec.err = some .colorspace → er = 6) ∧
      (s.dec.err = some .incompleteImage → er = 7)) ∧
    hostTurn (.read .encStatus) s = .next { s with rdata := (encStatus s).toNat } ∧
    hostTurn (.read .decStatus) s = .next { s with rdata := (decStatus s).toNat }

/-- Register writes: a read-only register and CTRL with bit 0 = 0 ignore them, the reserved bits of CTRL do not matter, an
operand register takes the value and nothing else changes, busy or not; CTRL reads 0 (R30). -/
def Obligations.RegisterWriteEffects : Prop :=
  ∀ (s : State) (v w : Word) (c : Byte) (n : Nat),
    (∀ x ∈ [RegWrite.encStatus v, .encOutLen n, .decStatus v, .decWidth v, .decHeight v, .decChannels c, .decColorspace c,
        .decOutLen n], hostTurn (.write x) s = .next s) ∧
    (v.toNat % 2 = 0 → hostTurn (.write (.encCtrl v)) s = .next s ∧ hostTurn (.write (.decCtrl v)) s = .next s) ∧
    (v.toNat % 2 = 1 → w.toNat % 2 = 1 →
      hostTurn (.write (.encCtrl v)) s = hostTurn (.write (.encCtrl w)) s ∧
      hostTurn (.write (.decCtrl v)) s = hostTurn (.write (.decCtrl w)) s) ∧
    hostTurn (.write (.encWidth v)) s = .next { s with encRegs := { s.encRegs with width := v } } ∧
    hostTurn (.write (.encHeight v)) s = .next { s with encRegs := { s.encRegs with height := v } } ∧
    hostTurn (.write (.encChannels c)) s = .next { s with encRegs := { s.encRegs with channels := c } } ∧
    hostTurn (.write (.encColorspace c)) s = .next { s with encRegs := { s.encRegs with colorspace := c } } ∧
    hostTurn (.write (.encInLen n)) s = .next { s with encRegs := { s.encRegs with inLen := n } } ∧
    hostTurn (.write (.decInLen n)) s = .next { s with decRegs := { s.decRegs with inLen := n } } ∧
    readReg .encCtrl s = 0 ∧ readReg .decCtrl s = 0

/-- What a register read returns (R27, R28): CTRL 0, STATUS its word, every other register its own value, and nothing else
changes. An operand register reads back exactly the value last written (R27, R28). A result register reads what TAIL or DONE
stored, the final length or the header's fields and `N * ch` (R46 part 2, R112, R121). That it reads 0 in every other phase is
the model's choice where R146 (1) calls the value unspecified: log 16, DEDUCED. The host
learns nothing of the working registers or the caches from any register (R33): what it reads is fixed by the interface
registers, the STATE fields and the recorded errors. -/
def Obligations.RegisterReadsHideWorkingState : Prop :=
  (∀ s : State,
      (∀ p ∈ [(Reg.encCtrl, 0), (.encStatus, (encStatus s).toNat), (.encWidth, s.encRegs.width.toNat),
          (.encHeight, s.encRegs.height.toNat), (.encChannels, s.encRegs.channels.toNat),
          (.encColorspace, s.encRegs.colorspace.toNat), (.encInLen, s.encRegs.inLen), (.encOutLen, s.encRegs.outLen),
          (.decCtrl, 0), (.decStatus, (decStatus s).toNat), (.decInLen, s.decRegs.inLen),
          (.decWidth, s.decRegs.width.toNat), (.decHeight, s.decRegs.height.toNat),
          (.decChannels, s.decRegs.channels.toNat), (.decColorspace, s.decRegs.colorspace.toNat),
          (.decOutLen, s.decRegs.outLen)],
        readReg p.1 s = p.2 ∧ hostTurn (.read p.1) s = .next { s with rdata := p.2 }) ∧
      (∀ (v : Word) (c : Byte) (n : Nat),
        ∀ p ∈ [(RegWrite.encWidth v, Reg.encWidth, v.toNat), (.encHeight v, .encHeight, v.toNat),
          (.encChannels c, .encChannels, c.toNat), (.encColorspace c, .encColorspace, c.toNat), (.encInLen n, .encInLen, n),
          (.decInLen n, .decInLen, n)],
        ∃ t, hostTurn (.write p.1) s = .next t ∧ readReg p.2.1 t = p.2.2 ∧
          ∀ r, r ≠ p.2.1 → readReg r t = readReg r s) ∧
      (Sound s →
        (s.enc.phase = .done → readReg .encOutLen s = s.enc.op) ∧
        (s.enc.phase ≠ .done → readReg .encOutLen s = 0) ∧
        (s.dec.phase = .done → readReg .decWidth s = s.dec.w.toNat ∧ readReg .decHeight s = s.dec.h.toNat ∧
          readReg .decChannels s = s.dec.ch.toNat ∧ readReg .decColorspace s = s.dec.cs.toNat ∧
          readReg .decOutLen s = s.dec.w.toNat * s.dec.h.toNat * s.dec.ch.toNat) ∧
        (s.dec.phase ≠ .done → ∀ r ∈ [Reg.decWidth, .decHeight, .decChannels, .decColorspace, .decOutLen], readReg r s = 0))) ∧
  ∀ (s t : State) (r : Reg), s.encRegs = t.encRegs → s.decRegs = t.decRegs →
    s.enc.phase.stateField = t.enc.phase.stateField → s.dec.phase.stateField = t.dec.phase.stateField →
    s.enc.err = t.enc.err → s.dec.err = t.dec.err →
    ∃ v, hostTurn (.read r) s = .next { s with rdata := v } ∧ hostTurn (.read r) t = .next { t with rdata := v }

/-- While an engine is busy, a host store into either of its buffers and a move of one are refused (R49; the refusal's form
is log 13). A host store elsewhere in a buffer puts that byte and changes nothing else; a buffer of an engine that is not
busy takes the place it is given, and nothing else changes. A store beyond a buffer's capacity is refused (log 13). -/
def Obligations.HostKeepsOffBusyBuffers : Prop :=
  ∀ (s : State) (b : Buf) (off : Nat) (v : Byte) (r : Region),
    let a := bufAddr s b off
    let owned : Prop := encBusy s = true ∧ (s.bufs.pin.has a = true ∨ s.bufs.bout.has a = true) ∨
      decBusy s = true ∧ (s.bufs.bin.has a = true ∨ s.bufs.pout.has a = true)
    let busy : Prop := (b = .pin ∨ b = .bout) ∧ encBusy s = true ∨ (b = .bin ∨ b = .pout) ∧ decBusy s = true
    (off < (s.bufs.get b).cap → owned → hostTurn (.storeByte b off v) s = .refused (.hostWroteBusyBuffer b off)) ∧
    (off < (s.bufs.get b).cap → ¬ owned → ∃ t, hostTurn (.storeByte b off v) s = .next t ∧ t = { s with mem := t.mem } ∧
      ∀ k, t.mem.read k = if k = a then some v else s.mem.read k) ∧
    ((s.bufs.get b).cap ≤ off → hostTurn (.storeByte b off v) s = .refused (.hostOutsideBuffer b off)) ∧
    (busy → hostTurn (.place b r) s = .refused (.hostMovedBusyBuffer b)) ∧
    (¬ busy → ∃ t, hostTurn (.place b r) s = .next t ∧ t = { s with bufs := t.bufs } ∧
      ∀ c, t.bufs.get c = if c = b then r else s.bufs.get c)

/-- A host read of an output byte of a busy engine, or of the output buffer of an engine in ERROR, is a free value, whatever
memory holds (R46 part 3, R131); elsewhere a known byte is read as it is. What an engine reads where the other engine's running
operation has written is a free value too, so that no value of a running operation shows in what it makes of it (log 20); every
other input byte it reads as it stands in its buffer, also where the other engine's output buffer lies over it (R46 part 1,
R50). Nothing is proved of the free values. No value of a running operation shows (R139): from two states that differ only in
the running engine's working registers and in what it has written, having written as much, every turn of the host (but for a
reset) and of the other engine does the same and leaves two such states; what the host has read, and every register, is the
same. -/
def Obligations.UnfinishedOutputReadsFree : Prop :=
  (∀ (s : State) (b : Buf) (off : Nat), off < (s.bufs.get b).cap →
    let a := bufAddr s b off
    let encHas : Prop := s.bufs.bout.has a = true ∧ a < bufAddr s .bout s.enc.op
    let decHas : Prop := s.bufs.pout.has a = true ∧ a < bufAddr s .pout (s.dec.k * s.dec.ch.toNat)
    let unfinished : Prop := (encBusy s = true ∧ s.bufs.bout.has a = true) ∨ (decBusy s = true ∧ s.bufs.pout.has a = true) ∨
      (b = .bout ∧ s.enc.phase = .error) ∨ (b = .pout ∧ s.dec.phase = .error)
    (unfinished → hostTurn (.loadByte b off) s =
      .next { s with rdata := (Config.freeByte s.freeCount).toNat, freeCount := s.freeCount + 1 }) ∧
    (¬ unfinished → ∀ v, s.mem.read a = some v → hostTurn (.loadByte b off) s = .next { s with rdata := v.toNat }) ∧
    (b = .pin → s.dec.phase = .loop ∧ decHas → loadByte b off s = .next (Config.encInputByte s.freeCount a)) ∧
    (b = .pin → ¬ (s.dec.phase = .loop ∧ decHas) → ∀ v, s.mem.read a = some v → loadByte b off s = .next v) ∧
    (b = .bin → (s.enc.phase = .loop ∨ s.enc.phase = .tail) ∧ encHas →
      loadByte b off s = .next (Config.decInputByte s.freeCount a)) ∧
    (b = .bin → ¬ ((s.enc.phase = .loop ∨ s.enc.phase = .tail) ∧ encHas) →
      ∀ v, s.mem.read a = some v → loadByte b off s = .next v)) ∧
  ∀ (s u t : State) (turn : Turn) (rest : List Turn), s.script = turn :: rest → turn ≠ .host .hardReset →
    step s = .next t →
    (SameButRunningDec s u → turn ≠ .dec → ∃ v, step u = .next v ∧ SameButRunningDec t v) ∧
    (SameButRunningEnc s u → turn ≠ .enc → ∃ v, step u = .next v ∧ SameButRunningEnc t v)

/-- `REG_MAP` (R5, R27, R28, R137): whatever addresses the platform gives the registers, no two alike, a host access at a
register's address is the access of that register; a write at a read-only one's has no effect, whatever the value (R30). That
an access elsewhere, or of a value wider than the register, is refused is the model's choice (log 8). -/
def Obligations.RegistersAnswerAtTheirAddresses : Prop :=
  ∀ s : State, s.cfg.ok = true →
    let m := s.cfg.regMap
    (∀ (v : Word) (c : Byte) (n : Nat),
      SameTurn s (.writeAt m.encCtrl v.toNat) (.write (.encCtrl v)) ∧
      SameTurn s (.writeAt m.encWidth v.toNat) (.write (.encWidth v)) ∧
      SameTurn s (.writeAt m.encHeight v.toNat) (.write (.encHeight v)) ∧
      SameTurn s (.writeAt m.encChannels c.toNat) (.write (.encChannels c)) ∧
      SameTurn s (.writeAt m.encColorspace c.toNat) (.write (.encColorspace c)) ∧
      SameTurn s (.writeAt m.encInLen n) (.write (.encInLen n)) ∧
      SameTurn s (.writeAt m.decCtrl v.toNat) (.write (.decCtrl v)) ∧
      SameTurn s (.writeAt m.decInLen n) (.write (.decInLen n))) ∧
    (∀ v, ∀ a ∈ [m.encStatus, m.encOutLen, m.decStatus, m.decWidth, m.decHeight, m.decChannels, m.decColorspace,
        m.decOutLen], hostTurn (.writeAt a v) s = .next s) ∧
    (∀ p ∈ [(m.encCtrl, Reg.encCtrl), (m.encStatus, .encStatus), (m.encWidth, .encWidth), (m.encHeight, .encHeight),
        (m.encChannels, .encChannels), (m.encColorspace, .encColorspace), (m.encInLen, .encInLen),
        (m.encOutLen, .encOutLen), (m.decCtrl, .decCtrl), (m.decStatus, .decStatus), (m.decInLen, .decInLen),
        (m.decWidth, .decWidth), (m.decHeight, .decHeight), (m.decChannels, .decChannels),
        (m.decColorspace, .decColorspace), (m.decOutLen, .decOutLen)], SameTurn s (.readAt p.1) (.read p.2)) ∧
    (∀ a v, a ∉ m.addrs → hostTurn (.readAt a) s = .refused (.noRegisterAt a) ∧
      hostTurn (.writeAt a v) s = .refused (.noRegisterAt a)) ∧
    (∀ v, 2 ^ 32 ≤ v → ∀ p ∈ [(m.encCtrl, Reg.encCtrl), (m.encWidth, .encWidth), (m.encHeight, .encHeight),
        (m.decCtrl, .decCtrl)], hostTurn (.writeAt p.1 v) s = .refused (.hostValueTooWide p.2 v)) ∧
    (∀ v, 2 ^ 8 ≤ v → ∀ p ∈ [(m.encChannels, Reg.encChannels), (m.encColorspace, .encColorspace)],
      hostTurn (.writeAt p.1 v) s = .refused (.hostValueTooWide p.2 v))

/-- An engine writes no byte inside a buffer of the other engine while that one is busy (R49), and is refused for nothing less:
the refusal (its form is log 12) names a byte of its own output that lies there; an engine's step that completes has stored
no such byte; and VALIDATE past its checks is refused at the first header byte that lies there. -/
def Obligations.EngineStoresKeepOffBusyBuffers : Prop :=
  ∀ s : State,
    let decHas (a : Nat) : Prop := decBusy s = true ∧ (s.bufs.bin.has a = true ∨ s.bufs.pout.has a = true)
    let encHas (a : Nat) : Prop := encBusy s = true ∧ (s.bufs.pin.has a = true ∨ s.bufs.bout.has a = true)
    (∀ b o, encTurn s = .refused (.engineWroteBusyBuffer b o) →
      b = .bout ∧ o < s.bufs.bout.cap ∧ decHas (bufAddr s .bout o)) ∧
    (∀ b o, decTurn s = .refused (.engineWroteBusyBuffer b o) →
      b = .pout ∧ o < s.bufs.pout.cap ∧ encHas (bufAddr s .pout o)) ∧
    (∀ t, encTurn s = .next t → t.enc.phase ≠ .error →
      ∀ o, (if s.enc.phase = .validate then 0 else s.enc.op) ≤ o → o < t.enc.op → ¬ decHas (bufAddr s .bout o)) ∧
    (∀ t, decTurn s = .next t → t.dec.k = s.dec.k + 1 →
      ∀ o, s.dec.k * s.dec.ch.toNat ≤ o → o < s.dec.k * s.dec.ch.toNat + (if s.dec.ch = 4#8 then 4 else 3) →
        ¬ encHas (bufAddr s .pout o)) ∧
    (s.enc.phase = .validate → encError s = none → encCapacity s.enc.w s.enc.h s.enc.ch ≤ s.bufs.bout.cap →
      ∀ o, o < 14 → decHas (bufAddr s .bout o) → (∀ j, j < o → ¬ decHas (bufAddr s .bout j)) →
        encTurn s = .refused (.engineWroteBusyBuffer .bout o))
end

