-- ==== Sys2Proof/Laws/Encoding.lean ====
section
/-! SUPPORT. The tag byte and the fields of each encoding, read back. -/

namespace Sys2Proof

/-! ### The kind a tag byte selects -/

theorem kindOf_index : ∀ f : BitVec 6, kindOf (tagByte 0#2 f) = .index := by decide

theorem kindOf_diff : ∀ f : BitVec 6, kindOf (tagByte 1#2 f) = .diff := by decide

theorem kindOf_luma : ∀ f : BitVec 6, kindOf (tagByte 2#2 f) = .luma := by decide

theorem kindOf_run : ∀ f : BitVec 6, f.toNat ≤ 61 → kindOf (tagByte 3#2 f) = .run := by decide

theorem kindOf_rgb : kindOf 0xFE#8 = .rgb := rfl

theorem kindOf_rgba : kindOf 0xFF#8 = .rgba := rfl

/-! ### Fields read back -/

theorem tagByte_field : ∀ (t : BitVec 2) (f : BitVec 6), (tagByte t f).extractLsb' 0 6 = f := by decide

theorem diff_fields : ∀ r g b : BitVec 2,
    (tagByte 1#2 ((r ++ g : BitVec 4) ++ b)).extractLsb' 4 2 = r ∧
    (tagByte 1#2 ((r ++ g : BitVec 4) ++ b)).extractLsb' 2 2 = g ∧
    (tagByte 1#2 ((r ++ g : BitVec 4) ++ b)).extractLsb' 0 2 = b := by decide

theorem luma_fields : ∀ r b : BitVec 4, (r ++ b : Byte).extractLsb' 4 4 = r ∧ (r ++ b : Byte).extractLsb' 0 4 = b := by
  decide

theorem ctrl_fields (x : BitVec 31) :
    (x ++ 1#1 : Word).extractLsb' 0 1 = 1#1 ∧ (x ++ 1#1 : Word).extractLsb' 1 31 = x := by
  constructor
  · ext i hi
    have : i = 0 := by omega
    subst this
    rw [BitVec.getElem_extractLsb', ← BitVec.getLsbD_eq_getElem (by omega), BitVec.getLsbD_append]
    rfl
  · ext i hi
    have : ¬ 1 + i < 1 := by omega
    simp only [BitVec.getElem_extractLsb', BitVec.getLsbD_append, this]
    simp [BitVec.getLsbD_eq_getElem hi]

/-- The lowest bit of a control word, as a number (R117, R118). -/
theorem ctrl_start_bit (v : Word) : v.extractLsb' 0 1 = 1#1 ↔ v.toNat % 2 = 1 := by
  rw [← BitVec.toNat_inj]
  simp [BitVec.extractLsb'_toNat]

/-! ### Tag bytes as numbers -/

theorem tagByte_toNat : ∀ (t : BitVec 2) (f : BitVec 6), (tagByte t f).toNat = t.toNat * 64 + f.toNat := by decide

/-- The parts a tag byte is made of. -/
theorem tagByte_parts : ∀ b : Byte, tagByte (b.extractLsb' 6 2) (b.extractLsb' 0 6) = b := by decide

theorem diff_parts : ∀ b : Byte,
    ((b.extractLsb' 4 2 ++ b.extractLsb' 2 2 : BitVec 4) ++ b.extractLsb' 0 2) = b.extractLsb' 0 6 := by decide

theorem luma_parts : ∀ b : Byte, (b.extractLsb' 4 4 ++ b.extractLsb' 0 4 : Byte) = b := by decide

/-- The tag bits of each kind. -/
theorem kindOf_tag : ∀ b : Byte,
    (kindOf b = .index → b.extractLsb' 6 2 = 0#2) ∧ (kindOf b = .diff → b.extractLsb' 6 2 = 1#2) ∧
    (kindOf b = .luma → b.extractLsb' 6 2 = 2#2) ∧
    (kindOf b = .run → b.extractLsb' 6 2 = 3#2 ∧ (b.extractLsb' 0 6).toNat ≤ 61) ∧
    (kindOf b = .rgb → b = 0xFE#8) ∧ (kindOf b = .rgba → b = 0xFF#8) := by decide

/-- The two halves of a control word. -/
theorem ctrl_parts (v : Word) (h : v.extractLsb' 0 1 = 1#1) : (v.extractLsb' 1 31 ++ 1#1 : Word) = v := by
  ext i hi
  rw [BitVec.getElem_append]
  split
  · have : i = 0 := by omega
    subst this
    have := congrArg (fun w : BitVec 1 => w.getLsbD 0) h
    simpa [BitVec.getLsbD_eq_getElem] using this.symm
  · have : 1 + (i - 1) = i := by omega
    simp [BitVec.getLsbD_eq_getElem, this, hi]

end Sys2Proof
end

