-- ==== Sys2Proof/Laws/Memory.lean ====
section
/-! SUPPORT. The laws of the platform memory: reading after writing and forgetting, and the canonical form. -/

namespace Sys2Proof.Machine

theorem Memory.read_write (m : Memory) (a k : Nat) (v : Byte) :
    (m.write a v).read k = if k = a then some v else m.read k := by
  induction m with
  | nil =>
    by_cases hk : k = a
    · simp [Memory.write, Memory.read, hk]
    · simp [Memory.write, Memory.read, hk, Ne.symm hk]
  | cons c m ih =>
    obtain ⟨x, w⟩ := c
    by_cases h1 : a < x
    · by_cases hk : k = a
      · simp [Memory.write, Memory.read, h1, hk]
      · simp [Memory.write, Memory.read, h1, hk, Ne.symm hk]
    · by_cases h2 : a = x
      · subst h2
        by_cases hk : k = a
        · simp [Memory.write, Memory.read, hk]
        · simp [Memory.write, Memory.read, hk, Ne.symm hk]
      · by_cases hk : x = k
        · subst hk
          simp [Memory.write, Memory.read, h1, h2, Ne.symm h2]
        · simp [Memory.write, Memory.read, h1, h2, hk, ih]

theorem Memory.mem_write (m : Memory) (a : Nat) (v : Byte) (c : Host.Cell) (hc : c ∈ m.write a v) :
    c = (a, v) ∨ c ∈ m := by
  induction m with
  | nil => simpa [Memory.write] using hc
  | cons d m ih =>
    obtain ⟨x, w⟩ := d
    simp only [Memory.write] at hc
    split at hc
    · simpa using hc
    · split at hc
      · simp only [List.mem_cons] at hc ⊢
        tauto
      · simp only [List.mem_cons] at hc ⊢
        tauto

/-- A write keeps the canonical form. -/
theorem Memory.wf_write (m : Memory) (a : Nat) (v : Byte) (h : m.wf) : (m.write a v).wf := by
  induction m with
  | nil => simp [Memory.write, Memory.wf]
  | cons c m ih =>
    obtain ⟨x, w⟩ := c
    have hx := List.pairwise_cons.mp h
    simp only [Memory.write]
    split
    · refine List.pairwise_cons.mpr ⟨fun d hd => ?_, h⟩
      rcases List.mem_cons.mp hd with rfl | hd
      · assumption
      · have := hx.1 d hd
        simp at this ⊢
        omega
    · split
      · subst_vars
        exact List.pairwise_cons.mpr ⟨hx.1, hx.2⟩
      · refine List.pairwise_cons.mpr ⟨fun d hd => ?_, ih hx.2⟩
        rcases Memory.mem_write m a v d hd with rfl | hd
        · simp
          omega
        · exact hx.1 d hd

/-- Freeing bytes keeps the canonical form. -/
theorem Memory.wf_freeIf (m : Memory) (p : Nat → Bool) (f : Nat → Byte) (h : m.wf) : (m.freeIf p f).wf :=
  List.pairwise_map.mpr h

/-- A freed byte that was known is the free value at its address. -/
theorem Memory.read_freeIf (m : Memory) (p : Nat → Bool) (f : Nat → Byte) (k : Nat) :
    (m.freeIf p f).read k = if p k = true then (m.read k).map fun _ => f k else m.read k := by
  induction m with
  | nil => simp [Memory.freeIf, Memory.read]
  | cons c m ih =>
    obtain ⟨x, w⟩ := c
    simp only [Memory.freeIf] at ih
    by_cases hx : x = k
    · subst hx; cases hp : p x <;> simp [Memory.freeIf, Memory.read, hp]
    · simp [Memory.freeIf, Memory.read, hx, ih]

/-- Writing a row of bytes keeps the canonical form. -/
theorem Memory.wf_writeAll (vs : List Byte) (m : Memory) (a : Nat) (h : m.wf) : (m.writeAll a vs).wf := by
  induction vs generalizing m a with
  | nil => exact h
  | cons v vs ih => exact ih _ _ (Memory.wf_write m a v h)

theorem Memory.read_writeAll (vs : List Byte) (m : Memory) (a k : Nat) :
    (m.writeAll a vs).read k = if a ≤ k ∧ k < a + vs.length then vs[k - a]? else m.read k := by
  induction vs generalizing m a with
  | nil =>
    have : ¬ (a ≤ k ∧ k < a + 0) := by omega
    simp only [Memory.writeAll, List.length_nil, if_neg this]
  | cons v vs ih =>
    simp only [Memory.writeAll, List.length_cons]
    rw [ih, Memory.read_write]
    by_cases h1 : a + 1 ≤ k ∧ k < a + 1 + vs.length
    · have h2 : a ≤ k ∧ k < a + (vs.length + 1) := by omega
      have h3 : k - a = (k - (a + 1)) + 1 := by omega
      simp [h1, h2, h3]
    · by_cases hk : k = a
      · subst hk; simp
      · have h2 : ¬ (a ≤ k ∧ k < a + (vs.length + 1)) := by omega
        rw [if_neg h1, if_neg h2, if_neg hk]

/-- A canonical memory is determined by what it reads as: equal memories are equal data. -/
theorem Memory.ext_read (m n : Memory) (hm : m.wf) (hn : n.wf) (h : ∀ k, m.read k = n.read k) : m = n := by
  have low : ∀ (m : Memory) (k : Nat), (∀ c ∈ m, k < c.1) → m.read k = none := by
    intro m k hk
    induction m with
    | nil => rfl
    | cons c m ih =>
      obtain ⟨x, w⟩ := c
      have hx : k < x := hk (x, w) (by simp)
      have : x ≠ k := by omega
      simp only [Memory.read, this, if_false]
      exact ih (fun d hd => hk d (by simp [hd]))
  induction m generalizing n with
  | nil =>
    cases n with
    | nil => rfl
    | cons d n => obtain ⟨y, u⟩ := d; simpa [Memory.read] using h y
  | cons c m ih =>
    obtain ⟨x, w⟩ := c
    cases n with
    | nil => simpa [Memory.read] using h x
    | cons d n =>
      obtain ⟨y, u⟩ := d
      have hm' := List.pairwise_cons.mp hm
      have hn' := List.pairwise_cons.mp hn
      rcases Nat.lt_trichotomy x y with hxy | hxy | hxy
      · have h1 : Memory.read ((y, u) :: n) x = none := low _ _ (by
          intro c hc
          rcases List.mem_cons.mp hc with rfl | hc
          · exact hxy
          · exact Nat.lt_trans hxy (hn'.1 c hc))
        have := h x
        rw [h1] at this
        simp [Memory.read] at this
      · subst hxy
        have hw : w = u := by simpa [Memory.read] using h x
        subst hw
        have : m = n := ih n hm'.2 hn'.2 (by
          intro k
          by_cases hk : x = k
          · subst hk
            rw [low m x (fun c hc => hm'.1 c hc), low n x (fun c hc => hn'.1 c hc)]
          · simpa [Memory.read, hk] using h k)
        rw [this]
      · have h1 : Memory.read ((x, w) :: m) y = none := low _ _ (by
          intro c hc
          rcases List.mem_cons.mp hc with rfl | hc
          · exact hxy
          · exact Nat.lt_trans hxy (hm'.1 c hc))
        have := h y
        rw [h1] at this
        simp [Memory.read] at this

/-- Reset's memory has the canonical form. -/
theorem State.reset_mem_wf : State.reset.mem.wf := List.Pairwise.nil

end Sys2Proof.Machine
end

