-- ==== Sys2Proof/Laws/Ops.lean ====
section
/-! SUPPORT. One law for each shared operation: all it can do, and when. -/

namespace Sys2Proof.Machine

/-! ### Sequencing -/

@[simp] theorem andThen_next {α β : Type} (a : α) (f : α → Result β) : andThen (.next a) f = f a := rfl

@[simp] theorem andThen_fault {α β : Type} (r : Fault) (f : α → Result β) :
    andThen (.fault r : Result α) f = .fault r := rfl

@[simp] theorem andThen_refused {α β : Type} (r : Refusal) (f : α → Result β) :
    andThen (.refused r : Result α) f = .refused r := rfl

/-- A sequence completes exactly when both parts do. -/
theorem andThen_eq_next {α β : Type} {x : Result α} {f : α → Result β} {b : β} :
    andThen x f = .next b ↔ ∃ a, x = .next a ∧ f a = .next b := by
  cases x <;> simp [andThen]

/-- A sequence faults in its first part, or in its second after the first completed. -/
theorem andThen_eq_fault {α β : Type} {x : Result α} {f : α → Result β} {r : Fault} :
    andThen x f = .fault r ↔ x = .fault r ∨ ∃ a, x = .next a ∧ f a = .fault r := by
  cases x <;> simp [andThen]

/-! ### Caches -/

/-- A slot read after a slot written. -/
theorem cacheGet_cachePut (c : PixelCache) (k j : BitVec 6) (px : Pixel) :
    cacheGet (cachePut c k px) j = if j = k then px else cacheGet c j := by
  simp only [cacheGet, cachePut, Vector.get_eq_getElem, Vector.getElem_set]
  by_cases h : j = k
  · subst h; simp
  · have : ¬ k.toNat = j.toNat := fun e => h (BitVec.eq_of_toNat_eq e.symm)
    simp [h, this]

/-- Every slot of a fresh cache holds `CACHE_INIT` (R80). -/
theorem cacheGet_fresh (k : BitVec 6) : cacheGet freshCache k = cacheInit := by
  simp [cacheGet, freshCache, Vector.get_eq_getElem]

/-- The value of the hash (R76). -/
theorem hash_toNat (px : Pixel) :
    (hash px).toNat = (px.r.toNat * 3 + px.g.toNat * 5 + px.b.toNat * 7 + px.a.toNat * 11) % 64 := by
  simp [hash]

/-! ### Stores -/

@[simp] theorem bufAddr_mem (s : State) (m : Memory) (b : Buf) (off : Nat) :
    bufAddr { s with mem := m } b off = bufAddr s b off := rfl

/-- Free bytes, the first one apart. -/
theorem freeAt_succ {s : State} {b : Buf} {off n : Nat} :
    FreeAt s b off (n + 1) ↔ otherOwns s b (bufAddr s b off) = false ∧ FreeAt s b (off + 1) n := by
  refine ⟨fun h => ⟨h 0 (by omega), fun j hj => ?_⟩, fun h j hj => ?_⟩
  · rw [Nat.add_assoc, Nat.add_comm 1]
    exact h (j + 1) (by omega)
  · cases j with
    | zero => exact h.1
    | succ j =>
      rw [Nat.add_comm j, ← Nat.add_assoc]
      exact h.2 j (by omega)

/-- Bytes among free bytes are free. -/
theorem FreeAt.within {s : State} {b : Buf} {off n o m : Nat} (h : FreeAt s b off n) (ho : off ≤ o)
    (hm : o + m ≤ off + n) : FreeAt s b o m := by
  intro j hj
  rw [show o + j = off + (o - off + j) by omega]
  exact h _ (by omega)

/-- Bytes that fit and are free are stored, and nothing but memory changes. -/
theorem storeBytes_fits (b : Buf) (vs : List Byte) (off : Nat) (s : State)
    (h : off + vs.length ≤ (s.bufs.get b).cap) (hf : FreeAt s b off vs.length) :
    storeBytes b off vs s = .next { s with mem := s.mem.writeAll (bufAddr s b off) vs } := by
  induction vs generalizing off s with
  | nil => rfl
  | cons v vs ih =>
    have h1 : off < (s.bufs.get b).cap := by simp at h; omega
    obtain ⟨f1, f2⟩ := freeAt_succ.mp hf
    simp only [storeBytes, storeByte, if_pos h1, f1, Bool.false_eq_true, if_false, andThen_next]
    rw [ih (off + 1) { s with mem := s.mem.write (bufAddr s b off) v } (by simp at h ⊢; omega) f2]
    rfl

/-- Bytes that do not fit, the ones that exist free, end in the fault of the first offset that does not exist. -/
theorem storeBytes_overflows (b : Buf) (vs : List Byte) (off : Nat) (s : State) (hv : vs ≠ [])
    (h : (s.bufs.get b).cap < off + vs.length) (hf : FreeAt s b off ((s.bufs.get b).cap - off)) :
    storeBytes b off vs s = .fault (.outsideBuffer b (max off (s.bufs.get b).cap)) := by
  induction vs generalizing off s with
  | nil => exact absurd rfl hv
  | cons v vs ih =>
    by_cases h1 : off < (s.bufs.get b).cap
    · rw [show (s.bufs.get b).cap - off = (s.bufs.get b).cap - (off + 1) + 1 by omega] at hf
      obtain ⟨f1, f2⟩ := freeAt_succ.mp hf
      simp only [storeBytes, storeByte, if_pos h1, f1, Bool.false_eq_true, if_false, andThen_next]
      cases vs with
      | nil => simp at h; omega
      | cons u vs =>
        rw [ih (off + 1) { s with mem := s.mem.write (bufAddr s b off) v } (by simp) (by simp at h ⊢; omega) f2]
        simp only [Host.Outcome.fault.injEq, Fault.outsideBuffer.injEq, true_and]
        omega
    · simp only [storeBytes, storeByte, if_neg h1, andThen_fault, Nat.max_eq_left (Nat.le_of_not_lt h1)]

/-- Bytes whose first one that is not free exists end in the refusal of that offset (R49). -/
theorem storeBytes_refused (b : Buf) (vs : List Byte) (off o : Nat) (s : State) (h1 : off ≤ o)
    (h2 : o < off + vs.length) (hc : o < (s.bufs.get b).cap) (hf : FreeAt s b off (o - off))
    (ho : otherOwns s b (bufAddr s b o) = true) :
    storeBytes b off vs s = .refused (.engineWroteBusyBuffer b o) := by
  induction vs generalizing off s with
  | nil => simp at h2; omega
  | cons v vs ih =>
    have hk : off < (s.bufs.get b).cap := by omega
    by_cases he : off = o
    · subst he
      simp only [storeBytes, storeByte, if_pos hk, ho, if_true, andThen_refused]
    · rw [show o - off = o - (off + 1) + 1 by omega] at hf
      obtain ⟨f1, f2⟩ := freeAt_succ.mp hf
      simp only [storeBytes, storeByte, if_pos hk, f1, Bool.false_eq_true, if_false, andThen_next]
      exact ih (off + 1) { s with mem := s.mem.write (bufAddr s b off) v } (by omega)
        (by simp at h2 ⊢; omega) hc f2 ho

/-- A store that completes: its bytes fit and are free. -/
theorem storeBytes_next_fits {b : Buf} {vs : List Byte} {off : Nat} {s t : State}
    (h : storeBytes b off vs s = .next t) :
    (vs = [] ∨ off + vs.length ≤ (s.bufs.get b).cap) ∧ FreeAt s b off vs.length := by
  induction vs generalizing off s with
  | nil => exact ⟨.inl rfl, fun j hj => absurd hj (by simp)⟩
  | cons v vs ih =>
    simp only [storeBytes, storeByte] at h
    split at h
    · rename_i hc
      split at h
      · simp at h
      · rename_i ho
        rw [andThen_next] at h
        obtain ⟨e, f⟩ := ih h
        refine ⟨.inr ?_, freeAt_succ.mpr ⟨by simpa using ho, f⟩⟩
        rcases e with rfl | e
        · simpa using hc
        · simp at e ⊢; omega
    · simp at h

/-- A store that completes is the store of bytes that fit. -/
theorem storeBytes_eq_next {b : Buf} {vs : List Byte} {off : Nat} {s t : State}
    (h : storeBytes b off vs s = .next t) : t = { s with mem := s.mem.writeAll (bufAddr s b off) vs } := by
  obtain ⟨rfl | e, f⟩ := storeBytes_next_fits h
  · simpa [storeBytes, Memory.writeAll] using h.symm
  · simpa [storeBytes_fits b vs off s e f] using h.symm

/-- A store that is refused: one of its bytes exists and lies inside a buffer of the other, busy engine (R49). -/
theorem storeBytes_eq_refused {b : Buf} {vs : List Byte} {off : Nat} {s : State} {r : Refusal}
    (h : storeBytes b off vs s = .refused r) :
    ∃ o, r = .engineWroteBusyBuffer b o ∧ off ≤ o ∧ o < off + vs.length ∧ o < (s.bufs.get b).cap ∧
      otherOwns s b (bufAddr s b o) = true := by
  induction vs generalizing off s with
  | nil => simp [storeBytes] at h
  | cons v vs ih =>
    simp only [storeBytes, storeByte] at h
    split at h
    · rename_i hc
      split at h
      · rename_i ho
        simp only [andThen_refused, Host.Outcome.refused.injEq] at h
        exact ⟨off, h.symm, by omega, by simp, hc, ho⟩
      · rw [andThen_next] at h
        obtain ⟨o, e, h1, h2, h3, h4⟩ := ih h
        exact ⟨o, e, by omega, by simp at h2 ⊢; omega, h3, h4⟩
    · simp at h

/-- A store of bytes that fit never faults. -/
theorem storeBytes_no_fault {b : Buf} {vs : List Byte} {off : Nat} {s : State} (r : Fault)
    (h : off + vs.length ≤ (s.bufs.get b).cap) : storeBytes b off vs s ≠ .fault r := by
  induction vs generalizing off s with
  | nil => simp [storeBytes]
  | cons v vs ih =>
    simp only [List.length_cons] at h
    have hc : off < (s.bufs.get b).cap := by omega
    simp only [storeBytes, storeByte, if_pos hc]
    split
    · simp
    · rw [andThen_next]
      exact ih (by show off + 1 + vs.length ≤ (s.bufs.get b).cap; omega)

/-- Regions that share no byte. -/
theorem Region.disjoint_has {r t : Region} (h : r.disjoint t = true) {a : Nat} (ha : r.has a = true) :
    t.has a = false := by
  simp only [Region.disjoint, Region.has, Bool.or_eq_true, Bool.and_eq_true, decide_eq_true_eq, Bool.and_eq_false_iff,
    decide_eq_false_iff_not] at h ha ⊢
  omega

/-- An offset below the capacity lies in the buffer. -/
theorem has_bufAddr {s : State} {b : Buf} {off : Nat} (h : off < (s.bufs.get b).cap) :
    (s.bufs.get b).has (bufAddr s b off) = true := by
  simp [Region.has, bufAddr, h]

/-- All of a clear `BOUT` is free. -/
theorem BoutClear.free {s : State} (h : BoutClear s) {off n : Nat} (hc : off + n ≤ s.bufs.bout.cap) :
    FreeAt s .bout off n := by
  intro j hj
  have ha : s.bufs.bout.has (bufAddr s .bout (off + j)) = true :=
    has_bufAddr (b := .bout) (by show off + j < s.bufs.bout.cap; omega)
  cases hb : decBusy s
  · simp [otherOwns, decOwns, hb]
  · simp [otherOwns, decOwns, Region.disjoint_has (h hb).1 ha, Region.disjoint_has (h hb).2 ha]

/-- All of a clear `POUT` is free. -/
theorem PoutClear.free {s : State} (h : PoutClear s) {off n : Nat} (hc : off + n ≤ s.bufs.pout.cap) :
    FreeAt s .pout off n := by
  intro j hj
  have ha : s.bufs.pout.has (bufAddr s .pout (off + j)) = true :=
    has_bufAddr (b := .pout) (by show off + j < s.bufs.pout.cap; omega)
  cases hb : encBusy s
  · simp [otherOwns, encOwns, hb]
  · simp [otherOwns, encOwns, Region.disjoint_has (h hb).1 ha, Region.disjoint_has (h hb).2 ha]

/-- What a buffer reads as after bytes were stored at `off` of buffer `b`. -/
theorem bufByte_writeAll (s : State) (b c : Buf) (off o : Nat) (vs : List Byte) :
    bufByte { s with mem := s.mem.writeAll (bufAddr s b off) vs } c o =
      if o < (s.bufs.get c).cap then
        if bufAddr s b off ≤ bufAddr s c o ∧ bufAddr s c o < bufAddr s b off + vs.length then
          vs[bufAddr s c o - bufAddr s b off]?
        else s.mem.read (bufAddr s c o)
      else none := by
  simp only [bufByte, bufAddr_mem, Memory.read_writeAll]

/-- Bytes stored are there. -/
theorem holdsBytes_writeAll (s : State) (b : Buf) (off : Nat) (vs : List Byte)
    (h : off + vs.length ≤ (s.bufs.get b).cap) :
    HoldsBytes { s with mem := s.mem.writeAll (bufAddr s b off) vs } b off vs := by
  intro j hj
  rw [bufByte_writeAll, if_pos (by omega), if_pos (by simp [bufAddr]; omega)]
  have : bufAddr s b (off + j) - bufAddr s b off = j := by simp [bufAddr]; omega
  rw [this, List.getElem?_eq_getElem hj]

/-! ### Loads -/

/-- What the running encode has written lies in `BOUT`, and the encoder is busy. -/
theorem encWrote_sub {s : State} {a : Nat} (h : encWrote s a = true) : encBusy s = true ∧ s.bufs.bout.has a = true := by
  unfold encWrote at h
  unfold encBusy
  cases hp : s.enc.phase <;> simp only [hp, Bool.and_eq_true] at h <;>
    first | exact ⟨rfl, h.1⟩ | exact absurd h (by decide)

/-- What the running decode has written lies in `POUT`, and the decoder is busy. -/
theorem decWrote_sub {s : State} {a : Nat} (h : decWrote s a = true) : decBusy s = true ∧ s.bufs.pout.has a = true := by
  unfold decWrote at h
  unfold decBusy
  cases hp : s.dec.phase <;> simp only [hp, Bool.and_eq_true] at h <;>
    first | exact ⟨rfl, h.1⟩ | exact absurd h (by decide)

/-- What the running encode has written depends on the encoder and the placement. -/
theorem encWrote_congr {s u : State} (he : u.enc = s.enc) (hb : u.bufs = s.bufs) (a : Nat) : encWrote u a = encWrote s a := by
  unfold encWrote bufAddr; rw [he, hb]

/-- What the running decode has written depends on the decoder and the placement. -/
theorem decWrote_congr {s u : State} (hd : u.dec = s.dec) (hb : u.bufs = s.bufs) (a : Nat) : decWrote u a = decWrote s a := by
  unfold decWrote bufAddr; rw [hd, hb]

/-- What an engine reads of a buffer depends on the placement, on what is hidden, and on the byte there unless it is
hidden. -/
theorem inputByte_congr {s u : State} {b : Buf} {off : Nat} (hb : u.bufs = s.bufs)
    (hh : hiddenByte u b (bufAddr s b off) = hiddenByte s b (bufAddr s b off))
    (hm : off < (s.bufs.get b).cap → hiddenByte s b (bufAddr s b off) = none →
      u.mem.read (bufAddr s b off) = s.mem.read (bufAddr s b off)) :
    inputByte u b off = inputByte s b off := by
  have ha : bufAddr u b off = bufAddr s b off := by simp [bufAddr, hb]
  simp only [inputByte, ha, hh, hb]
  split
  · rename_i hc
    cases hn : hiddenByte s b (bufAddr s b off)
    · exact hm hc hn
    · rfl
  · rfl

/-- Where the other engine's running operation has not written, an engine reads what its buffer holds (R46 part 1, R50). -/
theorem inputByte_eq_bufByte {s : State} {b : Buf} {off : Nat}
    (h : hiddenByte s b (bufAddr s b off) = none) : inputByte s b off = bufByte s b off := by
  simp only [inputByte, bufByte, h]

/-- While the decoder is not busy, or its output is elsewhere, the encoder reads what `PIN` holds. -/
theorem inputByte_pin_clear {s : State} (h : decBusy s = true → s.bufs.pout.disjoint s.bufs.pin = true) (off : Nat) :
    inputByte s .pin off = bufByte s .pin off := by
  by_cases ho : off < s.bufs.pin.cap
  · refine inputByte_eq_bufByte ?_
    have ha : s.bufs.pin.has (bufAddr s .pin off) = true := has_bufAddr (b := .pin) ho
    have : decWrote s (bufAddr s .pin off) = false := by
      by_contra hn
      obtain ⟨h1, h2⟩ := decWrote_sub (by simpa using hn)
      rw [Region.disjoint_has (h h1) h2] at ha
      exact absurd ha (by simp)
    simp [hiddenByte, this]
  · simp [inputByte, bufByte, BufMap.get, ho]

/-- While the encoder is not busy, or its output is elsewhere, the decoder reads what `BIN` holds. -/
theorem inputByte_bin_clear {s : State} (h : encBusy s = true → s.bufs.bout.disjoint s.bufs.bin = true) (off : Nat) :
    inputByte s .bin off = bufByte s .bin off := by
  by_cases ho : off < s.bufs.bin.cap
  · refine inputByte_eq_bufByte ?_
    have ha : s.bufs.bin.has (bufAddr s .bin off) = true := has_bufAddr (b := .bin) ho
    have : encWrote s (bufAddr s .bin off) = false := by
      by_contra hn
      obtain ⟨h1, h2⟩ := encWrote_sub (by simpa using hn)
      rw [Region.disjoint_has (h h1) h2] at ha
      exact absurd ha (by simp)
    simp [hiddenByte, this]
  · simp [inputByte, bufByte, BufMap.get, ho]

/-- Where a buffer holds a byte, its engine gets a byte. -/
theorem inputByte_of_bufByte {s : State} {b : Buf} {off : Nat} {v : Byte} (h : bufByte s b off = some v) :
    ∃ w, inputByte s b off = some w := by
  simp only [bufByte] at h
  split at h
  · rename_i hc
    simp only [inputByte, if_pos hc]
    split
    · exact ⟨_, rfl⟩
    · exact ⟨_, h⟩
  · simp at h

/-- An engine read that completes gives the byte the engine gets there. -/
theorem loadByte_eq_next {b : Buf} {off : Nat} {s : State} {v : Byte} :
    loadByte b off s = .next v ↔ inputByte s b off = some v := by
  simp only [loadByte]
  cases inputByte s b off <;> simp

/-- Bytes an engine gets are loaded. -/
theorem loadBytes_gets (b : Buf) (vs : List Byte) (off : Nat) (s : State) (h : GetsBytes s b off vs) :
    loadBytes b off vs.length s = .next vs := by
  induction vs generalizing off with
  | nil => rfl
  | cons v vs ih =>
    have h0 : inputByte s b off = some v := h 0 (by simp)
    have h1 : GetsBytes s b (off + 1) vs := by
      intro j hj
      have := h (j + 1) (by simp; omega)
      simpa [Nat.add_assoc, Nat.add_comm 1 j] using this
    simp [loadBytes, loadByte_eq_next.mpr h0, ih _ h1]

/-- A load that completes gives bytes the engine gets. -/
theorem loadBytes_eq_next {b : Buf} {n : Nat} {off : Nat} {s : State} {vs : List Byte}
    (h : loadBytes b off n s = .next vs) : vs.length = n ∧ GetsBytes s b off vs := by
  induction n generalizing off vs with
  | zero =>
    simp only [loadBytes, Host.Outcome.next.injEq] at h
    subst h
    exact ⟨rfl, fun j hj => absurd hj (by simp)⟩
  | succ n ih =>
    simp only [loadBytes, andThen_eq_next, Host.Outcome.next.injEq] at h
    obtain ⟨v, hv, ws, hw, rfl⟩ := h
    obtain ⟨hl, hh⟩ := ih hw
    refine ⟨by simp [hl], fun j hj => ?_⟩
    cases j with
    | zero => exact loadByte_eq_next.mp hv
    | succ j =>
      have := hh j (by simp at hj; omega)
      simpa [Nat.add_assoc, Nat.add_comm 1 j] using this

/-- An engine read never faults. -/
theorem loadByte_no_fault (b : Buf) (off : Nat) (s : State) (r : Fault) : loadByte b off s ≠ .fault r := by
  simp only [loadByte]
  split <;> simp

/-- An engine read of a row of bytes never faults. -/
theorem loadBytes_no_fault (b : Buf) (n off : Nat) (s : State) (r : Fault) : loadBytes b off n s ≠ .fault r := by
  induction n generalizing off with
  | zero => simp [loadBytes]
  | succ n ih =>
    simp only [loadBytes, ne_eq, andThen_eq_fault, not_or, not_exists, not_and]
    exact ⟨loadByte_no_fault _ _ _ _, fun v _ => ⟨ih _, fun _ _ => by simp⟩⟩

/-! ### OUTPUT, DONE and the whole of a chunk -/

theorem pixelBytes_length (ch : Byte) (px : Pixel) : (pixelBytes ch px).length = if ch = 4#8 then 4 else 3 := by
  simp only [pixelBytes]
  split <;> rfl

/-- A buffer that holds a pixel's bytes holds the pixel. -/
theorem holdsPixel_of_holdsBytes {s : State} {b : Buf} {off : Nat} {ch : Byte} {px : Pixel}
    (h : HoldsBytes s b off (pixelBytes ch px)) : HoldsPixel s b off ch px := by
  by_cases hc : ch = 4#8
  · simp only [pixelBytes, if_pos hc] at h
    exact ⟨by simpa using h 0 (by simp), by simpa using h 1 (by simp), by simpa using h 2 (by simp),
      fun _ => by simpa using h 3 (by simp)⟩
  · simp only [pixelBytes, if_neg hc] at h
    exact ⟨by simpa using h 0 (by simp), by simpa using h 1 (by simp), by simpa using h 2 (by simp),
      fun h4 => absurd h4 hc⟩

/-- OUTPUT with room: the pixel's bytes are stored and `d.k` counts it. -/
theorem output_eq (px : Pixel) (s : State) (h : RoomForPixel s) :
    output px s = .next { s with
      mem := s.mem.writeAll (bufAddr s .pout (s.dec.k * s.dec.ch.toNat)) (pixelBytes s.dec.ch px),
      dec := { s.dec with k := s.dec.k + 1 } } := by
  have hl := pixelBytes_length s.dec.ch px
  rw [output, storeBytes_fits _ _ _ _ (by rw [hl]; exact h.1) (by rw [hl]; exact h.2)]
  rfl

/-- OUTPUT of a pixel that does not fit, its bytes that exist free, ends in the fault of its first offset that does not
exist. -/
theorem output_fault (px : Pixel) (s : State) (h : ¬ PixelFits s)
    (hf : FreeAt s .pout (s.dec.k * s.dec.ch.toNat) (s.bufs.pout.cap - s.dec.k * s.dec.ch.toNat)) :
    output px s = .fault (.outsideBuffer .pout (max (s.dec.k * s.dec.ch.toNat) s.bufs.pout.cap)) := by
  have hl := pixelBytes_length s.dec.ch px
  rw [output, storeBytes_overflows .pout (pixelBytes s.dec.ch px) (s.dec.k * s.dec.ch.toNat) s
    (by simp only [pixelBytes]; split <;> simp)
    (by rw [hl]; simp only [PixelFits, not_le] at h; exact h) hf]
  rfl

/-- OUTPUT whose first byte that is not free exists ends in the refusal of that offset (R49). -/
theorem output_refused (px : Pixel) (s : State) {o : Nat} (h1 : s.dec.k * s.dec.ch.toNat ≤ o)
    (h2 : o < s.dec.k * s.dec.ch.toNat + (if s.dec.ch = 4#8 then 4 else 3)) (hc : o < s.bufs.pout.cap)
    (hf : FreeAt s .pout (s.dec.k * s.dec.ch.toNat) (o - s.dec.k * s.dec.ch.toNat))
    (ho : otherOwns s .pout (bufAddr s .pout o) = true) :
    output px s = .refused (.engineWroteBusyBuffer .pout o) := by
  rw [output, storeBytes_refused .pout _ _ o s h1 (by rw [pixelBytes_length]; exact h2) hc hf ho]
  rfl

/-- OUTPUT that completes had room. -/
theorem output_room {px : Pixel} {s t : State} (h : output px s = .next t) : RoomForPixel s := by
  simp only [output, andThen_eq_next] at h
  obtain ⟨u, hu, -⟩ := h
  obtain ⟨e, f⟩ := storeBytes_next_fits hu
  rw [pixelBytes_length] at e f
  refine ⟨e.resolve_left ?_, f⟩
  simp only [pixelBytes]
  split <;> simp

/-- OUTPUT is refused only at a byte inside a buffer of the busy encoder (R49). -/
theorem output_eq_refused {px : Pixel} {s : State} {r : Refusal} (h : output px s = .refused r) :
    ∃ o, r = .engineWroteBusyBuffer .pout o ∧ o < s.bufs.pout.cap ∧ encOwns s (bufAddr s .pout o) = true := by
  simp only [output] at h
  cases hs : storeBytes .pout (s.dec.k * s.dec.ch.toNat) (pixelBytes s.dec.ch px) s with
  | next u => simp [hs] at h
  | fault f => simp [hs] at h
  | refused q =>
    simp only [hs, andThen_refused, Host.Outcome.refused.injEq] at h
    obtain ⟨o, e, -, -, hc, ho⟩ := storeBytes_eq_refused hs
    exact ⟨o, by rw [← h, e], hc, ho⟩

/-- OUTPUT of a pixel that fits never faults. -/
theorem output_no_fault {px : Pixel} {s : State} (r : Fault) (h : PixelFits s) : output px s ≠ .fault r := by
  simp only [output, ne_eq, andThen_eq_fault, not_or, not_exists, not_and]
  exact ⟨storeBytes_no_fault r (by rw [pixelBytes_length]; exact h), fun _ _ => by simp⟩

/-- OUTPUT and the DONE check after it, from a state that may differ from `s` in the decoder's position, run, previous
pixel and cache. -/
theorem output_finish (px : Pixel) (s : State) (u : State) (h : RoomForPixel s)
    (hu : u = { s with dec := { s.dec with ip := u.dec.ip, run := u.dec.run, prev := u.dec.prev, cache := u.dec.cache } }) :
    ∃ t, andThen (output px u) (fun t => .next (finish t)) = .next t ∧ PixelOut s t px ∧ t.dec.ip = u.dec.ip ∧
      t.dec.run = u.dec.run ∧ t.dec.prev = u.dec.prev ∧ t.dec.cache = u.dec.cache := by
  have hk : u.dec.k = s.dec.k := by rw [hu]
  have hch : u.dec.ch = s.dec.ch := by rw [hu]
  have hb : u.bufs = s.bufs := by rw [hu]
  have hm : u.mem = s.mem := by rw [hu]
  have hr : RoomForPixel u := by
    rw [hu]
    exact h
  have hlen := pixelBytes_length s.dec.ch px
  have hfit : s.dec.k * s.dec.ch.toNat + (pixelBytes s.dec.ch px).length ≤ (s.bufs.get .pout).cap := by
    rw [hlen]; exact h.1
  rw [output_eq px u hr, andThen_next]
  refine ⟨_, rfl, ?_, ?_, ?_, ?_, ?_⟩
  · have stored : HoldsBytes
        { s with mem := s.mem.writeAll (bufAddr s .pout (s.dec.k * s.dec.ch.toNat)) (pixelBytes s.dec.ch px) } .pout
        (s.dec.k * s.dec.ch.toNat) (pixelBytes s.dec.ch px) := holdsBytes_writeAll _ _ _ _ hfit
    have hadr : bufAddr u .pout (s.dec.k * s.dec.ch.toNat) = bufAddr s .pout (s.dec.k * s.dec.ch.toNat) := by
      simp [bufAddr, hb]
    have memF : ∀ v : State, (finish v).mem = v.mem := fun v => by simp only [finish]; split <;> rfl
    have bufF : ∀ v : State, (finish v).bufs = v.bufs := fun v => by simp only [finish]; split <;> rfl
    constructor
    · rw [hu]
      refine ⟨?_, ?_, ?_, ?_, ?_, ?_, ?_⟩ <;> (simp only [finish]; split <;> rfl)
    · rw [hu]
      refine ⟨?_, ?_, ?_, ?_, ?_, ?_, ?_, ?_⟩ <;> (simp only [finish]; split <;> rfl)
    · rw [hu]
      simp only [finish]; split <;> rfl
    · apply holdsPixel_of_holdsBytes
      intro j hj
      have := stored j hj
      simp only [bufByte, bufAddr, memF, bufF, hk, hch, hm, hb] at this ⊢
      exact this
    · intro a ha
      rw [memF]
      simp only [bufAddr] at ha
      simp only [hk, hch, hm, hadr, Memory.read_writeAll, hlen]
      rw [if_neg]
      simpa [bufAddr] using ha
    · intro hne
      have : ¬ u.dec.k + 1 = u.dec.n := by rw [hu]; exact hne
      simp only [finish, this, if_false]
      rw [hu]
      exact ⟨rfl, rfl, rfl⟩
    · intro he
      have : u.dec.k + 1 = u.dec.n := by rw [hu]; exact he
      refine ⟨?_, ?_, ?_, ?_, ?_, ?_, ?_⟩ <;> rw [finish, if_pos this] <;> rw [hu]
  all_goals (simp only [finish]; split <;> rfl)

/-- A chunk with room for its pixel runs: everything it does. -/
theorem produce_runs (len : Nat) (px : Pixel) (s : State) (h : RoomForPixel s) :
    ∃ t, produce len px s = .next t ∧ ChunkRan s t len s.dec.run px := by
  obtain ⟨t, h1, h2, h3, h4, h5, h6⟩ := output_finish px s (commit px (advance len s)) h rfl
  refine ⟨t, h1, h2, h3, h5, h4, fun k => ?_⟩
  rw [h6]
  exact cacheGet_cachePut _ _ _ _

/-- A chunk whose pixel does not fit, its bytes that exist free, ends in the fault of its first offset that does not
exist. -/
theorem produce_fault (len : Nat) (px : Pixel) (s : State) (h : ¬ PixelFits s)
    (hf : FreeAt s .pout (s.dec.k * s.dec.ch.toNat) (s.bufs.pout.cap - s.dec.k * s.dec.ch.toNat)) :
    produce len px s = .fault (.outsideBuffer .pout (max (s.dec.k * s.dec.ch.toNat) s.bufs.pout.cap)) := by
  rw [produce, output_fault px (commit px (advance len s)) h hf]
  rfl

/-- A chunk whose pixel's first byte that is not free exists ends in the refusal of that offset (R49). -/
theorem produce_refused (len : Nat) (px : Pixel) (s : State) {o : Nat} (h1 : s.dec.k * s.dec.ch.toNat ≤ o)
    (h2 : o < s.dec.k * s.dec.ch.toNat + (if s.dec.ch = 4#8 then 4 else 3)) (hc : o < s.bufs.pout.cap)
    (hf : FreeAt s .pout (s.dec.k * s.dec.ch.toNat) (o - s.dec.k * s.dec.ch.toNat))
    (ho : otherOwns s .pout (bufAddr s .pout o) = true) :
    produce len px s = .refused (.engineWroteBusyBuffer .pout o) := by
  rw [produce, output_refused px (commit px (advance len s)) h1 h2 hc hf ho]
  rfl

/-- What completes had room. -/
theorem produce_room {len : Nat} {px : Pixel} {s t : State} (h : produce len px s = .next t) : RoomForPixel s := by
  simp only [produce, andThen_eq_next] at h
  obtain ⟨u, hu, -⟩ := h
  exact output_room (s := commit px (advance len s)) hu

/-- A chunk is refused only at a byte inside a buffer of the busy encoder (R49). -/
theorem produce_eq_refused {len : Nat} {px : Pixel} {s : State} {r : Refusal} (h : produce len px s = .refused r) :
    ∃ o, r = .engineWroteBusyBuffer .pout o ∧ o < s.bufs.pout.cap ∧ encOwns s (bufAddr s .pout o) = true := by
  simp only [produce] at h
  cases hs : output px (commit px (advance len s)) with
  | next u => simp [hs] at h
  | fault f => simp [hs] at h
  | refused q =>
    simp only [hs, andThen_refused, Host.Outcome.refused.injEq] at h
    subst h
    exact output_eq_refused (s := commit px (advance len s)) hs

/-- A chunk whose pixel fits never faults. -/
theorem produce_no_fault {len : Nat} {px : Pixel} {s : State} (r : Fault) (h : PixelFits s) :
    produce len px s ≠ .fault r := by
  simp only [produce, ne_eq, andThen_eq_fault, not_or, not_exists, not_and]
  exact ⟨output_no_fault (s := commit px (advance len s)) r h, fun _ _ => by simp⟩

/-- REPLAY with room: one more pixel, one replay less, and nothing else of the decoder changed (R102). -/
theorem replay_runs (s : State) (h : RoomForPixel s) :
    ∃ t, replay s = .next t ∧ PixelOut s t s.dec.prev ∧ t.dec.ip = s.dec.ip ∧ t.dec.run = s.dec.run - 1#6 ∧
      t.dec.prev = s.dec.prev ∧ t.dec.cache = s.dec.cache :=
  output_finish s.dec.prev s { s with dec := { s.dec with run := s.dec.run - 1#6 } } h rfl

/-- A REPLAY that completes had room. -/
theorem replay_room {s t : State} (h : replay s = .next t) : RoomForPixel s := by
  simp only [replay, andThen_eq_next] at h
  obtain ⟨u, hu, -⟩ := h
  exact output_room (s := { s with dec := { s.dec with run := s.dec.run - 1#6 } }) hu

/-- A REPLAY is refused only at a byte inside a buffer of the busy encoder (R49). -/
theorem replay_eq_refused {s : State} {r : Refusal} (h : replay s = .refused r) :
    ∃ o, r = .engineWroteBusyBuffer .pout o ∧ o < s.bufs.pout.cap ∧ encOwns s (bufAddr s .pout o) = true := by
  simp only [replay] at h
  cases hs : output s.dec.prev { s with dec := { s.dec with run := s.dec.run - 1#6 } } with
  | next u => simp [hs] at h
  | fault f => simp [hs] at h
  | refused q =>
    simp only [hs, andThen_refused, Host.Outcome.refused.injEq] at h
    subst h
    exact output_eq_refused (s := { s with dec := { s.dec with run := s.dec.run - 1#6 } }) hs

/-- A REPLAY whose pixel fits never faults. -/
theorem replay_no_fault {s : State} (r : Fault) (h : PixelFits s) : replay s ≠ .fault r := by
  simp only [replay, ne_eq, andThen_eq_fault, not_or, not_exists, not_and]
  exact ⟨output_no_fault (s := { s with dec := { s.dec with run := s.dec.run - 1#6 } }) r h, fun _ _ => by simp⟩

/-! ### `emit` -/

/-- `emit` with room, of bytes that are free: the bytes are stored at `e.op`, which moves past them. -/
theorem emit_eq (bs : List Byte) (s : State) (h : s.enc.op + bs.length ≤ s.bufs.bout.cap)
    (hf : FreeAt s .bout s.enc.op bs.length) :
    emit bs s = .next { s with
      mem := s.mem.writeAll (bufAddr s .bout s.enc.op) bs,
      enc := { s.enc with op := s.enc.op + bs.length } } := by
  rw [emit, storeBytes_fits _ _ _ _ h hf]
  rfl

/-- An `emit` that completes fits, or emits nothing, and its bytes were free. -/
theorem emit_fits {bs : List Byte} {s t : State} (h : emit bs s = .next t) :
    (bs = [] ∨ s.enc.op + bs.length ≤ s.bufs.bout.cap) ∧ FreeAt s .bout s.enc.op bs.length := by
  simp only [emit, andThen_eq_next] at h
  obtain ⟨u, hu, -⟩ := h
  exact storeBytes_next_fits hu

/-- An `emit` is refused only at a byte inside a buffer of the busy decoder (R49). -/
theorem emit_eq_refused {bs : List Byte} {s : State} {r : Refusal} (h : emit bs s = .refused r) :
    ∃ o, r = .engineWroteBusyBuffer .bout o ∧ o < s.bufs.bout.cap ∧ decOwns s (bufAddr s .bout o) = true := by
  simp only [emit] at h
  cases hs : storeBytes .bout s.enc.op bs s with
  | next u => simp [hs] at h
  | fault f => simp [hs] at h
  | refused q =>
    simp only [hs, andThen_refused, Host.Outcome.refused.injEq] at h
    obtain ⟨o, e, -, -, hc, ho⟩ := storeBytes_eq_refused hs
    exact ⟨o, by rw [← h, e], hc, ho⟩

/-- An `emit` with room never faults. -/
theorem emit_no_fault {bs : List Byte} {s : State} (r : Fault) (h : s.enc.op + bs.length ≤ s.bufs.bout.cap) :
    emit bs s ≠ .fault r := by
  simp only [emit, ne_eq, andThen_eq_fault, not_or, not_exists, not_and]
  exact ⟨storeBytes_no_fault r h, fun _ _ => by simp⟩

/-- An `emit` that completes did that. -/
theorem emit_eq_next {bs : List Byte} {s t : State} (h : emit bs s = .next t) :
    t = { s with
      mem := s.mem.writeAll (bufAddr s .bout s.enc.op) bs,
      enc := { s.enc with op := s.enc.op + bs.length } } := by
  simp only [emit, andThen_eq_next, Host.Outcome.next.injEq] at h
  obtain ⟨u, hu, rfl⟩ := h
  rw [storeBytes_eq_next hu]

end Sys2Proof.Machine
end

