-- ==== Sys2Proof/Laws/Engines.lean ====
section
/-! SUPPORT. One law for each part of the two engines' steps: what it does when it completes. -/

namespace Sys2Proof.Machine

/-! ### The header -/

/-- The field checks in their order (R67, R68, R69, R73, R83). -/
theorem fieldError_eq (w h : Word) (ch cs : Byte) (pixelsMax : Nat) :
    fieldError w h ch cs pixelsMax =
      if ¬ (1 ≤ w.toNat ∧ 1 ≤ h.toNat ∧ w.toNat * h.toNat < pixelsMax) then some .dimension
      else if ¬ (ch = 3#8 ∨ ch = 4#8) then some .channel
      else if ¬ (cs = 0#8 ∨ cs = 1#8) then some .colorspace
      else none := by
  unfold fieldError dimOk chOk csOk
  by_cases a : 1 ≤ w.toNat ∧ 1 ≤ h.toNat ∧ w.toNat * h.toNat < pixelsMax
  · by_cases d : ch = 3#8 <;> by_cases e : ch = 4#8 <;> by_cases f : cs = 0#8 <;> by_cases g : cs = 1#8 <;>
      simp [a, d, e, f, g]
  · rw [if_pos a, if_pos]
    simp only [Bool.not_eq_true', Bool.and_eq_false_iff, decide_eq_false_iff_not]
    tauto

/-- What passes the field checks. -/
theorem fieldError_none {w h : Word} {ch cs : Byte} {pixelsMax : Nat} (e : fieldError w h ch cs pixelsMax = none) :
    1 ≤ w.toNat ∧ 1 ≤ h.toNat ∧ w.toNat * h.toNat < pixelsMax ∧ (ch = 3#8 ∨ ch = 4#8) ∧ (cs = 0#8 ∨ cs = 1#8) := by
  rw [fieldError_eq] at e
  split at e
  · simp at e
  · split at e
    · simp at e
    · split at e
      · simp at e
      · rename_i a b c
        exact ⟨(not_not.mp a).1, (not_not.mp a).2.1, (not_not.mp a).2.2, not_not.mp b, not_not.mp c⟩

/-- Fields that meet every check pass. -/
theorem fieldError_of_legal {w h : Word} {ch cs : Byte} {pixelsMax : Nat} (d : 1 ≤ w.toNat ∧ 1 ≤ h.toNat ∧
    w.toNat * h.toNat < pixelsMax) (c : ch = 3#8 ∨ ch = 4#8) (f : cs = 0#8 ∨ cs = 1#8) :
    fieldError w h ch cs pixelsMax = none := by
  rw [fieldError_eq, if_neg (not_not.mpr d), if_neg (not_not.mpr c), if_neg (not_not.mpr f)]

/-- The errors of the field checks. -/
theorem fieldError_some {w h : Word} {ch cs : Byte} {pixelsMax : Nat} {e : Err}
    (he : fieldError w h ch cs pixelsMax = some e) : e ∈ [Err.dimension, Err.channel, Err.colorspace] := by
  rw [fieldError_eq] at he
  split at he
  · simp at he; simp [← he]
  · split at he
    · simp at he; simp [← he]
    · split at he
      · simp at he; simp [← he]
      · simp at he

/-- The fields of 14 bytes; the two numbers fit their registers (R52, R72). -/
theorem parseHeader_eq (hdr : List Byte) (h : hdr.length = 14) :
    parseHeader hdr =
        ⟨hdr.take 4, BitVec.ofNat 32 (wordAt hdr 4), BitVec.ofNat 32 (wordAt hdr 8), hdr.getD 12 0#8, hdr.getD 13 0#8⟩ ∧
      wordAt hdr 4 < 2 ^ 32 ∧ wordAt hdr 8 < 2 ^ 32 := by
  match hdr, h with
  | [a, b, c, d, e, f, g, h, i, j, k, l, m, n], _ =>
    simp [parseHeader, bigEndian, wordAt]
    refine ⟨?_, ?_⟩ <;> omega

/-- The HEADER step on 14 placed bytes (R99). -/
theorem decHeader_eq (s : State) (hdr : List Byte) (hl : 14 ≤ s.dec.len) (h14 : hdr.length = 14)
    (hb : GetsBytes s .bin 0 hdr) :
    decHeader s = match headerError s.cfg (parseHeader hdr) with
      | some e => .next (raiseDec e (readHeader (parseHeader hdr) s))
      | none =>
        if s.bufs.pout.cap < decCapacity (parseHeader hdr) then .refused (.outputTooSmall .pout)
        else .next (setUpDec (readHeader (parseHeader hdr) s)) := by
  have hn : ¬ s.dec.len < 14 := by omega
  have e := loadBytes_gets _ _ _ _ hb
  rw [h14] at e
  show (if s.dec.len < 14 then _ else andThen (loadBytes .bin 0 14 s) _) = _
  rw [if_neg hn, e]
  rfl

/-- What a HEADER step that completes did: a short stream, a failing check, or the set-up (R74, R73, R99). -/
theorem decHeader_cases {s t : State} (h : decHeader s = .next t) :
    (s.dec.len < 14 ∧ t = raiseDec .incompleteImage s) ∨
    (∃ bs, 14 ≤ s.dec.len ∧ bs.length = 14 ∧ GetsBytes s .bin 0 bs ∧
      ((∃ e, headerError s.cfg (parseHeader bs) = some e ∧ t = raiseDec e (readHeader (parseHeader bs) s)) ∨
       (headerError s.cfg (parseHeader bs) = none ∧ decCapacity (parseHeader bs) ≤ s.bufs.pout.cap ∧
        t = setUpDec (readHeader (parseHeader bs) s)))) := by
  simp only [decHeader] at h
  split at h
  · rename_i hl
    simp only [Host.Outcome.next.injEq] at h
    exact .inl ⟨hl, h.symm⟩
  · rename_i hl
    rw [andThen_eq_next] at h
    obtain ⟨bs, hb, h⟩ := h
    obtain ⟨h14, hh⟩ := loadBytes_eq_next hb
    refine .inr ⟨bs, by simp [headerSize] at hl; omega, h14, hh, ?_⟩
    split at h
    · rename_i e he
      simp only [Host.Outcome.next.injEq] at h
      exact .inl ⟨e, he, h.symm⟩
    · rename_i he
      split at h
      · simp at h
      · simp only [Host.Outcome.next.injEq] at h
        exact .inr ⟨he, by omega, h.symm⟩

/-- The errors HEADER can report (R73). -/
theorem headerError_some {p : Config.Params} {x : Header} {e : Err} (h : headerError p x = some e) :
    e ∈ [Err.signature, Err.dimension, Err.channel, Err.colorspace] := by
  simp only [headerError] at h
  split at h
  · have := fieldError_some h
    simp at this ⊢
    tauto
  · simp at h; simp [← h]

/-- A header that passes HEADER passes the field checks. -/
theorem headerError_none {p : Config.Params} {x : Header} (h : headerError p x = none) :
    x.magic = p.magic.toList ∧ fieldError x.w x.h x.ch x.cs p.pixelsMax = none := by
  simp only [headerError] at h
  split at h
  · rename_i hm; exact ⟨hm, h⟩
  · simp at h

/-- HEADER finds no error in exactly the headers that pass (R73). -/
theorem headerError_eq_none {p : Config.Params} {hdr : List Byte} (h14 : hdr.length = 14) :
    headerError p (parseHeader hdr) = none ↔ HeaderPasses p hdr := by
  obtain ⟨e, hw, hh⟩ := parseHeader_eq hdr h14
  have toW : (BitVec.ofNat 32 (wordAt hdr 4)).toNat = wordAt hdr 4 := Nat.mod_eq_of_lt hw
  have toH : (BitVec.ofNat 32 (wordAt hdr 8)).toNat = wordAt hdr 8 := Nat.mod_eq_of_lt hh
  rw [e]
  constructor
  · intro h
    obtain ⟨m, f⟩ := headerError_none h
    obtain ⟨d1, d2, d3, c, g⟩ := fieldError_none f
    rw [toW] at d1 d3
    rw [toH] at d2 d3
    exact ⟨m, d1, d2, d3, c, g⟩
  · rintro ⟨m, d1, d2, d3, c, g⟩
    rw [headerError, if_pos m]
    exact fieldError_of_legal (by rw [toW, toH]; exact ⟨d1, d2, d3⟩) c g

/-! ### Reading a chunk -/

/-- A chunk whose bytes are placed is fetched as what they decode to (R101, R103). -/
theorem fetchChunk_eq (s : State) (b0 : Byte) (operands : List Byte) (i : Instr) (rest : List Byte)
    (hl : operands.length = (kindOf b0).length - 1) (hb : GetsBytes s .bin s.dec.ip (b0 :: operands))
    (hd : decode (.chunk (b0 :: operands)) = .ok (i, rest)) : fetchChunk s = .next i := by
  have h0 : inputByte s .bin s.dec.ip = some b0 := hb 0 (by simp)
  have h1 : GetsBytes s .bin (s.dec.ip + 1) operands := by
    intro j hj
    have := hb (j + 1) (by simp; omega)
    simpa [Nat.add_assoc, Nat.add_comm 1 j] using this
  simp only [fetchChunk, loadByte_eq_next.mpr h0, andThen_next, ← hl, loadBytes_gets _ _ _ _ h1, hd]

/-- The length of a chunk is its kind's length (R61). -/
theorem chunkBytes_length : ∀ i : Instr, isChunk i = true → i.wf = true →
    ∃ b0 t, chunkBytes i = b0 :: t ∧ t.length = (kindOf b0).length - 1
  | .index f, _, _ => ⟨_, _, rfl, by simp [kindOf_index, Kind.length]⟩
  | .diff _ _ _, _, _ => ⟨_, _, rfl, by simp [kindOf_diff, Kind.length]⟩
  | .luma _ _ _, _, _ => ⟨_, _, rfl, by simp [kindOf_luma, Kind.length]⟩
  | .run l, _, h => ⟨_, _, rfl, by
      have : l.toNat ≤ 61 := by simpa [Instr.wf] using h
      simp [kindOf_run _ this, Kind.length]⟩
  | .rgb _ _ _, _, _ => ⟨_, _, rfl, by simp [kindOf_rgb, Kind.length]⟩
  | .rgba _ _ _ _, _, _ => ⟨_, _, rfl, by simp [kindOf_rgba, Kind.length]⟩
  | .encStart _, h, _ => by simp [isChunk] at h
  | .decStart _, h, _ => by simp [isChunk] at h

/-- Only chunks are decoded from the stream. -/
theorem decodeChunk_isChunk {bs rest : List Byte} {i : Instr} (h : decode (.chunk bs) = .ok (i, rest)) :
    isChunk i = true := by
  cases bs with
  | nil => simp [decode, decodeChunk] at h
  | cons b0 t =>
    simp only [decode, decodeChunk] at h
    split at h <;> (try split at h) <;> simp at h <;> obtain ⟨rfl, -⟩ := h <;> rfl

/-- Every tag byte with its operands decodes: a fetch is never undecoded (R60, R63). -/
theorem decodeChunk_total (b0 : Byte) (operands : List Byte) (h : operands.length = (kindOf b0).length - 1) :
    ∃ i, decode (.chunk (b0 :: operands)) = .ok (i, []) := by
  simp only [decode, decodeChunk]
  cases hk : kindOf b0 <;> simp only [hk, Kind.length] at h ⊢
  · exact ⟨_, by rw [List.length_eq_zero_iff.mp h]⟩
  · exact ⟨_, by rw [List.length_eq_zero_iff.mp h]⟩
  · obtain ⟨b1, rfl⟩ := List.length_eq_one_iff.mp h; exact ⟨_, rfl⟩
  · exact ⟨_, by rw [List.length_eq_zero_iff.mp h]⟩
  · obtain ⟨r, g, b, rfl⟩ := List.length_eq_three.mp h; exact ⟨_, rfl⟩
  · match operands, h with
    | [r, g, b, a], _ => exact ⟨_, rfl⟩

/-- What a fetch that completes read. -/
theorem fetchChunk_cases {s : State} {i : Instr} (h : fetchChunk s = .next i) :
    ∃ b0 operands, operands.length = (kindOf b0).length - 1 ∧ GetsBytes s .bin s.dec.ip (b0 :: operands) ∧
      decode (.chunk (b0 :: operands)) = .ok (i, []) ∧ isChunk i = true := by
  simp only [fetchChunk, andThen_eq_next] at h
  obtain ⟨b0, h0, operands, h1, h⟩ := h
  obtain ⟨hl, hh⟩ := loadBytes_eq_next h1
  obtain ⟨j, hj⟩ := decodeChunk_total b0 operands hl
  rw [hj] at h
  simp only [Host.Outcome.next.injEq] at h
  subst h
  refine ⟨b0, operands, hl, fun k hk => ?_, hj, decodeChunk_isChunk hj⟩
  cases k with
  | zero => exact loadByte_eq_next.mp h0
  | succ k =>
    have := hh k (by simp at hk; omega)
    simpa [Nat.add_assoc, Nat.add_comm 1 k] using this

/-- A fetch never faults. -/
theorem fetchChunk_no_fault (s : State) (r : Fault) : fetchChunk s ≠ .fault r := by
  simp only [fetchChunk, ne_eq, andThen_eq_fault, not_or, not_exists, not_and]
  refine ⟨loadByte_no_fault _ _ _ _, fun b0 _ => ⟨loadBytes_no_fault _ _ _ _ _, fun ops _ => ?_⟩⟩
  split <;> simp

/-- Every chunk is the production of a pixel, by `len` bytes of 1 to 5, with `run` replays owed. -/
theorem exec_chunk_eq {i : Instr} (hi : isChunk i = true) (s : State) :
    ∃ len px run, 1 ≤ len ∧ len ≤ 5 ∧ exec i s = produce len px (setRun run s) ∧
      (run = s.dec.run ∨ ∃ l, i = .run l ∧ run = l) := by
  cases i with
  | index => exact ⟨_, _, s.dec.run, by omega, by omega, rfl, .inl rfl⟩
  | diff => exact ⟨_, _, s.dec.run, by omega, by omega, rfl, .inl rfl⟩
  | luma => exact ⟨_, _, s.dec.run, by omega, by omega, rfl, .inl rfl⟩
  | run l => exact ⟨_, _, l, by omega, by omega, rfl, .inr ⟨l, rfl, rfl⟩⟩
  | rgb => exact ⟨_, _, s.dec.run, by omega, by omega, rfl, .inl rfl⟩
  | rgba => exact ⟨_, _, s.dec.run, by omega, by omega, rfl, .inl rfl⟩
  | encStart => simp [isChunk] at hi
  | decStart => simp [isChunk] at hi

/-- A chunk with room for its pixel runs, from a state that may differ in the replays owed: everything it does. -/
theorem produce_setRun (len : Nat) (px : Pixel) (run : BitVec 6) (s : State) (h : RoomForPixel s) :
    ∃ t, produce len px (setRun run s) = .next t ∧ ChunkRan s t len run px := by
  obtain ⟨t, h1, h2, h3, h4, h5, h6⟩ := output_finish px s (commit px (advance len (setRun run s))) h rfl
  refine ⟨t, h1, h2, h3, h5, h4, fun k => ?_⟩
  rw [h6]
  exact cacheGet_cachePut _ _ _ _

/-- What a chunk that completes did, whatever its kind: `len` bytes of 1 to 5, a pixel, and the replays it owes. -/
theorem exec_chunk_cases {s t : State} {i : Instr} (hi : isChunk i = true) (h : exec i s = .next t) :
    RoomForPixel s ∧ ∃ len run px, 1 ≤ len ∧ len ≤ 5 ∧ ChunkRan s t len run px ∧
      (run = s.dec.run ∨ ∃ l, i = .run l ∧ run = l) := by
  obtain ⟨len, px, run, h1, h5, e, hrun⟩ := exec_chunk_eq hi s
  rw [e] at h
  have hroom : RoomForPixel s := produce_room (s := setRun run s) h
  obtain ⟨u, hu, hr⟩ := produce_setRun len px run s hroom
  rw [h] at hu
  simp only [Host.Outcome.next.injEq] at hu
  subst hu
  exact ⟨hroom, len, run, px, h1, h5, hr, hrun⟩

/-- A chunk with room for its pixel completes. -/
theorem exec_chunk_completes {s : State} {i : Instr} (hi : isChunk i = true) (hr : RoomForPixel s) :
    ∃ t, exec i s = .next t := by
  obtain ⟨len, px, run, -, -, e, -⟩ := exec_chunk_eq hi s
  rw [e]
  exact (produce_setRun len px run s hr).imp fun t h => h.1

/-- A chunk is refused only at a byte inside a buffer of the busy encoder (R49). -/
theorem exec_chunk_eq_refused {s : State} {i : Instr} (hi : isChunk i = true) {r : Refusal}
    (h : exec i s = .refused r) :
    ∃ o, r = .engineWroteBusyBuffer .pout o ∧ o < s.bufs.pout.cap ∧ encOwns s (bufAddr s .pout o) = true := by
  obtain ⟨len, px, run, -, -, e, -⟩ := exec_chunk_eq hi s
  rw [e] at h
  exact produce_eq_refused (s := setRun run s) h

/-- A chunk whose pixel fits never faults. -/
theorem exec_chunk_no_fault {s : State} {i : Instr} (hi : isChunk i = true) (hr : PixelFits s) (r : Fault) :
    exec i s ≠ .fault r := by
  obtain ⟨len, px, run, -, -, e, -⟩ := exec_chunk_eq hi s
  rw [e]
  exact produce_no_fault (s := setRun run s) r hr

/-! ### The encoder -/

/-- A RUN byte as a number (R57, R87). -/
theorem runByte_eq : ∀ f : BitVec 6, tagByte 3#2 f = BitVec.ofNat 8 (0xC0 + f.toNat) := by decide

/-- One less than a pending run. -/
theorem run_pred {r : BitVec 6} (h : r ≠ 0#6) : (r - 1#6).toNat = r.toNat - 1 := by
  have h0 : r.toNat ≠ 0 := fun e => h (BitVec.eq_of_toNat_eq (by simpa using e))
  have := r.isLt
  rw [BitVec.toNat_sub]
  simp
  omega

/-- One more than a pending run, below the register's width. -/
theorem run_succ {r : BitVec 6} (h : r.toNat ≤ 61) : (r + 1#6).toNat = r.toNat + 1 := by
  rw [BitVec.toNat_add]
  simp
  omega

/-- The bytes a pending run owes. -/
def pendingBytes (run : BitVec 6) : List Byte :=
  if run = 0#6 then [] else [BitVec.ofNat 8 (0xC0 + (run.toNat - 1))]

theorem pendingBytes_length (run : BitVec 6) : (pendingBytes run).length = pendingByte run := by
  simp only [pendingBytes, pendingByte]
  split <;> rfl

/-- FLUSH, if anything is pending, is the emission of the pending bytes (R87, R88, R95). -/
theorem flushPending_eq (s : State) :
    flushPending s = andThen (emit (pendingBytes s.enc.run) s) fun t =>
      .next { t with enc := { t.enc with run := 0#6 } } := by
  by_cases h : s.enc.run = 0#6
  · simp only [flushPending, if_pos h, pendingBytes, emit, storeBytes, andThen_next, List.length_nil, Nat.add_zero]
    congr 1
    rw [← h]
  · simp only [flushPending, if_neg h, pendingBytes, flush, chunkBytes, runByte_eq, run_pred h]

theorem writeAll_append (m : Memory) (a : Nat) (xs ys : List Byte) :
    m.writeAll a (xs ++ ys) = (m.writeAll a xs).writeAll (a + xs.length) ys := by
  induction xs generalizing m a with
  | nil => rfl
  | cons x xs ih =>
    simp only [List.cons_append, Memory.writeAll, ih, List.length_cons]
    congr 1
    omega

/-- A store of the encoder does not look at its registers. -/
theorem storeBytes_enc (e : Enc) (zs : List Byte) (off : Nat) (u : State) :
    storeBytes .bout off zs { u with enc := e } =
      andThen (storeBytes .bout off zs u) fun v => .next { v with enc := e } := by
  induction zs generalizing off u with
  | nil => rfl
  | cons z zs ih =>
    have hs : storeByte .bout off z { u with enc := e } =
        andThen (storeByte .bout off z u) fun v => .next { v with enc := e } := by
      by_cases hc : off < (u.bufs.get .bout).cap
      · cases ho : otherOwns u .bout (bufAddr u .bout off)
        · have ho' : otherOwns { u with enc := e } .bout (bufAddr { u with enc := e } .bout off) = false := ho
          simp only [storeByte, if_pos hc, ho, ho', Bool.false_eq_true, if_false, andThen_next]
          rfl
        · have ho' : otherOwns { u with enc := e } .bout (bufAddr { u with enc := e } .bout off) = true := ho
          simp only [storeByte, if_pos hc, ho, ho', if_true, andThen_refused]
      · simp only [storeByte, if_neg hc, andThen_fault]
    simp only [storeBytes, hs]
    cases storeByte .bout off z u with
    | next v => exact ih (off + 1) v
    | fault r => rfl
    | refused r => rfl

/-- The first bytes of a longer store are a store of their own. -/
theorem storeBytes_append (b : Buf) (xs ys : List Byte) (off : Nat) (s : State) :
    storeBytes b off (xs ++ ys) s = andThen (storeBytes b off xs s) (storeBytes b (off + xs.length) ys) := by
  induction xs generalizing off s with
  | nil => rfl
  | cons x xs ih =>
    simp only [List.cons_append, storeBytes, List.length_cons]
    cases storeByte b off x s with
    | next v =>
      simp only [andThen_next, ih]
      rw [Nat.add_assoc, Nat.add_comm 1]
    | fault r => rfl
    | refused r => rfl

/-- Two emissions in a row are one. -/
theorem emit_append (xs ys : List Byte) (s : State) :
    (andThen (emit xs s) fun t => emit ys t) = emit (xs ++ ys) s := by
  simp only [emit, storeBytes_append]
  cases hx : storeBytes .bout s.enc.op xs s with
  | fault r => rfl
  | refused r => rfl
  | next t =>
    have he : t.enc = s.enc := by rw [storeBytes_eq_next hx]
    simp only [andThen_next]
    rw [storeBytes_enc]
    simp only [he]
    cases hy : storeBytes .bout (s.enc.op + xs.length) ys t with
    | fault r => rfl
    | refused r => rfl
    | next u =>
      have he' : u.enc = s.enc := by rw [storeBytes_eq_next hy, ← he]
      simp only [andThen_next, he', List.length_append, Nat.add_assoc]

/-- The pending run is no part of an emission. -/
theorem emit_run (zs : List Byte) (r : BitVec 6) (u : State) :
    emit zs { u with enc := { u.enc with run := r } } =
      andThen (emit zs u) fun v => .next { v with enc := { v.enc with run := r } } := by
  simp only [emit]
  rw [storeBytes_enc]
  cases hz : storeBytes .bout u.enc.op zs u with
  | fault r => rfl
  | refused r => rfl
  | next v =>
    have hv : v.enc = u.enc := by rw [storeBytes_eq_next hz]
    simp only [andThen_next, hv]

/-- DIFFERING PIXEL is one emission, of the pending bytes and the pixel's own chunk, and the new registers (R88). -/
theorem differingPixel_eq (px : Pixel) (s : State) :
    differingPixel px s =
      andThen (emit (pendingBytes s.enc.run ++ chunkBytes (pixelChunk px s.enc.prev s.enc.cache)) s) fun t =>
        .next { t with enc := { t.enc with run := 0#6, cache := encCache px s.enc.cache, prev := px } } := by
  simp only [differingPixel, flushPending_eq, ← emit_append]
  cases hx : emit (pendingBytes s.enc.run) s with
  | fault r => rfl
  | refused r => rfl
  | next t =>
    have ht := emit_eq_next hx
    have hc : t.enc.cache = s.enc.cache := by rw [ht]
    have hp : t.enc.prev = s.enc.prev := by rw [ht]
    simp only [andThen_next]
    rw [emit_run]
    simp only [hc, hp]
    cases hy : emit (chunkBytes (pixelChunk px s.enc.prev s.enc.cache)) t with
    | fault r => rfl
    | refused r => rfl
    | next u =>
      have hu := emit_eq_next hy
      have hc' : u.enc.cache = s.enc.cache := by rw [hu, ht]
      simp only [andThen_next, hc']

/-- Does this repeated pixel flush the run (R86)? -/
def flushesNow (e : Enc) : Prop := (e.run + 1#6).toNat = 62 ∨ e.i + 1 = e.n

/-- What a LOOP step that completes did (R85, R86, R88): a pixel was fetched and either extended the run, or extended and
flushed it, or went out as its own chunk. -/
theorem encLoop_cases {s t : State} (h : encLoop s = .next t) :
    ∃ px, fetchPixel s.enc.i s = .next px ∧
      ((px = s.enc.prev ∧ ¬ flushesNow s.enc ∧
          t = nextPixel { s with enc := { s.enc with run := s.enc.run + 1#6 } }) ∨
       (px = s.enc.prev ∧ flushesNow s.enc ∧ ∃ u, emit [tagByte 3#2 s.enc.run] s = .next u ∧
          t = nextPixel { u with enc := { u.enc with run := 0#6 } }) ∨
       (px ≠ s.enc.prev ∧ ∃ u,
          emit (pendingBytes s.enc.run ++ chunkBytes (pixelChunk px s.enc.prev s.enc.cache)) s = .next u ∧
          t = nextPixel { u with
            enc := { u.enc with run := 0#6, cache := encCache px s.enc.cache, prev := px } })) := by
  simp only [encLoop, andThen_eq_next, Host.Outcome.next.injEq] at h
  obtain ⟨px, hf, u, hu, rfl⟩ := h
  refine ⟨px, hf, ?_⟩
  split at hu
  · rename_i hp
    have e : s.enc.run + 1#6 - 1#6 = s.enc.run := by simp
    by_cases hfl : flushesNow s.enc
    · refine .inr (.inl ⟨hp, hfl, ?_⟩)
      rw [show runExtend s = flush { s with enc := { s.enc with run := s.enc.run + 1#6 } } from if_pos hfl] at hu
      simp only [flush, chunkBytes, e] at hu
      rw [emit_run] at hu
      simp only [andThen_eq_next, Host.Outcome.next.injEq] at hu
      obtain ⟨v, ⟨w, hw, rfl⟩, rfl⟩ := hu
      exact ⟨w, hw, rfl⟩
    · refine .inl ⟨hp, hfl, ?_⟩
      rw [show runExtend s = .next { s with enc := { s.enc with run := s.enc.run + 1#6 } } from if_neg hfl] at hu
      simp only [Host.Outcome.next.injEq] at hu
      rw [← hu]
  · rename_i hp
    rw [differingPixel_eq, andThen_eq_next] at hu
    obtain ⟨v, hv, hu⟩ := hu
    simp only [Host.Outcome.next.injEq] at hu
    exact .inr (.inr ⟨hp, v, hv, by rw [← hu]⟩)

/-- What a TAIL step that completes did (R95). -/
theorem encTail_cases {s t : State} (h : encTail s = .next t) :
    ∃ u, emit (pendingBytes s.enc.run ++ endMarker) s = .next u ∧
      t = { u with
        encRegs := { u.encRegs with outLen := u.enc.op },
        enc := { u.enc with run := 0#6, phase := .done, err := none } } := by
  simp only [encTail, flushPending_eq, andThen_eq_next, Host.Outcome.next.injEq] at h
  obtain ⟨a, ⟨b, hb, rfl⟩, c, hc, rfl⟩ := h
  rw [emit_run, andThen_eq_next] at hc
  obtain ⟨d, hd, hc⟩ := hc
  simp only [Host.Outcome.next.injEq] at hc
  exact ⟨d, by rw [← emit_append, hb, andThen_next]; exact hd, by rw [← hc]⟩

theorem headerBytes_length (magic : Vector Byte 4) (w h : Word) (ch cs : Byte) :
    (headerBytes magic w h ch cs).length = 14 := by
  simp [headerBytes, wordBytes]

/-- What VALIDATE did when it completed: a failing check, or the header written (R83). -/
theorem encValidate_cases {s t : State} (h : encValidate s = .next t) :
    (∃ e, encError s = some e ∧ t = raiseEnc e s) ∨
    (encError s = none ∧ encCapacity s.enc.w s.enc.h s.enc.ch ≤ s.bufs.bout.cap ∧ FreeAt s .bout 0 14 ∧
      t = { setUpEnc s with
        mem := s.mem.writeAll (bufAddr s .bout 0) (headerBytes s.cfg.magic s.enc.w s.enc.h s.enc.ch s.enc.cs),
        enc := { (setUpEnc s).enc with op := 14, phase := .loop } }) := by
  simp only [encValidate] at h
  split at h
  · rename_i e he
    simp only [Host.Outcome.next.injEq] at h
    exact .inl ⟨e, he, h.symm⟩
  · rename_i he
    split at h
    · simp at h
    · rename_i hc
      simp only [writeHeader, andThen_eq_next, Host.Outcome.next.injEq] at h
      obtain ⟨a, ⟨b, hb, rfl⟩, rfl⟩ := h
      have hf := (storeBytes_next_fits hb).2
      rw [headerBytes_length] at hf
      refine .inr ⟨he, by omega, hf, ?_⟩
      rw [storeBytes_eq_next hb]
      rfl

/-- VALIDATE past its checks and with the capacity of R42 is the store of the header, then LOOP (R71, R83). -/
theorem encValidate_eq (s : State) (he : encError s = none)
    (hc : encCapacity s.enc.w s.enc.h s.enc.ch ≤ s.bufs.bout.cap) :
    encValidate s = andThen (storeBytes .bout 0 (headerBytes s.cfg.magic s.enc.w s.enc.h s.enc.ch s.enc.cs) (setUpEnc s))
      fun t => .next { t with enc := { t.enc with op := 14, phase := .loop } } := by
  simp only [encValidate, he, if_neg (Nat.not_lt.mpr hc), writeHeader]
  show andThen (andThen (storeBytes .bout 0 (headerBytes s.cfg.magic s.enc.w s.enc.h s.enc.ch s.enc.cs) (setUpEnc s)) _) _ = _
  cases storeBytes .bout 0 (headerBytes s.cfg.magic s.enc.w s.enc.h s.enc.ch s.enc.cs) (setUpEnc s) <;> rfl

/-- VALIDATE with room completes. -/
theorem encValidate_runs (s : State) (he : encError s = none)
    (hc : encCapacity s.enc.w s.enc.h s.enc.ch ≤ s.bufs.bout.cap) (hf : FreeAt s .bout 0 14) :
    ∃ t, encValidate s = .next t := by
  rw [encValidate_eq s he hc, storeBytes_fits .bout _ 0 (setUpEnc s)
    (by rw [headerBytes_length]; simp only [encCapacity] at hc; show 0 + 14 ≤ s.bufs.bout.cap; omega)
    (by rw [headerBytes_length]; exact hf)]
  exact ⟨_, rfl⟩

/-- What a fetched pixel is (R84). -/
theorem fetchPixel_cases {i : Nat} {s : State} {px : Pixel} (h : fetchPixel i s = .next px) :
    GetsPixel s .pin (i * s.enc.ch.toNat) s.enc.ch px ∧ (s.enc.ch ≠ 4#8 → px.a = 255#8) := by
  have byte {b : Buf} {off : Nat} {v : Byte} (hv : loadByte b off s = .next v) := loadByte_eq_next.mp hv
  simp only [fetchPixel, andThen_eq_next] at h
  obtain ⟨r, hr, g, hg, b, hb, h⟩ := h
  split at h
  · rename_i h4
    rw [andThen_eq_next] at h
    obtain ⟨a, ha, h⟩ := h
    simp only [Host.Outcome.next.injEq] at h
    subst h
    exact ⟨⟨byte hr, byte hg, byte hb, fun _ => byte ha⟩, fun hn => absurd h4 hn⟩
  · rename_i h4
    simp only [Host.Outcome.next.injEq] at h
    subst h
    exact ⟨⟨byte hr, byte hg, byte hb, fun h => absurd h h4⟩, fun _ => rfl⟩

/-- The chunk the encoder picks has 1 to `ch + 1` bytes (R91, R96). -/
theorem pixelChunk_length (px p : Pixel) (c : PixelCache) :
    1 ≤ (chunkBytes (pixelChunk px p c)).length ∧ (chunkBytes (pixelChunk px p c)).length ≤ 5 ∧
      (px.a = p.a → (chunkBytes (pixelChunk px p c)).length ≤ 4) := by
  simp only [pixelChunk]
  split
  · simp [chunkBytes]
  · simp only [classify]
    split
    · rename_i h; simp [chunkBytes, h]
    · split
      · simp [chunkBytes]
      · split <;> simp [chunkBytes]

end Sys2Proof.Machine
end

