-- ==== Sys2Proof/Laws/State.lean ====
section
/-! SUPPORT. One lemma for each field of the state under each named update. -/

namespace Sys2Proof.Machine

/-! ### `raiseEnc` -/

@[simp] theorem raiseEnc_cfg (e : Err) (s : State) : (raiseEnc e s).cfg = s.cfg := rfl
@[simp] theorem raiseEnc_enc_phase (e : Err) (s : State) : (raiseEnc e s).enc.phase = .error := rfl
@[simp] theorem raiseEnc_enc_err (e : Err) (s : State) : (raiseEnc e s).enc.err = some e := rfl
@[simp] theorem raiseEnc_enc_w (e : Err) (s : State) : (raiseEnc e s).enc.w = s.enc.w := rfl
@[simp] theorem raiseEnc_enc_h (e : Err) (s : State) : (raiseEnc e s).enc.h = s.enc.h := rfl
@[simp] theorem raiseEnc_enc_ch (e : Err) (s : State) : (raiseEnc e s).enc.ch = s.enc.ch := rfl
@[simp] theorem raiseEnc_enc_cs (e : Err) (s : State) : (raiseEnc e s).enc.cs = s.enc.cs := rfl
@[simp] theorem raiseEnc_enc_plen (e : Err) (s : State) : (raiseEnc e s).enc.plen = s.enc.plen := rfl
@[simp] theorem raiseEnc_enc_n (e : Err) (s : State) : (raiseEnc e s).enc.n = s.enc.n := rfl
@[simp] theorem raiseEnc_enc_i (e : Err) (s : State) : (raiseEnc e s).enc.i = s.enc.i := rfl
@[simp] theorem raiseEnc_enc_op (e : Err) (s : State) : (raiseEnc e s).enc.op = s.enc.op := rfl
@[simp] theorem raiseEnc_enc_prev (e : Err) (s : State) : (raiseEnc e s).enc.prev = s.enc.prev := rfl
@[simp] theorem raiseEnc_enc_run (e : Err) (s : State) : (raiseEnc e s).enc.run = s.enc.run := rfl
@[simp] theorem raiseEnc_enc_cache (e : Err) (s : State) : (raiseEnc e s).enc.cache = s.enc.cache := rfl
@[simp] theorem raiseEnc_dec (e : Err) (s : State) : (raiseEnc e s).dec = s.dec := rfl
@[simp] theorem raiseEnc_encRegs (e : Err) (s : State) : (raiseEnc e s).encRegs = s.encRegs := rfl
@[simp] theorem raiseEnc_decRegs (e : Err) (s : State) : (raiseEnc e s).decRegs = s.decRegs := rfl
@[simp] theorem raiseEnc_bufs (e : Err) (s : State) : (raiseEnc e s).bufs = s.bufs := rfl
@[simp] theorem raiseEnc_mem (e : Err) (s : State) : (raiseEnc e s).mem = s.mem := rfl
@[simp] theorem raiseEnc_script (e : Err) (s : State) : (raiseEnc e s).script = s.script := rfl
@[simp] theorem raiseEnc_rdata (e : Err) (s : State) : (raiseEnc e s).rdata = s.rdata := rfl
@[simp] theorem raiseEnc_freeCount (e : Err) (s : State) : (raiseEnc e s).freeCount = s.freeCount := rfl

/-! ### `raiseDec` -/

@[simp] theorem raiseDec_cfg (e : Err) (s : State) : (raiseDec e s).cfg = s.cfg := rfl
@[simp] theorem raiseDec_enc (e : Err) (s : State) : (raiseDec e s).enc = s.enc := rfl
@[simp] theorem raiseDec_dec_phase (e : Err) (s : State) : (raiseDec e s).dec.phase = .error := rfl
@[simp] theorem raiseDec_dec_err (e : Err) (s : State) : (raiseDec e s).dec.err = some e := rfl
@[simp] theorem raiseDec_dec_len (e : Err) (s : State) : (raiseDec e s).dec.len = s.dec.len := rfl
@[simp] theorem raiseDec_dec_w (e : Err) (s : State) : (raiseDec e s).dec.w = s.dec.w := rfl
@[simp] theorem raiseDec_dec_h (e : Err) (s : State) : (raiseDec e s).dec.h = s.dec.h := rfl
@[simp] theorem raiseDec_dec_ch (e : Err) (s : State) : (raiseDec e s).dec.ch = s.dec.ch := rfl
@[simp] theorem raiseDec_dec_cs (e : Err) (s : State) : (raiseDec e s).dec.cs = s.dec.cs := rfl
@[simp] theorem raiseDec_dec_n (e : Err) (s : State) : (raiseDec e s).dec.n = s.dec.n := rfl
@[simp] theorem raiseDec_dec_stop (e : Err) (s : State) : (raiseDec e s).dec.stop = s.dec.stop := rfl
@[simp] theorem raiseDec_dec_ip (e : Err) (s : State) : (raiseDec e s).dec.ip = s.dec.ip := rfl
@[simp] theorem raiseDec_dec_k (e : Err) (s : State) : (raiseDec e s).dec.k = s.dec.k := rfl
@[simp] theorem raiseDec_dec_prev (e : Err) (s : State) : (raiseDec e s).dec.prev = s.dec.prev := rfl
@[simp] theorem raiseDec_dec_run (e : Err) (s : State) : (raiseDec e s).dec.run = s.dec.run := rfl
@[simp] theorem raiseDec_dec_cache (e : Err) (s : State) : (raiseDec e s).dec.cache = s.dec.cache := rfl
@[simp] theorem raiseDec_encRegs (e : Err) (s : State) : (raiseDec e s).encRegs = s.encRegs := rfl
@[simp] theorem raiseDec_decRegs (e : Err) (s : State) : (raiseDec e s).decRegs = s.decRegs := rfl
@[simp] theorem raiseDec_bufs (e : Err) (s : State) : (raiseDec e s).bufs = s.bufs := rfl
@[simp] theorem raiseDec_mem (e : Err) (s : State) : (raiseDec e s).mem =
    s.mem.freeIf s.bufs.pout.has (Config.leftByte s.freeCount) := rfl
@[simp] theorem raiseDec_script (e : Err) (s : State) : (raiseDec e s).script = s.script := rfl
@[simp] theorem raiseDec_rdata (e : Err) (s : State) : (raiseDec e s).rdata = s.rdata := rfl
@[simp] theorem raiseDec_freeCount (e : Err) (s : State) : (raiseDec e s).freeCount = s.freeCount := rfl

/-! ### `beginEnc` -/

@[simp] theorem beginEnc_cfg (s : State) : (beginEnc s).cfg = s.cfg := rfl
@[simp] theorem beginEnc_enc_phase (s : State) : (beginEnc s).enc.phase = .validate := rfl
@[simp] theorem beginEnc_enc_err (s : State) : (beginEnc s).enc.err = none := rfl
@[simp] theorem beginEnc_enc_w (s : State) : (beginEnc s).enc.w = s.encRegs.width := rfl
@[simp] theorem beginEnc_enc_h (s : State) : (beginEnc s).enc.h = s.encRegs.height := rfl
@[simp] theorem beginEnc_enc_ch (s : State) : (beginEnc s).enc.ch = s.encRegs.channels := rfl
@[simp] theorem beginEnc_enc_cs (s : State) : (beginEnc s).enc.cs = s.encRegs.colorspace := rfl
@[simp] theorem beginEnc_enc_plen (s : State) : (beginEnc s).enc.plen = s.encRegs.inLen := rfl
@[simp] theorem beginEnc_enc_n (s : State) : (beginEnc s).enc.n = s.enc.n := rfl
@[simp] theorem beginEnc_enc_i (s : State) : (beginEnc s).enc.i = s.enc.i := rfl
@[simp] theorem beginEnc_enc_op (s : State) : (beginEnc s).enc.op = s.enc.op := rfl
@[simp] theorem beginEnc_enc_prev (s : State) : (beginEnc s).enc.prev = s.enc.prev := rfl
@[simp] theorem beginEnc_enc_run (s : State) : (beginEnc s).enc.run = s.enc.run := rfl
@[simp] theorem beginEnc_enc_cache (s : State) : (beginEnc s).enc.cache = s.enc.cache := rfl
@[simp] theorem beginEnc_dec (s : State) : (beginEnc s).dec = s.dec := rfl
@[simp] theorem beginEnc_encRegs (s : State) : (beginEnc s).encRegs = { s.encRegs with outLen := 0 } := rfl
@[simp] theorem beginEnc_decRegs (s : State) : (beginEnc s).decRegs = s.decRegs := rfl
@[simp] theorem beginEnc_bufs (s : State) : (beginEnc s).bufs = s.bufs := rfl
@[simp] theorem beginEnc_mem (s : State) : (beginEnc s).mem = s.mem := rfl
@[simp] theorem beginEnc_script (s : State) : (beginEnc s).script = s.script := rfl
@[simp] theorem beginEnc_rdata (s : State) : (beginEnc s).rdata = s.rdata := rfl
@[simp] theorem beginEnc_freeCount (s : State) : (beginEnc s).freeCount = s.freeCount + 1 := rfl

/-! ### `beginDec` -/

@[simp] theorem beginDec_cfg (s : State) : (beginDec s).cfg = s.cfg := rfl
@[simp] theorem beginDec_enc (s : State) : (beginDec s).enc = s.enc := rfl
@[simp] theorem beginDec_dec_phase (s : State) : (beginDec s).dec.phase = .header := rfl
@[simp] theorem beginDec_dec_err (s : State) : (beginDec s).dec.err = none := rfl
@[simp] theorem beginDec_dec_len (s : State) : (beginDec s).dec.len = s.decRegs.inLen := rfl
@[simp] theorem beginDec_dec_w (s : State) : (beginDec s).dec.w = s.dec.w := rfl
@[simp] theorem beginDec_dec_h (s : State) : (beginDec s).dec.h = s.dec.h := rfl
@[simp] theorem beginDec_dec_ch (s : State) : (beginDec s).dec.ch = s.dec.ch := rfl
@[simp] theorem beginDec_dec_cs (s : State) : (beginDec s).dec.cs = s.dec.cs := rfl
@[simp] theorem beginDec_dec_n (s : State) : (beginDec s).dec.n = s.dec.n := rfl
@[simp] theorem beginDec_dec_stop (s : State) : (beginDec s).dec.stop = s.dec.stop := rfl
@[simp] theorem beginDec_dec_ip (s : State) : (beginDec s).dec.ip = s.dec.ip := rfl
@[simp] theorem beginDec_dec_k (s : State) : (beginDec s).dec.k = s.dec.k := rfl
@[simp] theorem beginDec_dec_prev (s : State) : (beginDec s).dec.prev = s.dec.prev := rfl
@[simp] theorem beginDec_dec_run (s : State) : (beginDec s).dec.run = s.dec.run := rfl
@[simp] theorem beginDec_dec_cache (s : State) : (beginDec s).dec.cache = s.dec.cache := rfl
@[simp] theorem beginDec_encRegs (s : State) : (beginDec s).encRegs = s.encRegs := rfl
@[simp] theorem beginDec_decRegs (s : State) : (beginDec s).decRegs = { s.decRegs with width := 0#32, height := 0#32, channels := 0#8, colorspace := 0#8, outLen := 0 } := rfl
@[simp] theorem beginDec_bufs (s : State) : (beginDec s).bufs = s.bufs := rfl
@[simp] theorem beginDec_mem (s : State) : (beginDec s).mem = s.mem := rfl
@[simp] theorem beginDec_script (s : State) : (beginDec s).script = s.script := rfl
@[simp] theorem beginDec_rdata (s : State) : (beginDec s).rdata = s.rdata := rfl
@[simp] theorem beginDec_freeCount (s : State) : (beginDec s).freeCount = s.freeCount + 1 := rfl

/-! ### `advance` -/

@[simp] theorem advance_cfg (len : Nat) (s : State) : (advance len s).cfg = s.cfg := rfl
@[simp] theorem advance_enc (len : Nat) (s : State) : (advance len s).enc = s.enc := rfl
@[simp] theorem advance_dec_phase (len : Nat) (s : State) : (advance len s).dec.phase = s.dec.phase := rfl
@[simp] theorem advance_dec_err (len : Nat) (s : State) : (advance len s).dec.err = s.dec.err := rfl
@[simp] theorem advance_dec_len (len : Nat) (s : State) : (advance len s).dec.len = s.dec.len := rfl
@[simp] theorem advance_dec_w (len : Nat) (s : State) : (advance len s).dec.w = s.dec.w := rfl
@[simp] theorem advance_dec_h (len : Nat) (s : State) : (advance len s).dec.h = s.dec.h := rfl
@[simp] theorem advance_dec_ch (len : Nat) (s : State) : (advance len s).dec.ch = s.dec.ch := rfl
@[simp] theorem advance_dec_cs (len : Nat) (s : State) : (advance len s).dec.cs = s.dec.cs := rfl
@[simp] theorem advance_dec_n (len : Nat) (s : State) : (advance len s).dec.n = s.dec.n := rfl
@[simp] theorem advance_dec_stop (len : Nat) (s : State) : (advance len s).dec.stop = s.dec.stop := rfl
@[simp] theorem advance_dec_ip (len : Nat) (s : State) : (advance len s).dec.ip = s.dec.ip + len := rfl
@[simp] theorem advance_dec_k (len : Nat) (s : State) : (advance len s).dec.k = s.dec.k := rfl
@[simp] theorem advance_dec_prev (len : Nat) (s : State) : (advance len s).dec.prev = s.dec.prev := rfl
@[simp] theorem advance_dec_run (len : Nat) (s : State) : (advance len s).dec.run = s.dec.run := rfl
@[simp] theorem advance_dec_cache (len : Nat) (s : State) : (advance len s).dec.cache = s.dec.cache := rfl
@[simp] theorem advance_encRegs (len : Nat) (s : State) : (advance len s).encRegs = s.encRegs := rfl
@[simp] theorem advance_decRegs (len : Nat) (s : State) : (advance len s).decRegs = s.decRegs := rfl
@[simp] theorem advance_bufs (len : Nat) (s : State) : (advance len s).bufs = s.bufs := rfl
@[simp] theorem advance_mem (len : Nat) (s : State) : (advance len s).mem = s.mem := rfl
@[simp] theorem advance_script (len : Nat) (s : State) : (advance len s).script = s.script := rfl
@[simp] theorem advance_rdata (len : Nat) (s : State) : (advance len s).rdata = s.rdata := rfl
@[simp] theorem advance_freeCount (len : Nat) (s : State) : (advance len s).freeCount = s.freeCount := rfl

/-! ### `commit` -/

@[simp] theorem commit_cfg (px : Pixel) (s : State) : (commit px s).cfg = s.cfg := rfl
@[simp] theorem commit_enc (px : Pixel) (s : State) : (commit px s).enc = s.enc := rfl
@[simp] theorem commit_dec_phase (px : Pixel) (s : State) : (commit px s).dec.phase = s.dec.phase := rfl
@[simp] theorem commit_dec_err (px : Pixel) (s : State) : (commit px s).dec.err = s.dec.err := rfl
@[simp] theorem commit_dec_len (px : Pixel) (s : State) : (commit px s).dec.len = s.dec.len := rfl
@[simp] theorem commit_dec_w (px : Pixel) (s : State) : (commit px s).dec.w = s.dec.w := rfl
@[simp] theorem commit_dec_h (px : Pixel) (s : State) : (commit px s).dec.h = s.dec.h := rfl
@[simp] theorem commit_dec_ch (px : Pixel) (s : State) : (commit px s).dec.ch = s.dec.ch := rfl
@[simp] theorem commit_dec_cs (px : Pixel) (s : State) : (commit px s).dec.cs = s.dec.cs := rfl
@[simp] theorem commit_dec_n (px : Pixel) (s : State) : (commit px s).dec.n = s.dec.n := rfl
@[simp] theorem commit_dec_stop (px : Pixel) (s : State) : (commit px s).dec.stop = s.dec.stop := rfl
@[simp] theorem commit_dec_ip (px : Pixel) (s : State) : (commit px s).dec.ip = s.dec.ip := rfl
@[simp] theorem commit_dec_k (px : Pixel) (s : State) : (commit px s).dec.k = s.dec.k := rfl
@[simp] theorem commit_dec_prev (px : Pixel) (s : State) : (commit px s).dec.prev = px := rfl
@[simp] theorem commit_dec_run (px : Pixel) (s : State) : (commit px s).dec.run = s.dec.run := rfl
@[simp] theorem commit_dec_cache (px : Pixel) (s : State) : (commit px s).dec.cache = cachePut s.dec.cache (hash px) px := rfl
@[simp] theorem commit_encRegs (px : Pixel) (s : State) : (commit px s).encRegs = s.encRegs := rfl
@[simp] theorem commit_decRegs (px : Pixel) (s : State) : (commit px s).decRegs = s.decRegs := rfl
@[simp] theorem commit_bufs (px : Pixel) (s : State) : (commit px s).bufs = s.bufs := rfl
@[simp] theorem commit_mem (px : Pixel) (s : State) : (commit px s).mem = s.mem := rfl
@[simp] theorem commit_script (px : Pixel) (s : State) : (commit px s).script = s.script := rfl
@[simp] theorem commit_rdata (px : Pixel) (s : State) : (commit px s).rdata = s.rdata := rfl
@[simp] theorem commit_freeCount (px : Pixel) (s : State) : (commit px s).freeCount = s.freeCount := rfl

/-! ### `setRun` -/

@[simp] theorem setRun_cfg (l : BitVec 6) (s : State) : (setRun l s).cfg = s.cfg := rfl
@[simp] theorem setRun_enc (l : BitVec 6) (s : State) : (setRun l s).enc = s.enc := rfl
@[simp] theorem setRun_dec_phase (l : BitVec 6) (s : State) : (setRun l s).dec.phase = s.dec.phase := rfl
@[simp] theorem setRun_dec_err (l : BitVec 6) (s : State) : (setRun l s).dec.err = s.dec.err := rfl
@[simp] theorem setRun_dec_len (l : BitVec 6) (s : State) : (setRun l s).dec.len = s.dec.len := rfl
@[simp] theorem setRun_dec_w (l : BitVec 6) (s : State) : (setRun l s).dec.w = s.dec.w := rfl
@[simp] theorem setRun_dec_h (l : BitVec 6) (s : State) : (setRun l s).dec.h = s.dec.h := rfl
@[simp] theorem setRun_dec_ch (l : BitVec 6) (s : State) : (setRun l s).dec.ch = s.dec.ch := rfl
@[simp] theorem setRun_dec_cs (l : BitVec 6) (s : State) : (setRun l s).dec.cs = s.dec.cs := rfl
@[simp] theorem setRun_dec_n (l : BitVec 6) (s : State) : (setRun l s).dec.n = s.dec.n := rfl
@[simp] theorem setRun_dec_stop (l : BitVec 6) (s : State) : (setRun l s).dec.stop = s.dec.stop := rfl
@[simp] theorem setRun_dec_ip (l : BitVec 6) (s : State) : (setRun l s).dec.ip = s.dec.ip := rfl
@[simp] theorem setRun_dec_k (l : BitVec 6) (s : State) : (setRun l s).dec.k = s.dec.k := rfl
@[simp] theorem setRun_dec_prev (l : BitVec 6) (s : State) : (setRun l s).dec.prev = s.dec.prev := rfl
@[simp] theorem setRun_dec_run (l : BitVec 6) (s : State) : (setRun l s).dec.run = l := rfl
@[simp] theorem setRun_dec_cache (l : BitVec 6) (s : State) : (setRun l s).dec.cache = s.dec.cache := rfl
@[simp] theorem setRun_encRegs (l : BitVec 6) (s : State) : (setRun l s).encRegs = s.encRegs := rfl
@[simp] theorem setRun_decRegs (l : BitVec 6) (s : State) : (setRun l s).decRegs = s.decRegs := rfl
@[simp] theorem setRun_bufs (l : BitVec 6) (s : State) : (setRun l s).bufs = s.bufs := rfl
@[simp] theorem setRun_mem (l : BitVec 6) (s : State) : (setRun l s).mem = s.mem := rfl
@[simp] theorem setRun_script (l : BitVec 6) (s : State) : (setRun l s).script = s.script := rfl
@[simp] theorem setRun_rdata (l : BitVec 6) (s : State) : (setRun l s).rdata = s.rdata := rfl
@[simp] theorem setRun_freeCount (l : BitVec 6) (s : State) : (setRun l s).freeCount = s.freeCount := rfl

/-! ### `setUpEnc` -/

@[simp] theorem setUpEnc_cfg (s : State) : (setUpEnc s).cfg = s.cfg := rfl
@[simp] theorem setUpEnc_enc_phase (s : State) : (setUpEnc s).enc.phase = s.enc.phase := rfl
@[simp] theorem setUpEnc_enc_err (s : State) : (setUpEnc s).enc.err = s.enc.err := rfl
@[simp] theorem setUpEnc_enc_w (s : State) : (setUpEnc s).enc.w = s.enc.w := rfl
@[simp] theorem setUpEnc_enc_h (s : State) : (setUpEnc s).enc.h = s.enc.h := rfl
@[simp] theorem setUpEnc_enc_ch (s : State) : (setUpEnc s).enc.ch = s.enc.ch := rfl
@[simp] theorem setUpEnc_enc_cs (s : State) : (setUpEnc s).enc.cs = s.enc.cs := rfl
@[simp] theorem setUpEnc_enc_plen (s : State) : (setUpEnc s).enc.plen = s.enc.plen := rfl
@[simp] theorem setUpEnc_enc_n (s : State) : (setUpEnc s).enc.n = s.enc.w.toNat * s.enc.h.toNat := rfl
@[simp] theorem setUpEnc_enc_i (s : State) : (setUpEnc s).enc.i = 0 := rfl
@[simp] theorem setUpEnc_enc_op (s : State) : (setUpEnc s).enc.op = s.enc.op := rfl
@[simp] theorem setUpEnc_enc_prev (s : State) : (setUpEnc s).enc.prev = prevInit := rfl
@[simp] theorem setUpEnc_enc_run (s : State) : (setUpEnc s).enc.run = 0#6 := rfl
@[simp] theorem setUpEnc_enc_cache (s : State) : (setUpEnc s).enc.cache = freshCache := rfl
@[simp] theorem setUpEnc_dec (s : State) : (setUpEnc s).dec = s.dec := rfl
@[simp] theorem setUpEnc_encRegs (s : State) : (setUpEnc s).encRegs = s.encRegs := rfl
@[simp] theorem setUpEnc_decRegs (s : State) : (setUpEnc s).decRegs = s.decRegs := rfl
@[simp] theorem setUpEnc_bufs (s : State) : (setUpEnc s).bufs = s.bufs := rfl
@[simp] theorem setUpEnc_mem (s : State) : (setUpEnc s).mem = s.mem := rfl
@[simp] theorem setUpEnc_script (s : State) : (setUpEnc s).script = s.script := rfl
@[simp] theorem setUpEnc_rdata (s : State) : (setUpEnc s).rdata = s.rdata := rfl
@[simp] theorem setUpEnc_freeCount (s : State) : (setUpEnc s).freeCount = s.freeCount := rfl

/-! ### `nextPixel` -/

@[simp] theorem nextPixel_cfg (s : State) : (nextPixel s).cfg = s.cfg := rfl
@[simp] theorem nextPixel_enc_phase (s : State) : (nextPixel s).enc.phase = if s.enc.i + 1 = s.enc.n then .tail else s.enc.phase := rfl
@[simp] theorem nextPixel_enc_err (s : State) : (nextPixel s).enc.err = s.enc.err := rfl
@[simp] theorem nextPixel_enc_w (s : State) : (nextPixel s).enc.w = s.enc.w := rfl
@[simp] theorem nextPixel_enc_h (s : State) : (nextPixel s).enc.h = s.enc.h := rfl
@[simp] theorem nextPixel_enc_ch (s : State) : (nextPixel s).enc.ch = s.enc.ch := rfl
@[simp] theorem nextPixel_enc_cs (s : State) : (nextPixel s).enc.cs = s.enc.cs := rfl
@[simp] theorem nextPixel_enc_plen (s : State) : (nextPixel s).enc.plen = s.enc.plen := rfl
@[simp] theorem nextPixel_enc_n (s : State) : (nextPixel s).enc.n = s.enc.n := rfl
@[simp] theorem nextPixel_enc_i (s : State) : (nextPixel s).enc.i = s.enc.i + 1 := rfl
@[simp] theorem nextPixel_enc_op (s : State) : (nextPixel s).enc.op = s.enc.op := rfl
@[simp] theorem nextPixel_enc_prev (s : State) : (nextPixel s).enc.prev = s.enc.prev := rfl
@[simp] theorem nextPixel_enc_run (s : State) : (nextPixel s).enc.run = s.enc.run := rfl
@[simp] theorem nextPixel_enc_cache (s : State) : (nextPixel s).enc.cache = s.enc.cache := rfl
@[simp] theorem nextPixel_dec (s : State) : (nextPixel s).dec = s.dec := rfl
@[simp] theorem nextPixel_encRegs (s : State) : (nextPixel s).encRegs = s.encRegs := rfl
@[simp] theorem nextPixel_decRegs (s : State) : (nextPixel s).decRegs = s.decRegs := rfl
@[simp] theorem nextPixel_bufs (s : State) : (nextPixel s).bufs = s.bufs := rfl
@[simp] theorem nextPixel_mem (s : State) : (nextPixel s).mem = s.mem := rfl
@[simp] theorem nextPixel_script (s : State) : (nextPixel s).script = s.script := rfl
@[simp] theorem nextPixel_rdata (s : State) : (nextPixel s).rdata = s.rdata := rfl
@[simp] theorem nextPixel_freeCount (s : State) : (nextPixel s).freeCount = s.freeCount := rfl

/-! ### `readHeader` -/

@[simp] theorem readHeader_cfg (x : Header) (s : State) : (readHeader x s).cfg = s.cfg := rfl
@[simp] theorem readHeader_enc (x : Header) (s : State) : (readHeader x s).enc = s.enc := rfl
@[simp] theorem readHeader_dec_phase (x : Header) (s : State) : (readHeader x s).dec.phase = s.dec.phase := rfl
@[simp] theorem readHeader_dec_err (x : Header) (s : State) : (readHeader x s).dec.err = s.dec.err := rfl
@[simp] theorem readHeader_dec_len (x : Header) (s : State) : (readHeader x s).dec.len = s.dec.len := rfl
@[simp] theorem readHeader_dec_w (x : Header) (s : State) : (readHeader x s).dec.w = x.w := rfl
@[simp] theorem readHeader_dec_h (x : Header) (s : State) : (readHeader x s).dec.h = x.h := rfl
@[simp] theorem readHeader_dec_ch (x : Header) (s : State) : (readHeader x s).dec.ch = x.ch := rfl
@[simp] theorem readHeader_dec_cs (x : Header) (s : State) : (readHeader x s).dec.cs = x.cs := rfl
@[simp] theorem readHeader_dec_n (x : Header) (s : State) : (readHeader x s).dec.n = s.dec.n := rfl
@[simp] theorem readHeader_dec_stop (x : Header) (s : State) : (readHeader x s).dec.stop = s.dec.stop := rfl
@[simp] theorem readHeader_dec_ip (x : Header) (s : State) : (readHeader x s).dec.ip = s.dec.ip := rfl
@[simp] theorem readHeader_dec_k (x : Header) (s : State) : (readHeader x s).dec.k = s.dec.k := rfl
@[simp] theorem readHeader_dec_prev (x : Header) (s : State) : (readHeader x s).dec.prev = s.dec.prev := rfl
@[simp] theorem readHeader_dec_run (x : Header) (s : State) : (readHeader x s).dec.run = s.dec.run := rfl
@[simp] theorem readHeader_dec_cache (x : Header) (s : State) : (readHeader x s).dec.cache = s.dec.cache := rfl
@[simp] theorem readHeader_encRegs (x : Header) (s : State) : (readHeader x s).encRegs = s.encRegs := rfl
@[simp] theorem readHeader_decRegs (x : Header) (s : State) : (readHeader x s).decRegs = s.decRegs := rfl
@[simp] theorem readHeader_bufs (x : Header) (s : State) : (readHeader x s).bufs = s.bufs := rfl
@[simp] theorem readHeader_mem (x : Header) (s : State) : (readHeader x s).mem = s.mem := rfl
@[simp] theorem readHeader_script (x : Header) (s : State) : (readHeader x s).script = s.script := rfl
@[simp] theorem readHeader_rdata (x : Header) (s : State) : (readHeader x s).rdata = s.rdata := rfl
@[simp] theorem readHeader_freeCount (x : Header) (s : State) : (readHeader x s).freeCount = s.freeCount := rfl

/-! ### `setUpDec` -/

@[simp] theorem setUpDec_cfg (s : State) : (setUpDec s).cfg = s.cfg := rfl
@[simp] theorem setUpDec_enc (s : State) : (setUpDec s).enc = s.enc := rfl
@[simp] theorem setUpDec_dec_phase (s : State) : (setUpDec s).dec.phase = .loop := rfl
@[simp] theorem setUpDec_dec_err (s : State) : (setUpDec s).dec.err = s.dec.err := rfl
@[simp] theorem setUpDec_dec_len (s : State) : (setUpDec s).dec.len = s.dec.len := rfl
@[simp] theorem setUpDec_dec_w (s : State) : (setUpDec s).dec.w = s.dec.w := rfl
@[simp] theorem setUpDec_dec_h (s : State) : (setUpDec s).dec.h = s.dec.h := rfl
@[simp] theorem setUpDec_dec_ch (s : State) : (setUpDec s).dec.ch = s.dec.ch := rfl
@[simp] theorem setUpDec_dec_cs (s : State) : (setUpDec s).dec.cs = s.dec.cs := rfl
@[simp] theorem setUpDec_dec_n (s : State) : (setUpDec s).dec.n = s.dec.w.toNat * s.dec.h.toNat := rfl
@[simp] theorem setUpDec_dec_stop (s : State) : (setUpDec s).dec.stop = s.dec.len - endSize := rfl
@[simp] theorem setUpDec_dec_ip (s : State) : (setUpDec s).dec.ip = headerSize := rfl
@[simp] theorem setUpDec_dec_k (s : State) : (setUpDec s).dec.k = 0 := rfl
@[simp] theorem setUpDec_dec_prev (s : State) : (setUpDec s).dec.prev = prevInit := rfl
@[simp] theorem setUpDec_dec_run (s : State) : (setUpDec s).dec.run = 0#6 := rfl
@[simp] theorem setUpDec_dec_cache (s : State) : (setUpDec s).dec.cache = freshCache := rfl
@[simp] theorem setUpDec_encRegs (s : State) : (setUpDec s).encRegs = s.encRegs := rfl
@[simp] theorem setUpDec_decRegs (s : State) : (setUpDec s).decRegs = s.decRegs := rfl
@[simp] theorem setUpDec_bufs (s : State) : (setUpDec s).bufs = s.bufs := rfl
@[simp] theorem setUpDec_mem (s : State) : (setUpDec s).mem = s.mem := rfl
@[simp] theorem setUpDec_script (s : State) : (setUpDec s).script = s.script := rfl
@[simp] theorem setUpDec_rdata (s : State) : (setUpDec s).rdata = s.rdata := rfl
@[simp] theorem setUpDec_freeCount (s : State) : (setUpDec s).freeCount = s.freeCount := rfl

/-! ### `hardReset` -/

@[simp] theorem hardReset_cfg (s : State) : (hardReset s).cfg = s.cfg := rfl
@[simp] theorem hardReset_enc (s : State) : (hardReset s).enc = Enc.reset := rfl
@[simp] theorem hardReset_dec (s : State) : (hardReset s).dec = Dec.reset := rfl
@[simp] theorem hardReset_encRegs (s : State) : (hardReset s).encRegs = EncRegs.reset := rfl
@[simp] theorem hardReset_decRegs (s : State) : (hardReset s).decRegs = DecRegs.reset := rfl
@[simp] theorem hardReset_bufs (s : State) : (hardReset s).bufs = s.bufs := rfl
@[simp] theorem hardReset_mem (s : State) : (hardReset s).mem =
    s.mem.freeIf (fun a => encWrote s a || decWrote s a) (Config.leftByte s.freeCount) := rfl
@[simp] theorem hardReset_script (s : State) : (hardReset s).script = s.script := rfl
@[simp] theorem hardReset_rdata (s : State) : (hardReset s).rdata = s.rdata := rfl
@[simp] theorem hardReset_freeCount (s : State) : (hardReset s).freeCount = s.freeCount + 1 := rfl

/-! ### Regions -/

@[simp] theorem BufMap.get_set (m : BufMap) (b c : Buf) (r : Region) :
    (m.set b r).get c = if c = b then r else m.get c := by
  cases b <;> cases c <;> rfl

/-! ### `finish` (R112) -/

theorem finish_last (s : State) (h : s.dec.k = s.dec.n) :
    finish s = { s with
      decRegs := { s.decRegs with
        width := s.dec.w, height := s.dec.h, channels := s.dec.ch, colorspace := s.dec.cs,
        outLen := s.dec.n * s.dec.ch.toNat },
      dec := { s.dec with phase := .done, err := none } } := if_pos h

theorem finish_more (s : State) (h : s.dec.k ≠ s.dec.n) : finish s = s := if_neg h

end Sys2Proof.Machine
end

