-- ==== Sys2Proof/Laws/Host.lean ====
section
/-! SUPPORT. Laws of the host's register accesses by address (`REG_MAP`). -/

namespace Sys2Proof.Machine

/-! ### The map -/

/-- The addresses of the map are those of the registers. -/
theorem regMap_addrs (m : Config.RegMap) : m.addrs = regs.map (regAddr m) := rfl

/-- Every register is listed. -/
theorem mem_regs (r : Reg) : r ∈ regs := by cases r <;> decide

/-- Legal parameters give no two registers one address (log 8). -/
theorem regAddr_injective {p : Config.Params} (h : p.ok = true) {q r : Reg}
    (e : regAddr p.regMap q = regAddr p.regMap r) : q = r := by
  simp only [Config.Params.ok, Bool.and_eq_true] at h
  have hn : (regs.map (regAddr p.regMap)).Nodup := of_decide_eq_true h.2
  exact List.inj_on_of_nodup_map hn (mem_regs q) (mem_regs r) e

/-- What an address lookup finds has that address. -/
theorem regAddr_of_regAt {m : Config.RegMap} {a : Nat} {r : Reg} (h : regAt m a = some r) : regAddr m r = a := by
  simpa using List.find?_some h

/-- Looking up a register's own address finds it. -/
theorem regAt_regAddr {p : Config.Params} (h : p.ok = true) (r : Reg) : regAt p.regMap (regAddr p.regMap r) = some r := by
  cases hf : regAt p.regMap (regAddr p.regMap r) with
  | none => exact absurd (List.find?_eq_none.mp hf r (mem_regs r)) (by simp)
  | some q => rw [regAddr_injective h (regAddr_of_regAt hf)]

/-- At an address outside the map there is no register. -/
theorem regAt_eq_none {m : Config.RegMap} {a : Nat} (h : a ∉ m.addrs) : regAt m a = none := by
  refine List.find?_eq_none.mpr fun r hr e => h ?_
  rw [regMap_addrs, ← of_decide_eq_true e]
  exact List.mem_map_of_mem hr

/-! ### The accesses -/

/-- A word is fitted as itself. -/
@[simp] theorem fitted_toNat {n : Nat} (v : BitVec n) : fitted n v.toNat = some v := by simp [fitted, v.isLt]

/-- A value that is too wide is not fitted. -/
theorem fitted_of_le {n v : Nat} (h : 2 ^ n ≤ v) : fitted n v = none := if_neg (by omega)

/-- What is fitted is the value. -/
theorem fitted_eq_some {n v : Nat} {x : BitVec n} (h : fitted n v = some x) : v < 2 ^ n ∧ x.toNat = v := by
  simp only [fitted] at h
  split at h
  · rename_i hv
    simp only [Option.some.injEq] at h
    subst h
    exact ⟨hv, by simp [Nat.mod_eq_of_lt hv]⟩
  · simp at h

/-- A number that fits is written as the register's own write. -/
theorem writeNumber_of_some {r : Reg} {v : Nat} {w : RegWrite} (h : regWrite r v = some w) (s : State) :
    writeNumber r v s = writeReg w s := by simp only [writeNumber, h]

/-- A number that does not fit is refused (log 8). -/
theorem writeNumber_of_none {r : Reg} {v : Nat} (h : regWrite r v = none) (s : State) :
    writeNumber r v s = .refused (.hostValueTooWide r v) := by simp only [writeNumber, h]

/-- A write at a register's address is the write of the register, of a value that fits it. -/
theorem hostWriteAt_regAddr {s : State} (h : s.cfg.ok = true) (r : Reg) (v : Nat) :
    hostWriteAt (regAddr s.cfg.regMap r) v s = writeNumber r v s := by
  simp only [hostWriteAt, regAt_regAddr h]

/-- A read at a register's address is the read of the register. -/
theorem hostReadAt_regAddr {s : State} (h : s.cfg.ok = true) (r : Reg) :
    hostReadAt (regAddr s.cfg.regMap r) s = .next { s with rdata := readReg r s } := by
  simp only [hostReadAt, regAt_regAddr h]

/-- A write at an address that completes is a named write of the register there. -/
theorem hostWriteAt_cases {a v : Nat} {s t : State} (h : hostWriteAt a v s = .next t) :
    ∃ r w, regAddr s.cfg.regMap r = a ∧ regWrite r v = some w ∧ writeReg w s = .next t := by
  simp only [hostWriteAt] at h
  split at h
  · simp at h
  · rename_i r hr
    simp only [writeNumber] at h
    split at h
    · rename_i w hw
      exact ⟨r, w, regAddr_of_regAt hr, hw, h⟩
    · simp at h

/-- A read at an address that completes is a named read of the register there. -/
theorem hostReadAt_cases {a : Nat} {s t : State} (h : hostReadAt a s = .next t) :
    ∃ r, regAddr s.cfg.regMap r = a ∧ t = { s with rdata := readReg r s } := by
  simp only [hostReadAt] at h
  split at h
  · simp at h
  · rename_i r hr
    simp only [Host.Outcome.next.injEq] at h
    exact ⟨r, regAddr_of_regAt hr, h.symm⟩

end Sys2Proof.Machine
end

