-- ==== Sys2Proof/Laws/PerInstr.lean ====
section
/-! SUPPORT. Facts about every instruction, one lemma per constructor. -/

/-- Family `Tag`: the first byte of a well-formed chunk names its kind (R54 to R60), and a command has no chunk bytes. -/
def Sys2Proof.Laws.Tag.Statement (i : Sys2Proof.Instr) : Prop :=
  i.wf = true →
    match i with
    | .index _ => (Sys2Proof.chunkBytes i).head?.map Sys2Proof.kindOf = some .index
    | .diff _ _ _ => (Sys2Proof.chunkBytes i).head?.map Sys2Proof.kindOf = some .diff
    | .luma _ _ _ => (Sys2Proof.chunkBytes i).head?.map Sys2Proof.kindOf = some .luma
    | .run _ => (Sys2Proof.chunkBytes i).head?.map Sys2Proof.kindOf = some .run
    | .rgb _ _ _ => (Sys2Proof.chunkBytes i).head?.map Sys2Proof.kindOf = some .rgb
    | .rgba _ _ _ _ => (Sys2Proof.chunkBytes i).head?.map Sys2Proof.kindOf = some .rgba
    | .encStart _ => Sys2Proof.chunkBytes i = []
    | .decStart _ => Sys2Proof.chunkBytes i = []

namespace Sys2Proof.Laws

open Sys2Proof.Machine

theorem Tag.index (f : BitVec 6) : Tag.Statement (.index f) := fun _ => by
  simp [chunkBytes, kindOf_index]

theorem Tag.diff (r g b : BitVec 2) : Tag.Statement (.diff r g b) := fun _ => by
  simp [chunkBytes, kindOf_diff]

theorem Tag.luma (g : BitVec 6) (r b : BitVec 4) : Tag.Statement (.luma g r b) := fun _ => by
  simp [chunkBytes, kindOf_luma]

theorem Tag.run (l : BitVec 6) : Tag.Statement (.run l) := fun h => by
  have : l.toNat ≤ 61 := by simpa [Instr.wf] using h
  simp [chunkBytes, kindOf_run _ this]

theorem Tag.rgb (r g b : Byte) : Tag.Statement (.rgb r g b) := fun _ => by
  simp [chunkBytes, kindOf_rgb]

theorem Tag.rgba (r g b a : Byte) : Tag.Statement (.rgba r g b a) := fun _ => by
  simp [chunkBytes, kindOf_rgba]

theorem Tag.encStart (x : BitVec 31) : Tag.Statement (.encStart x) := fun _ => rfl

theorem Tag.decStart (x : BitVec 31) : Tag.Statement (.decStart x) := fun _ => rfl

end Sys2Proof.Laws
end

