-- ==== Sys2Proof/Laws/Run.lean ====
section
/-! SUPPORT. Laws of runs of several steps. -/

namespace Sys2Proof.Machine

/-- A run of any machine whose first step completes. -/
theorem machineRun_succ (M : Host.Core) (k : Nat) {s t : M.State} (h : M.step s = .next t) :
    M.run (k + 1) s = M.run k t := by
  rw [Host.Core.run, h]

/-- A run goes on from where a shorter one ended. -/
theorem machineRun_add (M : Host.Core) (j : Nat) : ∀ (k : Nat) {s t : M.State}, M.run j s = .next t →
    M.run (j + k) s = M.run k t := by
  induction j with
  | zero =>
    intro k s t h
    rw [Host.Core.run] at h
    injection h with h
    rw [h, Nat.zero_add]
  | succ j ih =>
    intro k s t h
    rw [Nat.add_right_comm, Host.Core.run]
    rw [Host.Core.run] at h
    cases hs : M.step s with
    | next u => rw [hs] at h; exact ih k h
    | fault r => rw [hs] at h; simp at h
    | refused r => rw [hs] at h; simp at h

/-- The block's run, one step on. -/
theorem coreRun_next (k : Nat) {s t : State} (h : step s = .next t) : core.run (k + 1) s = core.run k t :=
  machineRun_succ core k h

/-- The block's run, several steps on. -/
theorem coreRun_add (j k : Nat) {s t : State} (h : core.run j s = .next t) : core.run (j + k) s = core.run k t :=
  machineRun_add core j k h

/-- A run of no step. -/
theorem coreRun_zero (s : State) : core.run 0 s = .next s := rfl

/-- With an empty script a busy decoder takes the step (log 9). -/
theorem step_decoder {s : State} (h : s.script = []) (hb : decBusy s = true) : step s = decTurn s := by
  simp only [step, takeTurn, h, idleTurn, hb, if_true]

/-- With an empty script and an idle decoder the encoder takes the step (log 9). -/
theorem step_encoder {s : State} (h : s.script = []) (hb : decBusy s = false) : step s = encTurn s := by
  simp [step, takeTurn, h, idleTurn, hb]

end Sys2Proof.Machine
end

