-- ==== Sys2Proof/Laws/Turns.lean ====
section
/-! SUPPORT. Laws of a whole turn of an engine, and of what a sound state gives it. -/

namespace Sys2Proof.Machine

/-! ### Fields and lengths -/

/-- The errors VALIDATE can report (R83). -/
theorem encError_some {s : State} {e : Err} (h : encError s = some e) :
    e ∈ [Err.bufferLength, Err.dimension, Err.channel, Err.colorspace] := by
  simp only [encError] at h
  split at h
  · rename_i e' he
    have := fieldError_some he
    simp at h this ⊢
    subst h
    tauto
  · split at h <;> simp at h
    simp [← h]

/-- What passes VALIDATE (R83). -/
theorem encError_none {s : State} (h : encError s = none) :
    fieldError s.enc.w s.enc.h s.enc.ch s.enc.cs s.cfg.pixelsMax = none ∧ s.enc.plen =
        s.enc.w.toNat * s.enc.h.toNat * s.enc.ch.toNat := by
  simp only [encError] at h
  split at h
  · simp at h
  · rename_i hf
    split at h
    · rename_i hl; exact ⟨hf, hl⟩
    · simp at h

/-- Fields that pass their checks: at least one pixel, fewer than the ceiling, 3 or 4 channels. -/
theorem fieldError_ch {w h : Word} {ch cs : Byte} {m : Nat} (e : fieldError w h ch cs m = none) :
    1 ≤ w.toNat * h.toNat ∧ w.toNat * h.toNat < m ∧ (ch = 3#8 ∧ ch.toNat = 3 ∨ ch = 4#8 ∧ ch.toNat = 4) := by
  obtain ⟨h1, h2, h3, h4, -⟩ := fieldError_none e
  refine ⟨Nat.mul_pos h1 h2, h3, ?_⟩
  rcases h4 with rfl | rfl
  · exact .inl ⟨rfl, rfl⟩
  · exact .inr ⟨rfl, rfl⟩

/-- Nothing pending owes nothing. -/
theorem pendingByte_zero : pendingByte 0#6 = 0 := rfl

/-- A pending run owes at most one byte. -/
theorem pendingByte_le (r : BitVec 6) : pendingByte r ≤ 1 := by unfold pendingByte; split <;> omega

/-- The chunk of a fetched pixel has at most `ch + 1` bytes (R91, R96). -/
theorem pixelChunk_bound {s : State} (r : EncRunning s) {px : Pixel} (hpx : s.enc.ch ≠ 4#8 → px.a = 255#8) :
    (chunkBytes (pixelChunk px s.enc.prev s.enc.cache)).length ≤ s.enc.ch.toNat + 1 := by
  obtain ⟨h1, h5, h4⟩ := pixelChunk_length px s.enc.prev s.enc.cache
  obtain ⟨-, -, hc | hc⟩ := fieldError_ch (encError_none r.checked).1
  · have := h4 (by rw [hpx (by rw [hc.1]; decide), r.alpha hc.1])
    omega
  · omega

/-- A decoded RUN field is at most 61 (R57, R60). -/
theorem decoded_run {bs rest : List Byte} {l : BitVec 6} (h : decode (.chunk bs) = .ok (.run l, rest)) :
    l.toNat ≤ 61 := by
  cases bs with
  | nil => simp [decode, decodeChunk] at h
  | cons b0 t =>
    simp only [decode, decodeChunk] at h
    split at h <;> (try split at h) <;> simp at h
    obtain ⟨rfl, -⟩ := h
    rename_i hk
    revert hk
    revert b0
    decide

/-! ### Memory stays canonical -/

/-- A store keeps the canonical form. -/
theorem storeBytes_wf {b : Buf} {vs : List Byte} {off : Nat} {s t : State} (h : storeBytes b off vs s = .next t)
    (hw : s.mem.wf) : t.mem.wf := by
  rw [storeBytes_eq_next h]; exact Memory.wf_writeAll _ _ _ hw

/-- OUTPUT keeps the canonical form. -/
theorem output_wf {px : Pixel} {s t : State} (h : output px s = .next t) (hw : s.mem.wf) : t.mem.wf := by
  simp only [output, andThen_eq_next, Host.Outcome.next.injEq] at h
  obtain ⟨u, hu, rfl⟩ := h
  have := storeBytes_wf hu hw
  exact this

/-- DONE writes no byte. -/
theorem finish_mem (v : State) : (finish v).mem = v.mem := by simp only [finish]; split <;> rfl

/-- A chunk keeps the canonical form. -/
theorem produce_wf {len : Nat} {px : Pixel} {s t : State} (h : produce len px s = .next t) (hw : s.mem.wf) :
    t.mem.wf := by
  simp only [produce, andThen_eq_next, Host.Outcome.next.injEq] at h
  obtain ⟨u, hu, rfl⟩ := h
  rw [finish_mem]
  exact output_wf hu hw

/-- REPLAY keeps the canonical form. -/
theorem replay_wf {s t : State} (h : replay s = .next t) (hw : s.mem.wf) : t.mem.wf := by
  simp only [replay, andThen_eq_next, Host.Outcome.next.injEq] at h
  obtain ⟨u, hu, rfl⟩ := h
  rw [finish_mem]
  exact output_wf hu hw

/-- Every chunk keeps the canonical form. -/
theorem exec_wf {i : Instr} {s t : State} (h : exec i s = .next t) (hw : s.mem.wf) (hi : isChunk i = true) :
    t.mem.wf := by
  cases i with
  | encStart => simp [isChunk] at hi
  | decStart => simp [isChunk] at hi
  | run l => exact produce_wf (s := setRun l s) h hw
  | _ => exact produce_wf h hw

/-! ### Soundness depends on few fields -/

/-- The encoder stays sound under changes of what it does not hold. -/
theorem EncSound.of_eq {s t : State} (h : EncSound s) (e1 : t.cfg = s.cfg) (e2 : t.enc = s.enc)
    (e3 : t.encRegs.outLen = s.encRegs.outLen)
  (e4 : encBusy s = true → t.bufs.pin = s.bufs.pin ∧ t.bufs.bout = s.bufs.bout) : EncSound t := by
  have ep : (s.enc.phase = .loop ∨ s.enc.phase = .tail) → encBusy s = true := by
    rintro (h | h) <;> simp [encBusy, h, EncPhase.stateField]
  have eb : encBusy t = encBusy s := by simp [encBusy, e2]
  have ee : encError t = encError s := by simp [encError, e1, e2]
  constructor
  · rw [e2]; exact h.errOnly
  · rw [e2]; exact h.errKind
  · rw [e2, e3]; exact h.noLength
  · rw [eb]; intro hb; rw [(e4 hb).1, (e4 hb).2]; exact h.placed hb
  · rw [e2]; intro hp
    have r := h.running hp
    obtain ⟨-, b2⟩ := e4 (ep hp)
    constructor
    · rw [ee]; exact r.checked
    · rw [e2]; exact r.count
    · rw [e2, b2]; exact r.room
    · rw [e2]; exact r.runShort
    · rw [e2]; exact r.alpha
    · rw [e2]; exact r.upper
    · rw [e2]; exact r.header
    · rw [e2]; exact r.lower
  · rw [e2]; exact h.inLoop
  · rw [e2]; exact h.inTail
  · rw [ee, e2, e3]; exact h.atDone

/-- The decoder stays sound under changes of what it does not hold. -/
theorem DecSound.of_eq {s t : State} (h : DecSound s) (e1 : t.cfg = s.cfg) (e2 : t.dec = s.dec)
  (e3 : { t.decRegs with inLen := 0 } = { s.decRegs with inLen := 0 })
  (e4 : decBusy s = true → t.bufs.bin = s.bufs.bin ∧ t.bufs.pout = s.bufs.pout) : DecSound t := by
  have ep : s.dec.phase = .loop → decBusy s = true := by
    rintro h; simp [decBusy, h, DecPhase.stateField]
  have eb : decBusy t = decBusy s := by simp [decBusy, e2]
  simp only [DecRegs.mk.injEq] at e3
  obtain ⟨-, r1, r2, r3, r4, r5⟩ := e3
  constructor
  · rw [e2]; exact h.errOnly
  · rw [e2]; exact h.errKind
  · rw [e2, r1, r2, r3, r4, r5]; exact h.noResult
  · rw [eb]; intro hb; rw [(e4 hb).1, (e4 hb).2]; exact h.placed hb
  · rw [e2]; intro hp
    have r := h.running hp
    obtain ⟨-, b2⟩ := e4 (ep hp)
    constructor
    · rw [e1, e2]; exact r.checked
    · rw [e2]; exact r.count
    · rw [e2]; exact r.owed
    · rw [e2]; exact r.region
    · rw [e2]; exact r.ipIn
    · rw [e2]; exact r.runShort
    · rw [e2, b2]; exact r.room
    · rw [e2]; exact r.replayed
  · rw [e1, e2, r1, r2, r3, r4, r5]; exact h.atDone

/-- A step of the encoder keeps the rest of the machine sound. -/
theorem sound_of_enc {s t : State} (h : Sound s) (b : SameBesideEnc s t) (hm : t.mem.wf) (he : EncSound t) : Sound t := by
  obtain ⟨c1, c2, c3, c4, -, -, -⟩ := b
  exact ⟨by rw [c1]; exact h.cfgOk, hm, he, DecSound.of_eq h.dec c1 c2 (by rw [c3]) (by rw [c4]; simp)⟩

/-- A step of the decoder keeps the rest of the machine sound. -/
theorem sound_of_dec {s t : State} (h : Sound s) (b : SameBesideDec s t) (hm : t.mem.wf) (he : DecSound t) : Sound t := by
  obtain ⟨c1, c2, c3, c4, -, -, -⟩ := b
  exact ⟨by rw [c1]; exact h.cfgOk, hm, EncSound.of_eq h.enc c1 c2 (by rw [c3]) (by rw [c4]; simp), he⟩

/-- The turns still to come do not matter to soundness. -/
theorem Sound.withScript {s : State} (h : Sound s) (turns : List Turn) : Sound { s with script := turns } :=
  ⟨h.cfgOk, h.memOk, EncSound.of_eq h.enc rfl rfl rfl fun _ => ⟨rfl, rfl⟩,
    DecSound.of_eq h.dec rfl rfl rfl fun _ => ⟨rfl, rfl⟩⟩

/-- What the bytes are does not matter to soundness, as long as the memory is canonical. -/
theorem Sound.withMem {s : State} (h : Sound s) {m : Memory} (hm : m.wf) : Sound { s with mem := m } :=
  ⟨h.cfgOk, hm, EncSound.of_eq h.enc rfl rfl rfl fun _ => ⟨rfl, rfl⟩,
    DecSound.of_eq h.dec rfl rfl rfl fun _ => ⟨rfl, rfl⟩⟩

/-! ### When the engines complete -/

/-- In a sound decoder in LOOP the next pixel fits (R42, R111). -/
theorem fits_of_sound {s : State} (h : Sound s) (hp : s.dec.phase = .loop) : PixelFits s := by
  have r := h.dec.running hp
  have ho := r.owed
  have hle : (s.dec.k + 1) * s.dec.ch.toNat ≤ s.dec.n * s.dec.ch.toNat := Nat.mul_le_mul_right _ ho
  have hm : (s.dec.k + 1) * s.dec.ch.toNat = s.dec.k * s.dec.ch.toNat + s.dec.ch.toNat := by ring
  have := r.room
  obtain ⟨-, -, hc | hc⟩ := fieldError_ch r.checked
  · simp only [PixelFits, hc.1]; rw [hc.1] at hle hm this; simp at *; omega
  · simp only [PixelFits, hc.1]; rw [hc.1] at hle hm this; simp at *; omega

/-- A sound decoder in LOOP whose output is clear of the busy encoder has room for its pixel (R42, R49, R111). -/
theorem room_of_sound {s : State} (h : Sound s) (hc : PoutClear s) (hp : s.dec.phase = .loop) : RoomForPixel s :=
  ⟨fits_of_sound h hp, hc.free (fits_of_sound h hp)⟩

/-- A LOOP step of a sound encoder is either a longer run and no byte, or one emission that fits `BOUT` and a change of the
encoder's registers (R85, R86, R88, R96). -/
theorem encLoop_emits {s : State} (h : Sound s) (hp : s.enc.phase = .loop) {px : Pixel}
    (hf : fetchPixel s.enc.i s = .next px) :
    (∃ e, encLoop s = .next (nextPixel { s with enc := e }) ∧ e.i = s.enc.i ∧ e.n = s.enc.n ∧ e.phase = s.enc.phase) ∨
    ∃ (bs : List Byte) (g : Enc → Enc), s.enc.op + bs.length ≤ s.bufs.bout.cap ∧
      encLoop s = andThen (emit bs s) (fun u => .next (nextPixel { u with enc := g u.enc })) ∧
      ∀ e, (g e).i = e.i ∧ (g e).n = e.n ∧ (g e).phase = e.phase := by
  have r := h.enc.running (.inl hp)
  have hlt := h.enc.inLoop hp
  obtain ⟨hfe, hl⟩ := encError_none r.checked
  obtain ⟨f1, f2, f3⟩ := fieldError_ch hfe
  have hup := r.upper
  have hmul : (s.enc.i + 1) * (s.enc.ch.toNat + 1) = s.enc.i * (s.enc.ch.toNat + 1) + (s.enc.ch.toNat + 1) := by ring
  have hle : (s.enc.i + 1) * (s.enc.ch.toNat + 1) ≤ s.enc.n * (s.enc.ch.toNat + 1) := Nat.mul_le_mul_right _ hlt
  have hroom := r.room
  simp only [encCapacity, ← r.count] at hroom
  simp only [encLoop, hf, andThen_next]
  by_cases he : px = s.enc.prev
  · simp only [if_pos he]
    by_cases hfl : flushesNow s.enc
    · rw [show runExtend s = flush { s with enc := { s.enc with run := s.enc.run + 1#6 } } from if_pos hfl]
      refine .inr ⟨chunkBytes (.run s.enc.run), fun e => { e with run := 0#6 }, by simp [chunkBytes]; omega, ?_,
        fun e => ⟨rfl, rfl, rfl⟩⟩
      simp only [flush, emit_run, show s.enc.run + 1#6 - 1#6 = s.enc.run by simp]
      cases emit (chunkBytes (.run s.enc.run)) s <;> rfl
    · rw [show runExtend s = .next { s with enc := { s.enc with run := s.enc.run + 1#6 } } from if_neg hfl]
      exact .inl ⟨_, rfl, rfl, rfl, rfl⟩
  · simp only [if_neg he]
    obtain ⟨-, ha⟩ := fetchPixel_cases hf
    have hb := pixelChunk_bound r ha
    rw [differingPixel_eq]
    refine .inr ⟨pendingBytes s.enc.run ++ chunkBytes (pixelChunk px s.enc.prev s.enc.cache),
      fun e => { e with run := 0#6, cache := encCache px s.enc.cache, prev := px },
      by rw [List.length_append, pendingBytes_length]; omega, ?_, fun e => ⟨rfl, rfl, rfl⟩⟩
    cases emit (pendingBytes s.enc.run ++ chunkBytes (pixelChunk px s.enc.prev s.enc.cache)) s <;> rfl

/-- A sound encoder whose pixel is fetched, its output clear of the busy decoder, completes its LOOP step (R85). -/
theorem encLoop_completes {s : State} (h : Sound s) (hc : BoutClear s) (hp : s.enc.phase = .loop) {px : Pixel}
    (hf : fetchPixel s.enc.i s = .next px) :
    ∃ t, encLoop s = .next t ∧ t.enc.i = s.enc.i + 1 ∧
      t.enc.phase = if s.enc.i + 1 = s.enc.n then .tail else .loop := by
  obtain ⟨e, he, e1, e2, e3⟩ | ⟨bs, g, hb, he, hg⟩ := encLoop_emits h hp hf
  · exact ⟨_, he, by simp [nextPixel, e1], by simp [nextPixel, e1, e2, e3, hp]⟩
  · rw [emit_eq _ _ hb (hc.free hb), andThen_next] at he
    exact ⟨_, he, by simp [nextPixel, hg], by simp [nextPixel, hg, hp]⟩

/-- TAIL of a sound encoder emits the end marker alone, which fits `BOUT` (R95, R96). -/
theorem encTail_emits {s : State} (h : Sound s) (hp : s.enc.phase = .tail) :
    s.enc.op + endMarker.length ≤ s.bufs.bout.cap ∧
      encTail s = andThen (emit endMarker s) fun u => .next { u with
        encRegs := { u.encRegs with outLen := u.enc.op },
        enc := { u.enc with phase := .done, err := none } } := by
  have r := h.enc.running (.inr hp)
  obtain ⟨hin, hr0⟩ := h.enc.inTail hp
  have hup := r.upper
  have hroom := r.room
  simp only [encCapacity, ← r.count] at hroom
  rw [hr0, pendingByte_zero, hin] at hup
  refine ⟨by simp [endMarker]; omega, ?_⟩
  simp only [encTail, flushPending, if_pos hr0, andThen_next]

/-- A sound encoder, its output clear of the busy decoder, completes TAIL (R95). -/
theorem encTail_completes {s : State} (h : Sound s) (hc : BoutClear s) (hp : s.enc.phase = .tail) :
    ∃ t, encTail s = .next t ∧ t.enc.phase = .done := by
  obtain ⟨hb, he⟩ := encTail_emits h hp
  rw [he, emit_eq _ _ hb (hc.free hb)]
  exact ⟨_, rfl, rfl⟩

/-- PIXEL FETCH never faults. -/
theorem fetchPixel_no_fault (i : Nat) (s : State) (r : Fault) : fetchPixel i s ≠ .fault r := by
  simp only [fetchPixel, ne_eq, andThen_eq_fault, not_or, not_exists, not_and]
  refine ⟨loadByte_no_fault _ _ _ _, fun _ _ => ⟨loadByte_no_fault _ _ _ _,
      fun _ _ => ⟨loadByte_no_fault _ _ _ _, fun _ _ => ?_⟩⟩⟩
  split
  · simp only [andThen_eq_fault, not_or, not_exists, not_and]
    exact ⟨loadByte_no_fault _ _ _ _, fun _ _ => by simp⟩
  · simp

/-- An encoder that is not busy does nothing (R25, R26). -/
theorem encTurn_idle {s : State} (h : encBusy s = false) : encTurn s = .next s := by
  unfold encTurn
  cases hp : s.enc.phase <;> simp [encBusy, hp, EncPhase.stateField] at h ⊢

/-- A decoder that is not busy does nothing (R25, R26). -/
theorem decTurn_idle {s : State} (h : decBusy s = false) : decTurn s = .next s := by
  unfold decTurn
  cases hp : s.dec.phase <;> simp [decBusy, hp, DecPhase.stateField] at h ⊢

/-! ### What a turn of an engine changes -/

/-- An encoder turn that completes changes its own registers and stores bytes that fit `BOUT` and are free. -/
theorem encTurn_frame {s t : State} (h : encTurn s = .next t) : SameBesideEnc s t ∧
    t.encRegs = { s.encRegs with outLen := t.encRegs.outLen } ∧
    ∃ off bs, t.mem = s.mem.writeAll (bufAddr s .bout off) bs ∧ (bs = [] ∨ off + bs.length ≤ s.bufs.bout.cap) ∧
      FreeAt s .bout off bs.length := by
  have none : FreeAt s .bout 0 ([] : List Byte).length := fun j hj => absurd hj (by simp)
  unfold encTurn at h
  split at h
  · simp at h; subst h; exact ⟨⟨rfl, rfl, rfl, rfl, rfl, rfl, rfl⟩, rfl, 0, [], rfl, .inl rfl, none⟩
  · rcases encValidate_cases h with ⟨e, he, rfl⟩ | ⟨he, hc, hf, rfl⟩
    · exact ⟨⟨rfl, rfl, rfl, rfl, rfl, rfl, rfl⟩, rfl, 0, [], rfl, .inl rfl, none⟩
    · refine ⟨⟨rfl, rfl, rfl, rfl, rfl, rfl, rfl⟩, rfl, 0, _, rfl, .inr ?_, by rw [headerBytes_length]; exact hf⟩
      rw [headerBytes_length]; simp only [encCapacity] at hc; omega
  · obtain ⟨px, hpx, ⟨h1, h2, rfl⟩ | ⟨h1, h2, u, hu, rfl⟩ | ⟨h1, u, hu, rfl⟩⟩ := encLoop_cases h
    · exact ⟨⟨rfl, rfl, rfl, rfl, rfl, rfl, rfl⟩, rfl, 0, [], rfl, .inl rfl, none⟩
    · have := emit_fits hu
      rw [emit_eq_next hu]
      exact ⟨⟨rfl, rfl, rfl, rfl, rfl, rfl, rfl⟩, rfl, _, _, rfl, this⟩
    · have := emit_fits hu
      rw [emit_eq_next hu]
      exact ⟨⟨rfl, rfl, rfl, rfl, rfl, rfl, rfl⟩, rfl, _, _, rfl, this⟩
  · obtain ⟨u, hu, rfl⟩ := encTail_cases h
    have := emit_fits hu
    rw [emit_eq_next hu]
    exact ⟨⟨rfl, rfl, rfl, rfl, rfl, rfl, rfl⟩, rfl, _, _, rfl, this⟩
  · simp at h; subst h; exact ⟨⟨rfl, rfl, rfl, rfl, rfl, rfl, rfl⟩, rfl, 0, [], rfl, .inl rfl, none⟩
  · simp at h; subst h; exact ⟨⟨rfl, rfl, rfl, rfl, rfl, rfl, rfl⟩, rfl, 0, [], rfl, .inl rfl, none⟩

/-- A decoder turn that completes: nothing, HEADER, one pixel out, or INCOMPLETE IMAGE (R99, R101, R113). -/
theorem decTurn_cases {s t : State} (h : decTurn s = .next t) :
    (decBusy s = false ∧ t = s) ∨
    (s.dec.phase = .header ∧ SameBesideDec s t ∧ t.decRegs = s.decRegs ∧
       (t.dec.phase = .error ∧ t.mem = s.mem.freeIf s.bufs.pout.has (Config.leftByte s.freeCount) ∨
        t.dec.phase = .loop ∧ t.dec.k = 0 ∧ t.mem = s.mem)) ∨
    (s.dec.phase = .loop ∧ RoomForPixel s ∧ ∃ px, PixelOut s t px) ∨
    (s.dec.phase = .loop ∧ s.dec.run = 0#6 ∧ s.dec.stop ≤ s.dec.ip ∧ t = raiseDec .incompleteImage s) := by
  unfold decTurn at h
  split at h
  · rename_i hp; simp at h; exact .inl ⟨by simp [decBusy, hp, DecPhase.stateField], h.symm⟩
  · rename_i hp
    refine .inr (.inl ⟨hp, ?_⟩)
    rcases decHeader_cases h with ⟨hl, rfl⟩ | ⟨bs, hl, h14, hh, ⟨e, he, rfl⟩ | ⟨he, hc, rfl⟩⟩
    · exact ⟨⟨rfl, rfl, rfl, rfl, rfl, rfl, rfl⟩, rfl, .inl ⟨rfl, rfl⟩⟩
    · exact ⟨⟨rfl, rfl, rfl, rfl, rfl, rfl, rfl⟩, rfl, .inl ⟨rfl, rfl⟩⟩
    · exact ⟨⟨rfl, rfl, rfl, rfl, rfl, rfl, rfl⟩, rfl, .inr ⟨rfl, rfl, rfl⟩⟩
  · rename_i hp
    simp only [decLoop] at h
    split at h
    · refine .inr (.inr (.inl ⟨hp, ?_⟩))
      have hroom : RoomForPixel s := replay_room h
      obtain ⟨u, h1, h2, -⟩ := replay_runs s hroom
      rw [h] at h1; simp at h1; subst h1
      exact ⟨hroom, _, h2⟩
    · split at h
      · refine .inr (.inr (.inl ⟨hp, ?_⟩))
        rw [andThen_eq_next] at h
        obtain ⟨i, hi, h⟩ := h
        obtain ⟨b0, ops, g1, g2, g3, g4⟩ := fetchChunk_cases hi
        obtain ⟨hroom, len, run, px, k1, k5, o, hrun⟩ := exec_chunk_cases g4 h
        exact ⟨hroom, _, o.out⟩
      · rename_i h1 h2
        simp at h
        exact .inr (.inr (.inr ⟨hp, by simpa using h1, by omega, h.symm⟩))
  · rename_i hp; simp at h; exact .inl ⟨by simp [decBusy, hp, DecPhase.stateField], h.symm⟩
  · rename_i hp; simp at h; exact .inl ⟨by simp [decBusy, hp, DecPhase.stateField], h.symm⟩

/-- An `emit` that completes in one state completes alike in every state with the same encoder and capacity in which its
bytes are free. -/
theorem emit_congr {bs : List Byte} {s u v : State} (hu : emit bs s = .next u) (he : s.enc = v.enc)
    (hb : s.bufs.bout.cap = v.bufs.bout.cap) (hf : FreeAt v .bout v.enc.op bs.length) :
    emit bs v = .next { v with
      mem := v.mem.writeAll (bufAddr v .bout v.enc.op) bs, enc := { v.enc with op := v.enc.op + bs.length } } := by
  rcases (emit_fits hu).1 with rfl | h
  · simp [emit, storeBytes, Memory.writeAll]
  · exact emit_eq _ _ (by rw [← he, ← hb]; exact h) hf

/-! ### The classifier and its inverse -/

/-- The wrapped difference is the difference, modulo 256 (R9). -/
theorem channelDelta_dvd (c p : Byte) : (256 : Int) ∣ channelDelta c p - ((c.toNat : Int) - p.toNat) := by
  simp only [channelDelta, wrapDelta]
  split <;> omega

/-- Adding a delta that is the difference modulo 256 gives the channel back (R62). -/
theorem addDelta_of_dvd (c p : Byte) (d : Int) (h : (256 : Int) ∣ d - ((c.toNat : Int) - p.toNat)) : addDelta p d =
    c := by
  apply BitVec.eq_of_toNat_eq
  simp only [addDelta, BitVec.toNat_ofInt]
  have := c.isLt
  have := p.isLt
  omega

/-- A DIFF field gives its delta back (R55, R62). -/
theorem diff_back : ∀ d : Int, -2 ≤ d → d ≤ 1 → diffDelta (diffField d) = d := by
  intro d h1 h2
  simp only [diffDelta, diffField, BitVec.toNat_ofInt]
  omega

/-- A LUMA green field gives its delta back (R56, R62). -/
theorem green_back : ∀ d : Int, -32 ≤ d → d ≤ 31 → lumaGreen (lumaGreenField d) = d := by
  intro d h1 h2
  simp only [lumaGreen, lumaGreenField, BitVec.toNat_ofInt]
  omega

/-- A LUMA relative field gives its delta back (R56, R62). -/
theorem rel_back : ∀ d : Int, -8 ≤ d → d ≤ 7 → lumaRelative (lumaRelativeField d) = d := by
  intro d h1 h2
  simp only [lumaRelative, lumaRelativeField, BitVec.toNat_ofInt]
  omega

/-- The classifier chooses chunks. -/
theorem classify_chunk (px p : Pixel) : isChunk (classify px p) = true := by
  unfold classify
  split
  · rfl
  · simp only; split
    · rfl
    · split <;> rfl

end Sys2Proof.Machine
end

