-- ==== Sys2Proof/Tests/Slice0.lean ====
section
/-! SUPPORT. Tests with results taken from spec/ (R54 to R66, spec/95_test_vectors.md), and for every statement with
hypotheses a state and operands that meet them. -/

namespace Sys2Proof.Tests

open Sys2Proof.Machine

/-! ### Ill-formed terms are refused -/

theorem test_wf_run_62 : (Instr.run 62#6).wf = false := by decide

theorem test_wf_run_63 : (Instr.run 63#6).wf = false := by decide

theorem test_wf_run_61 : (Instr.run 61#6).wf = true := by decide

/-! ### Decoding: words written out from the encodings of R54 to R59, R117 and R118 -/

/-- `INDEX 9`: `00 001001` (R54; SRC-IDX). -/
theorem test_decode_index : decode (.chunk [0b00001001#8]) = .ok (.index 9#6, []) := by rfl

/-- `DIFF 1,-1,1`: `01 11 01 11` (R55; ENC-D4). -/
theorem test_decode_diff : decode (.chunk [0b01110111#8]) = .ok (.diff 3#2 1#2 3#2, []) := by rfl

/-- `LUMA 2,-1,1`: `10 100010`, `0111 1001` (R56; P1). -/
theorem test_decode_luma : decode (.chunk [0b10100010#8, 0b01111001#8]) = .ok (.luma 34#6 7#4 9#4, []) := by rfl

/-- `RUN 24`: `11 010111` (R57; SRC-B). -/
theorem test_decode_run : decode (.chunk [0b11010111#8]) = .ok (.run 23#6, []) := by rfl

/-- `RGB 100,50,25` (R58; P1). -/
theorem test_decode_rgb :
    decode (.chunk [0b11111110#8, 0x64#8, 0x32#8, 0x19#8]) = .ok (.rgb 100#8 50#8 25#8, []) := by rfl

/-- `RGBA 100,50,25,128` (R59; P1). -/
theorem test_decode_rgba :
    decode (.chunk [0b11111111#8, 0x64#8, 0x32#8, 0x19#8, 0x80#8]) = .ok (.rgba 100#8 50#8 25#8 128#8, []) := by rfl

/-- `ENC_CTRL <- 1` (R117). -/
theorem test_decode_encStart : decode (.ctrlWrite .enc 1#32) = .ok (.encStart 0#31, []) := by rfl

/-- `DEC_CTRL <- 1` (R118). -/
theorem test_decode_decStart : decode (.ctrlWrite .dec 1#32) = .ok (.decStart 0#31, []) := by rfl

/-- `ENC_CTRL <- 0xFFFFFFFE` is no command (R30; CMD-8). -/
theorem test_decode_notStart : decode (.ctrlWrite .enc 0xFFFFFFFE#32) = .error .notStart := by rfl

/-- The table's bits: `INDEX 0`, `LUMA` with its second byte in bits 15..8, `ENC_START`. -/
theorem test_decodeTableWord :
    decodeTableWord 8 0x00 = some (.index 0#6) ∧ decodeTableWord 16 0x79A2 = some (.luma 34#6 7#4 9#4) ∧
      decodeTableWord 32 0x193264FE = some (.rgb 100#8 50#8 25#8) ∧ decodeTableWord 32 1 = some (.encStart 0#31) := by
  decide

/-! ### A small machine -/

/-- Four disjoint buffers, each just large enough for a 3-channel image of three pixels. -/
def regions : BufMap := ⟨⟨0, 9⟩, ⟨100, 34⟩, ⟨200, 27⟩, ⟨300, 9⟩⟩

/-- `HDR(3,1,3,0) | FE 0A 14 1E | C1 | END`. -/
def stream : List Byte :=
  [0x71#8, 0x6F#8, 0x69#8, 0x66#8, 0#8, 0#8, 0#8, 3#8, 0#8, 0#8, 0#8, 1#8, 3#8, 0#8] ++
    [0xFE#8, 10#8, 20#8, 30#8, 0xC1#8] ++ [0#8, 0#8, 0#8, 0#8, 0#8, 0#8, 0#8, 1#8]

/-- Three pixels `10,20,30`. -/
def image : List Byte := [10#8, 20#8, 30#8, 10#8, 20#8, 30#8, 10#8, 20#8, 30#8]

/-- Reset, with the buffers and their inputs placed. -/
def placed : State :=
  { State.reset with bufs := regions, mem := Memory.writeAll (Memory.writeAll [] 0 image) 200 stream }

/-- The encoder on the image. -/
def encOn (phase : EncPhase) (i op : Nat) (run : BitVec 6) (prev : Pixel) : Enc :=
  { Enc.reset with
    phase := phase, w := 3#32, h := 1#32, ch := 3#8, plen := 9, n := 3, i := i, op := op, run := run, prev := prev }

/-- The decoder on the stream. -/
def decOn (phase : DecPhase) (ip k : Nat) (run : BitVec 6) (prev : Pixel) : Dec :=
  { Dec.reset with
    phase := phase, len := 27, w := 3#32, h := 1#32, ch := 3#8, n := 3, stop := 19, ip := ip, k := k, run := run,
    prev := prev }

/-- Before the first step of both engines. -/
def starting : State :=
  { placed with enc := encOn .validate 0 0 0#6 prevInit, dec := decOn .header 0 0 0#6 prevInit }

/-- Both engines at their first pixel. -/
def running : State :=
  { placed with enc := encOn .loop 0 14 0#6 prevInit, dec := decOn .loop 14 0 0#6 prevInit }

/-- The decoder with the whole image still to replay, `10,20,30` in its slot 9. -/
def replaying : State :=
  { placed with
    enc := encOn .tail 3 18 0#6 ⟨10#8, 20#8, 30#8, 255#8⟩,
    dec := { decOn .loop 19 2 1#6 ⟨10#8, 20#8, 30#8, 255#8⟩ with
      cache := cachePut freshCache 9#6 ⟨10#8, 20#8, 30#8, 255#8⟩ } }

/-- The decoder without a chunk left and a pixel still owed. -/
def starved : State := { placed with dec := decOn .loop 19 2 0#6 prevInit }

/-- Before the first step of both engines, with a channel count of 2 and a stream of 13 bytes. -/
def failing : State :=
  { starting with enc := { starting.enc with ch := 2#8 }, dec := { starting.dec with len := 13 } }

/-- Before the first step of both engines, the stream's last signature byte wrong. -/
def unsigned : State := { starting with mem := starting.mem.write 203 0#8 }

/-- The encoder at its last pixel, one repeat pending. -/
def lastPixel : State :=
  { running with enc := encOn .loop 2 18 1#6 ⟨10#8, 20#8, 30#8, 255#8⟩ }

/-- Both engines done. -/
def finished : State :=
  { placed with
    enc := encOn .done 3 27 0#6 ⟨10#8, 20#8, 30#8, 255#8⟩, encRegs := ⟨3#32, 1#32, 3#8, 0#8, 9, 27⟩,
    dec := decOn .done 19 3 0#6 ⟨10#8, 20#8, 30#8, 255#8⟩, decRegs := ⟨27, 3#32, 1#32, 3#8, 0#8, 9⟩ }

/-- The decoder in LOOP with a given chunk at `d.ip`, room for one 4-channel pixel and a given previous pixel. -/
def atChunk (bs : List Byte) (prev : Pixel) : State :=
  { State.reset with
    bufs := ⟨⟨0, 0⟩, ⟨0, 0⟩, ⟨0, 40⟩, ⟨100, 4⟩⟩, mem := Memory.writeAll [] 14 bs,
    dec := { decOn .loop 14 0 0#6 prev with ch := 4#8, cache := cachePut freshCache 12#6 ⟨10#8, 20#8, 30#8, 40#8⟩ } }

/-- What one decoder step on a chunk leaves: the pixel, `d.ip`, `d.run`. -/
def chunkStep (bs : List Byte) (prev : Pixel) : Option (Pixel × Nat × BitVec 6) :=
  (nextOf (step (atChunk bs prev))).map fun t => (t.dec.prev, t.dec.ip, t.dec.run)

/-- How a result stops, if it stops. -/
def stopOf (o : Result State) : Option (Fault ⊕ Refusal) :=
  match o with
  | .next _ => none
  | .fault r => some (.inl r)
  | .refused r => some (.inr r)

/-! ### One step of each instruction (spec/95_test_vectors.md) -/

/-- DEC-I1. -/
theorem test_index : chunkStep [0x0C#8] prevInit = some (⟨10#8, 20#8, 30#8, 40#8⟩, 15, 0#6) := by decide

/-- DEC-I2: an unwritten slot; the commit writes slot 0. -/
theorem test_index_unwritten : chunkStep [0x05#8] prevInit = some (⟨0#8, 0#8, 0#8, 0#8⟩, 15, 0#6) := by decide

/-- DEC-D2. -/
theorem test_diff_down : chunkStep [0x40#8] prevInit = some (⟨254#8, 254#8, 254#8, 255#8⟩, 15, 0#6) := by decide

/-- DEC-D3: wrap upward, alpha kept. -/
theorem test_diff_up :
    chunkStep [0x7F#8] ⟨255#8, 255#8, 255#8, 7#8⟩ = some (⟨0#8, 0#8, 0#8, 7#8⟩, 15, 0#6) := by decide

/-- DEC-L2. -/
theorem test_luma_down :
    chunkStep [0x80#8, 0x00#8] prevInit = some (⟨216#8, 224#8, 216#8, 255#8⟩, 16, 0#6) := by decide

/-- DEC-L1. -/
theorem test_luma_red : chunkStep [0xA0#8, 0xA8#8] prevInit = some (⟨2#8, 0#8, 0#8, 255#8⟩, 16, 0#6) := by decide

/-- DEC-U1. -/
theorem test_run : chunkStep [0xD7#8] ⟨200#8, 200#8, 200#8, 255#8⟩ = some (⟨200#8, 200#8, 200#8, 255#8⟩, 15, 23#6) := by
  decide

/-- DEC-U3: the longest run; slot 53 is written. -/
theorem test_run_longest :
    (nextOf (step (atChunk [0xFD#8] prevInit))).map (fun t => (t.dec.run, cacheGet t.dec.cache 53#6)) =
      some (61#6, ⟨0#8, 0#8, 0#8, 255#8⟩) := by decide

/-- DEC-G1: alpha kept. -/
theorem test_rgb :
    chunkStep [0xFE#8, 5#8, 6#8, 7#8] ⟨1#8, 2#8, 3#8, 4#8⟩ = some (⟨5#8, 6#8, 7#8, 4#8⟩, 18, 0#6) := by decide

/-- DEC-A1. -/
theorem test_rgba :
    chunkStep [0xFF#8, 0#8, 0#8, 0#8, 128#8] prevInit = some (⟨0#8, 0#8, 0#8, 128#8⟩, 19, 0#6) := by decide

/-- The four bytes of a 4-channel pixel, in the order of R36. -/
theorem test_rgba_stored :
    (nextOf (step (atChunk [0xFF#8, 1#8, 2#8, 3#8, 4#8] prevInit))).map (fun t => t.mem.drop 5) =
      some [(100, 1#8), (101, 2#8), (102, 3#8), (103, 4#8)] := by decide

/-- CMD-2 and CMD-4: START reads as busy and clears `ENC_OUT_LEN`. -/
theorem test_encStart :
    (nextOf (exec (.encStart 0#31) { placed with encRegs := ⟨3#32, 1#32, 3#8, 0#8, 9, 23⟩ })).map
      (fun t => (encStatus t, t.encRegs.outLen, t.enc.plen, t.enc.w)) = some (1#32, 0, 9, 3#32) := by decide

/-- CMD-5: a START while busy is ignored. -/
theorem test_encStart_busy : nextOf (exec (.encStart 0#31) starting) = some starting := by decide

theorem test_decStart :
    (nextOf (exec (.decStart 0#31) { placed with decRegs := ⟨27, 3#32, 1#32, 3#8, 0#8, 9⟩ })).map
      (fun t => (decStatus t, t.decRegs, t.dec.len)) = some (1#32, ⟨27, 0#32, 0#32, 0#8, 0#8, 0⟩, 27) := by decide

theorem test_decStart_busy : nextOf (exec (.decStart 0#31) starting) = some starting := by decide

/-! ### The encoder's choices -/

/-- ENC-D4, ENC-L5, ENC-G2, ENC-A1. -/
theorem test_classify :
    chunkBytes (classify ⟨0#8, 255#8, 129#8, 255#8⟩ ⟨255#8, 0#8, 128#8, 255#8⟩) = [0x77#8] ∧
      chunkBytes (classify ⟨38#8, 31#8, 38#8, 255#8⟩ prevInit) = [0xBF#8, 0xFF#8] ∧
      chunkBytes (classify ⟨0#8, 8#8, 16#8, 255#8⟩ prevInit) = [0xFE#8, 0#8, 8#8, 0x10#8] ∧
      chunkBytes (classify ⟨0#8, 0#8, 0#8, 254#8⟩ prevInit) = [0xFF#8, 0#8, 0#8, 0#8, 0xFE#8] := by decide

/-- HASH-1 to HASH-4. -/
theorem test_hash :
    (hash prevInit : BitVec 6) = 53#6 ∧ (hash cacheInit : BitVec 6) = 0#6 ∧
      (hash (Pixel.mk 10#8 20#8 30#8 255#8) : BitVec 6) = 9#6 ∧ (hash (Pixel.mk 1#8 2#8 3#8 4#8) : BitVec 6) = 14#6 := by
  decide

/-- HDR-1: the header of a 5x5 image. -/
theorem test_header :
    headerBytes Config.Params.default.magic 5#32 5#32 3#8 0#8 =
      [0x71#8, 0x6F#8, 0x69#8, 0x66#8, 0#8, 0#8, 0#8, 5#8, 0#8, 0#8, 0#8, 5#8, 3#8, 0#8] := by decide

/-- HDR-17: the product is exact. -/
theorem test_dimension_exact : dimOk 65536#32 65536#32 400000000 = false := by decide

/-- HDR-6 and HDR-5: the last count allowed and the first refused. -/
theorem test_dimension_bound : dimOk 399999999#32 1#32 400000000 = true ∧ dimOk 20000#32 20000#32 400000000 = false := by
  decide

/-- CMD-3: `ENC_STATUS = 0x63` after a ColorspaceError. -/
theorem test_status_error :
    encStatus (raiseEnc .colorspace placed) = 0x63#32 ∧ decStatus (raiseDec .incompleteImage placed) = 0x73#32 := by decide

/-! ### What the host asks: one word of a row, run as the first instruction after reset -/

theorem test_first_diff :
    (nextOf (step (State.reset.withFetchWord 8 0x55))).map (fun t => (t.dec.ip, t.dec.k, t.dec.prev)) =
      some (1, 1, ⟨255#8, 255#8, 255#8, 0#8⟩) := by decide

theorem test_first_rgba :
    (nextOf (step (State.reset.withFetchWord 40 0x80193264FF))).map (fun t => t.dec.prev) =
      some ⟨0x64#8, 0x32#8, 0x19#8, 0x80#8⟩ := by decide

theorem test_first_encStart :
    (nextOf (step (State.reset.withFetchWord 32 1))).map (fun t => t.enc.phase) = some .validate := by decide

/-! ### Witnesses: states and operands that meet the hypotheses of the statements -/

theorem sound_starting : Sound starting := by
  refine ⟨by decide, by decide, ?_, ?_⟩
  · constructor <;> simp [starting, encOn, Enc.reset, placed, State.reset, State.resetWith, EncRegs.reset]
    decide
  · constructor <;> simp [starting, decOn, Dec.reset, placed, State.reset, State.resetWith, DecRegs.reset]
    decide

theorem sound_running : Sound running := by
  refine ⟨by decide, by decide, ?_, ?_⟩
  · refine ⟨by decide, by simp [running, encOn, Enc.reset], by decide, by decide, fun _ => ?_, by decide, by decide, by decide⟩
    exact ⟨by decide, by decide, by decide, by decide, by decide, by decide, by decide, by decide⟩
  · refine ⟨by decide, by simp [running, decOn, Dec.reset], by decide, by decide, fun _ => ?_, by decide⟩
    exact ⟨by decide, by decide, by decide, by decide, by decide, by decide, by decide, by decide⟩

theorem sound_replaying : Sound replaying := by
  refine ⟨by decide, by decide, ?_, ?_⟩
  · refine ⟨by decide, by simp [replaying, encOn, Enc.reset], by decide, by decide, fun _ => ?_, by decide, by decide, by decide⟩
    exact ⟨by decide, by decide, by decide, by decide, by decide, by decide, by decide, by decide⟩
  · refine ⟨by decide, by simp [replaying, decOn, Dec.reset], by decide, by decide, fun _ => ?_, by decide⟩
    exact ⟨by decide, by decide, by decide, by decide, by decide, by decide, by decide, by decide⟩

theorem sound_placed : Sound placed := by
  refine ⟨by decide, by decide, ?_, ?_⟩
  · constructor <;> simp [Enc.reset, placed, State.reset, State.resetWith, EncRegs.reset, encBusy, EncPhase.stateField]
  · constructor <;> simp [Dec.reset, placed, State.reset, State.resetWith, DecRegs.reset, decBusy, DecPhase.stateField]

theorem sound_failing : Sound failing := by
  refine ⟨by decide, by decide, ?_, ?_⟩
  · constructor <;> simp [failing, starting, encOn, Enc.reset, placed, State.reset, State.resetWith, EncRegs.reset]
    decide
  · constructor <;> simp [failing, starting, decOn, Dec.reset, placed, State.reset, State.resetWith, DecRegs.reset]
    decide

theorem sound_unsigned : Sound unsigned :=
  sound_starting.withMem (Memory.wf_write _ _ _ sound_starting.memOk)

theorem sound_lastPixel : Sound lastPixel := by
  refine ⟨by decide, by decide, ?_, DecSound.of_eq sound_running.dec rfl rfl rfl fun _ => ⟨rfl, rfl⟩⟩
  refine ⟨by decide, by simp [lastPixel, encOn, Enc.reset], by decide, by decide, fun _ => ?_, by decide, by decide, by decide⟩
  exact ⟨by decide, by decide, by decide, by decide, by decide, by decide, by decide, by decide⟩

theorem sound_starved : Sound starved := by
  refine ⟨by decide, by decide, EncSound.of_eq sound_placed.enc rfl rfl rfl fun _ => ⟨rfl, rfl⟩, ?_⟩
  refine ⟨by decide, by simp [starved, decOn, Dec.reset], by decide, by decide, fun _ => ?_, by decide⟩
  exact ⟨by decide, by decide, by decide, by decide, by decide, by decide, by decide, by decide⟩

theorem sound_finished : Sound finished := by
  refine ⟨by decide, by decide, ?_, ?_⟩
  · exact ⟨by decide, by simp [finished, encOn, Enc.reset], by decide, by decide, fun h => absurd h (by decide), by decide,
      by decide, fun _ => by decide⟩
  · exact ⟨by decide, by simp [finished, decOn, Dec.reset], by decide, by decide, fun h => absurd h (by decide),
      fun _ => by decide⟩

/-- EncodedInstructionDecodesToItself: the longest run, and a command. -/
theorem wit_encoded : (Instr.run 61#6).wf = true ∧ isChunk (.run 61#6) = true ∧
    (Instr.encStart 0x7FFFFFFF#31).wf = true ∧ isChunk (.encStart 0x7FFFFFFF#31) = false := by decide

/-- DecodedBytesAreTheEncoding. -/
theorem wit_decoded : decode (.chunk [0xFD#8, 7#8]) = .ok (.run 61#6, [7#8]) ∧
    decode (.ctrlWrite .dec 0xFFFFFFFF#32) = .ok (.decStart 0x7FFFFFFF#31, []) := ⟨rfl, rfl⟩

/-- TagByteSelectsKind: both ends of every range (R60). -/
theorem wit_tag : [0x00#8, 0x3F#8, 0x40#8, 0x7F#8, 0x80#8, 0xBF#8, 0xC0#8, 0xFD#8, 0xFE#8, 0xFF#8].map kindOf =
    [.index, .index, .diff, .diff, .luma, .luma, .run, .run, .rgb, .rgba] := by decide

/-- ChunkLengthFollowsFromTag: just enough bytes, and one too few. -/
theorem wit_length : (kindOf 0xFF#8).length ≤ [1#8, 2#8, 3#8, 4#8].length + 1 ∧
    [1#8, 2#8, 3#8].length + 1 < (kindOf 0xFF#8).length ∧ ([] : List Byte).length + 1 < (kindOf 0x80#8).length := by decide

/-- Bytes an engine gets, as a check that runs. -/
theorem gets_of_all {s : State} {b : Buf} {off : Nat} {bs : List Byte}
    (h : ((List.range bs.length).all fun j => decide (inputByte s b (off + j) = bs[j]?)) = true) : GetsBytes s b off bs := by
  intro j hj
  have := of_decide_eq_true (List.all_eq_true.mp h j (List.mem_range.mpr hj))
  rw [this, List.getElem?_eq_getElem hj]

/-- StepRunsFetchedChunk, without and with a scripted turn. -/
theorem wit_fetched : ∃ i, isChunk i = true ∧ i.wf = true ∧ running.dec.phase = .loop ∧ running.dec.run = 0#6 ∧
    running.dec.ip < running.dec.stop ∧ GetsBytes running .bin running.dec.ip (chunkBytes i) ∧ running.script = [] ∧
    GetsBytes { running with script := [.dec, .enc] } .bin running.dec.ip (chunkBytes i) :=
  ⟨.rgb 10#8 20#8 30#8, by decide, by decide, by decide, by decide, by decide, gets_of_all (by decide), by decide,
    gets_of_all (by decide)⟩

/-- StepRunsCommandWrite: bit 0 set, and not set. -/
theorem wit_command : ({ placed with script := [.host (.write (.encCtrl 0x80000001#32))] } : State).script =
      .host (.write (.encCtrl 0x80000001#32)) :: [] ∧ (0x80000001#32).toNat % 2 = 1 ∧ (0xFFFFFFFE#32).toNat % 2 ≠ 1 := by
  decide

/-- IndexYieldsSlotPixel to RgbaSetsAllChannels, ClassifiedChunkYieldsThePixel: room for exactly one pixel. -/
theorem wit_room : RoomForPixel (atChunk [0x0C#8] prevInit) := by unfold RoomForPixel PixelFits FreeAt; decide

/-- An encode in VALIDATE whose `BOUT` lies over `BIN` or over the last byte of `POUT`, the decoder busy. -/
def crowded (bout : Region) : State := { starting with bufs := { regions with bout := bout } }

/-- The decoder at a pixel of 3 bytes whose last one is the busy encoder's. -/
def crowdedPixel : State := { running with bufs := { regions with bout := ⟨302, 34⟩ } }

/-- ChunkWithoutRoomFaults: a room of exactly one pixel; one byte too few; the last byte of the pixel the busy encoder's, and
the same byte beyond the capacity. -/
theorem wit_noRoom : isChunk (.rgb 1#8 2#8 3#8) = true ∧ (atChunk [0x0C#8] prevInit).bufs.pout.cap = 4 ∧
    encBusy (atChunk [0x0C#8] prevInit) = false ∧
    stopOf (exec (.rgb 1#8 2#8 3#8) { atChunk [0x0C#8] prevInit with bufs := ⟨⟨0, 0⟩, ⟨0, 0⟩, ⟨0, 40⟩, ⟨100, 3⟩⟩ }) =
      some (.inl (.outsideBuffer .pout 3)) ∧
    stopOf (exec (.rgb 1#8 2#8 3#8) crowdedPixel) = some (.inr (.engineWroteBusyBuffer .pout 2)) ∧
    stopOf (exec (.rgb 1#8 2#8 3#8) { crowdedPixel with bufs := { crowdedPixel.bufs with pout := ⟨300, 2⟩ } }) =
      some (.inl (.outsideBuffer .pout 2)) := by decide

/-- RunChunkYieldsItsLength: the longest run, filling the image and the buffer. -/
theorem wit_run : ∃ s : State, s.dec.phase = .loop ∧ s.dec.run = 0#6 ∧ (61#6).toNat ≤ 61 ∧
    s.dec.ip < s.dec.stop ∧ GetsBytes s .bin s.dec.ip (chunkBytes (.run 61#6)) ∧ (s.dec.ch = 3#8 ∨ s.dec.ch = 4#8) ∧
    s.dec.k + ((61#6).toNat + 1) ≤ s.dec.n ∧ s.dec.n * s.dec.ch.toNat ≤ s.bufs.pout.cap ∧
    FreeAt s .pout (s.dec.k * s.dec.ch.toNat) (((61#6).toNat + 1) * s.dec.ch.toNat) :=
  ⟨{ placed with
      bufs := { regions with pout := ⟨300, 186⟩ }, mem := placed.mem.write 218 0xFD#8,
      dec := { decOn .loop 18 0 0#6 prevInit with w := 62#32, n := 62 } },
    by decide, by decide, by decide, by decide, gets_of_all (by decide), by decide, by decide, by decide,
    fun _ _ => rfl⟩

/-- EncStartBeginsOperation and DecStartBeginsOperation, the other engine idle or busy, its buffers clear or not. -/
theorem wit_start : encBusy placed = false ∧ decBusy placed = false ∧ placed.bufs.pin.disjoint placed.bufs.bout = true ∧
    placed.bufs.bin.disjoint placed.bufs.pout = true ∧
    encBusy { starting with dec := placed.dec } = true ∧ decBusy { starting with enc := placed.enc } = true ∧
    (let s : State := { crowded ⟨200, 34⟩ with enc := placed.enc }
     encBusy s = false ∧ decBusy s = true ∧ s.bufs.pin.disjoint s.bufs.bout = true ∧
       s.bufs.bout.disjoint s.bufs.bin = false) := by decide

/-- R49 forbids the other engine's writes, not an overlap: with the decoder busy and `BOUT` over its `BIN`, ENC_START of an
image of width 0 writes no byte and ends in ERROR, code 4 (R83, R127). -/
theorem test_encStart_overlap :
    (nextOf (andThen (exec (.encStart 0#31) { crowded ⟨200, 34⟩ with enc := placed.enc }) encTurn)).map
      (fun t => (encStatus t, decStatus t, t.mem == placed.mem)) = some (0x43#32, 1#32, true) := by decide

/-- StartWhileBusyIgnored. -/
theorem wit_busy : encBusy starting = true ∧ decBusy starting = true := by decide

/-- StartRefusedOnOverlap: regions that meet share no byte, regions one byte further in do; an engine whose own two do, and one
whose buffers only overlap the other engine's. -/
theorem wit_overlap :
    stopOf (exec (.encStart 0#31) { placed with bufs := { regions with bout := ⟨8, 34⟩ } }) = some (.inr .buffersOverlap) ∧
    stopOf (exec (.decStart 0#31) { placed with bufs := { regions with pout := ⟨226, 9⟩ } }) = some (.inr .buffersOverlap) ∧
    (nextOf (exec (.decStart 0#31) { crowded ⟨200, 34⟩ with dec := placed.dec })).isSome = true ∧
    (⟨0, 9⟩ : Region).disjoint ⟨9, 9⟩ = true ∧ (⟨0, 10⟩ : Region).disjoint ⟨9, 9⟩ = false ∧
    (⟨0, 10⟩ : Region).has 9 = true ∧ (⟨9, 9⟩ : Region).has 9 = true := by decide

/-- ShortStreamIsIncomplete: 13 bytes; 14 and 21 bytes with a valid header. -/
theorem wit_short :
    ({ starting with dec := { starting.dec with len := 13 } } : State).dec.len < 14 ∧
    ((nextOf (decTurn { starting with dec := { starting.dec with len := 14 } })).map fun t => t.dec.phase) = some .loop ∧
    ((nextOf (decTurn { starting with dec := { starting.dec with len := 21 } })).map fun t => t.dec.phase) = some .loop := by
  decide

/-- A header with one byte changed. -/
def changed (i : Nat) (v : Byte) : List Byte := (stream.take 14).set i v

/-- HeaderReportsFirstFailingCheck and ValidHeaderSetsUpDecoder: a placed header, and one that fails each check. -/
theorem wit_header :
    starting.dec.phase = .header ∧ 14 ≤ starting.dec.len ∧ (stream.take 14).length = 14 ∧
      GetsBytes starting .bin 0 (stream.take 14) ∧ (stream.take 14).take 4 = starting.cfg.magic.toList ∧
      wordAt (stream.take 14) 4 = 3 ∧ wordAt (stream.take 14) 8 = 1 ∧ (changed 3 0x67#8).take 4 ≠ starting.cfg.magic.toList ∧
      wordAt (changed 7 0#8) 4 = 0 ∧ wordAt (changed 11 0#8) 8 = 0 ∧ ¬ wordAt (changed 4 0xFF#8) 4 * 1 < starting.cfg.pixelsMax ∧
      (changed 12 2#8).getD 12 0#8 = 2#8 ∧ (changed 13 2#8).getD 13 0#8 = 2#8 :=
  ⟨by decide, by decide, by decide, gets_of_all (by decide), by decide, by decide, by decide, by decide, by decide,
    by decide, by decide, by decide, by decide⟩

/-- ValidHeaderSetsUpDecoder: exactly enough room. TooSmallOutputIsRefused: one byte too little. -/
theorem wit_headerRoom : wordAt (stream.take 14) 4 * wordAt (stream.take 14) 8 * ((stream.take 14).getD 12 0#8).toNat = 9 ∧
    starting.bufs.pout.cap = 9 ∧
    ({ starting with bufs := { regions with pout := ⟨300, 8⟩ } } : State).bufs.pout.cap = 8 := by decide

/-- TooSmallOutputIsRefused: both engines after their checks, one byte short. -/
theorem wit_tooSmall : starting.enc.phase = .validate ∧ encError starting = none ∧ starting.dec.phase = .header ∧
    14 ≤ starting.dec.len ∧ headerError starting.cfg (parseHeader (stream.take 14)) = none ∧
    ({ starting with bufs := { regions with bout := ⟨100, 33⟩ } } : State).bufs.bout.cap <
      22 + starting.enc.w.toNat * starting.enc.h.toNat * (starting.enc.ch.toNat + 1) := by decide

/-- ReplayReemitsPreviousPixel and ReplayCacheWriteChangesNothing. -/
theorem wit_replay : Sound replaying ∧ replaying.dec.phase = .loop ∧ replaying.dec.run ≠ 0#6 ∧ RoomForPixel replaying :=
  ⟨sound_replaying, by decide, by decide, by unfold RoomForPixel PixelFits FreeAt; decide⟩

/-- MissingChunkIsIncomplete and the second case of LoopStepProducesOnePixelOrFails: `d.ip = d.END`. -/
theorem wit_starved : starved.dec.phase = .loop ∧ starved.dec.run = 0#6 ∧ starved.dec.stop ≤ starved.dec.ip ∧
    ((nextOf (decTurn starved)).map fun t => t.dec.err) = some (some .incompleteImage) ∧
    starved.bufs.pout.has 308 = true ∧ starved.bufs.pout.has 309 = false ∧ encBusy starved = false := by decide

/-- MissingChunkIsIncomplete: after the error the whole of `POUT` holds any value (R131): the pixels of the decode, though the
encoder that is now busy has its `PIN` over them. The memory lists the same addresses, and a byte outside `POUT` is as before. -/
theorem test_starved_frees :
    let s : State := { starved with enc := running.enc, bufs := { regions with pout := ⟨8, 9⟩ },
                                    mem := starved.mem.write 9 7#8 }
    ((nextOf (decTurn s)).map fun t => (t.mem.map (·.1) == s.mem.map (·.1), t.mem.read 7 == s.mem.read 7)) =
      some (true, true) ∧
    ∀ t, decTurn s = .next t → t.mem.read 8 = some (Config.leftByte 0 8) ∧ t.mem.read 9 = some (Config.leftByte 0 9) := by
  refine ⟨by decide, fun t h => ?_⟩
  rw [← (Host.Outcome.next.inj h)]
  exact ⟨rfl, rfl⟩

/-- LoopStepProducesOnePixelOrFails: the last pixel, and one before it. -/
theorem wit_loopStep : ((nextOf (decTurn replaying)).map fun t => t.dec.phase) = some .done ∧
    ((nextOf (decTurn running)).map fun t => t.dec.phase) = some .loop := by decide

/-- DecoderDependsOnlyOnStream: a second state with another `PIN` and another encoder. -/
theorem wit_decoderDepends : ∃ u t : State, Sound running ∧ running.dec = u.dec ∧ running.decRegs = u.decRegs ∧
    running.cfg = u.cfg ∧ running.bufs.pout.cap = u.bufs.pout.cap ∧ PoutClear u ∧
    (∀ off, off < running.dec.len → inputByte running .bin off = inputByte u .bin off) ∧ decTurn running = .next t ∧
    u.enc ≠ running.enc ∧ running.dec.phase = .loop ∧ t.dec.k = running.dec.k + 1 := by
  refine ⟨{ running with enc := Enc.reset }, (nextOf (decTurn running)).getD placed, sound_running, rfl, rfl, rfl, rfl,
    by unfold PoutClear; decide, by decide, ?_, by decide, by decide, by decide⟩
  rfl

/-- ValidateReportsFirstFailingCheck: operands that fail each check, and ones that pass. -/
theorem wit_validate : starting.enc.phase = .validate ∧ encError starting = none ∧
    encError { starting with enc := { starting.enc with w := 0#32 } } = some .dimension ∧
    encError { starting with enc := { starting.enc with ch := 2#8 } } = some .channel ∧
    encError { starting with enc := { starting.enc with cs := 2#8 } } = some .colorspace ∧
    encError { starting with enc := { starting.enc with plen := 10 } } = some .bufferLength := by decide

/-- ValidateWritesHeader: exactly enough room. -/
theorem wit_validateRoom : 22 + starting.enc.w.toNat * starting.enc.h.toNat * (starting.enc.ch.toNat + 1) = 34 ∧
    starting.bufs.bout.cap = 34 ∧ starting.enc.plen = starting.enc.w.toNat * starting.enc.h.toNat * starting.enc.ch.toNat ∧
    decBusy starting = true ∧ FreeAt starting .bout 0 14 := by
  unfold FreeAt; decide

/-- FetchReadsPixelBytes and EncoderLoopStepCompletes, the decoder busy. -/
theorem wit_fetch : Sound running ∧ decBusy running = true ∧ BoutClear running ∧ running.enc.phase = .loop ∧ running.enc.ch = 3#8 ∧
    GetsPixel running .pin (running.enc.i * running.enc.ch.toNat) running.enc.ch ⟨10#8, 20#8, 30#8, 255#8⟩ :=
  ⟨sound_running, by decide, by unfold BoutClear; decide, by decide, by decide, by unfold GetsPixel; decide⟩

/-- FetchReadsPixelBytes with 4 channels. -/
theorem wit_fetch4 : GetsPixel { running with enc := { running.enc with ch := 4#8 } } .pin (1 * (4#8).toNat) 4#8
    ⟨20#8, 30#8, 10#8, 20#8⟩ := by unfold GetsPixel; decide

/-- RepeatedPixelExtendsRun: in the middle of a run; at the longest run; at the last pixel. -/
theorem wit_repeated :
    let s (run : BitVec 6) (i : Nat) : State := { running with enc := encOn .loop i 14 run ⟨10#8, 20#8, 30#8, 255#8⟩ }
    nextOf (fetchPixel 1 (s 60#6 1)) = some (s 60#6 1).enc.prev ∧ (60#6).toNat + 1 ≠ 62 ∧ (61#6).toNat + 1 = 62 ∧
      nextOf (fetchPixel 2 (s 0#6 2)) = some (s 0#6 2).enc.prev ∧ (s 0#6 2).enc.i + 1 = (s 0#6 2).enc.n ∧
      (s 61#6 1).enc.op < (s 61#6 1).bufs.bout.cap ∧ FreeAt (s 61#6 1) .bout (s 61#6 1).enc.op 1 := by unfold FreeAt; decide

/-- DifferingPixelEmitsItsChunk: a miss with nothing pending, and a hit behind a pending run. -/
theorem wit_differing :
    let hit : State := { running with
      enc := { encOn .loop 1 14 1#6 prevInit with cache := cachePut freshCache 9#6 ⟨10#8, 20#8, 30#8, 255#8⟩ } }
    nextOf (fetchPixel 0 running) = some ⟨10#8, 20#8, 30#8, 255#8⟩ ∧ (⟨10#8, 20#8, 30#8, 255#8⟩ : Pixel) ≠ running.enc.prev ∧
      cacheHit running.enc.cache ⟨10#8, 20#8, 30#8, 255#8⟩ = false ∧
      nextOf (fetchPixel 1 hit) = some ⟨10#8, 20#8, 30#8, 255#8⟩ ∧ cacheHit hit.enc.cache ⟨10#8, 20#8, 30#8, 255#8⟩ = true ∧
      14 + 5 ≤ running.bufs.bout.cap ∧ FreeAt running .bout 14 5 := by unfold FreeAt; decide

/-- ClassifierPrefersDiffThenLuma: ENC-D1, ENC-D2, ENC-L4, ENC-L5, ENC-G1 and ENC-G2 at the ends of the ranges. -/
theorem wit_classifier : IsWrapDelta (-2) 254#8 0#8 ∧ IsWrapDelta 1 0#8 255#8 ∧ IsWrapDelta 2 2#8 0#8 ∧
    IsWrapDelta (-40) 216#8 0#8 ∧ IsWrapDelta (-32) 224#8 0#8 ∧ IsWrapDelta 31 31#8 0#8 ∧ IsWrapDelta 38 38#8 0#8 ∧
    IsWrapDelta 32 32#8 0#8 ∧ IsWrapDelta (-128) 128#8 0#8 := by unfold IsWrapDelta; decide

/-- TailWritesEndMarker: nothing pending, and a pending run. -/
theorem wit_tail : replaying.enc.phase = .tail ∧ replaying.enc.run.toNat = 0 ∧ replaying.enc.op + 8 ≤ replaying.bufs.bout.cap ∧
    (encOn .tail 3 18 5#6 prevInit).run.toNat ≠ 0 ∧ FreeAt replaying .bout replaying.enc.op 9 := by unfold FreeAt; decide

/-- EncoderDependsOnlyOnInput: a second state with another decoder and another `BIN`. -/
theorem wit_encoderDepends : ∃ u t : State, Sound running ∧ running.enc = u.enc ∧ running.encRegs = u.encRegs ∧
    running.cfg = u.cfg ∧ running.bufs.bout.cap = u.bufs.bout.cap ∧ BoutClear u ∧
    (∀ off, off < running.enc.plen → inputByte running .pin off = inputByte u .pin off) ∧ encTurn running = .next t ∧
    u.dec ≠ running.dec := by
  refine ⟨{ running with dec := Dec.reset }, (nextOf (encTurn running)).getD placed, sound_running, rfl, rfl, rfl, rfl,
    by unfold BoutClear; decide, by decide, ?_, by decide⟩
  rfl

/-- EncoderDependsOnlyOnInput: a step of each kind, by where its bytes go (`start`, `count`): the header, a literal, a pending
RUN, the end marker, and none on an error. -/
theorem wit_encoderStores :
    let stored (s : State) : Option (Nat × Nat) := (nextOf (encTurn s)).map fun t =>
      (if s.enc.phase = .validate then 0 else s.enc.op,
        if t.enc.phase = .error then 0 else t.enc.op - (if s.enc.phase = .validate then 0 else s.enc.op))
    stored starting = some (0, 14) ∧ stored failing = some (0, 0) ∧ stored running = some (14, 4) ∧
      stored lastPixel = some (18, 1) ∧ stored replaying = some (18, 8) ∧ stored finished = some (27, 0) := by decide

/-- CachesStayInStep: at the start of an operation, and once both caches hold a pixel. -/
theorem wit_caches : RoomForPixel running ∧ CachesAgree freshCache running.dec.cache ∧ PrevCached freshCache running.dec.prev ∧
    PrevCached (cachePut freshCache 9#6 ⟨10#8, 20#8, 30#8, 255#8⟩) ⟨10#8, 20#8, 30#8, 255#8⟩ :=
  ⟨by unfold RoomForPixel PixelFits FreeAt; decide, fun _ => .inl rfl, .inr (by decide), .inl (by decide)⟩

/-- DecodingAnEncodingGivesTheImage: the image of this file, both engines idle, `BIN` the encoder's output. -/
theorem wit_roundTrip :
    let s : State := { placed with
      bufs := ⟨⟨0, 9⟩, ⟨100, 34⟩, ⟨100, 34⟩, ⟨300, 9⟩⟩, encRegs := ⟨3#32, 1#32, 3#8, 0#8, 9, 0⟩ }
    Sound s ∧ encBusy s = false ∧ decBusy s = false ∧
      fieldError s.encRegs.width s.encRegs.height s.encRegs.channels s.encRegs.colorspace s.cfg.pixelsMax = none ∧
      s.encRegs.inLen = s.encRegs.width.toNat * s.encRegs.height.toNat * s.encRegs.channels.toNat ∧
      (∀ off, off < s.encRegs.inLen → ∃ v, bufByte s .pin off = some v) ∧
      encCapacity s.encRegs.width s.encRegs.height s.encRegs.channels ≤ s.bufs.bout.cap ∧
      s.encRegs.inLen ≤ s.bufs.pout.cap ∧ s.bufs.pin.disjoint s.bufs.bout = true ∧ s.bufs.bin = s.bufs.bout ∧
      s.bufs.bin.disjoint s.bufs.pout = true := by
  refine ⟨⟨by decide, by decide, ?_, ?_⟩, by decide, by decide, by decide, by decide, ?_, by decide,
    by decide, by decide, by decide, by decide⟩
  · constructor <;> simp [Enc.reset, placed, State.reset, State.resetWith, encBusy, EncPhase.stateField]
  · constructor <;> simp [Dec.reset, placed, State.reset, State.resetWith, DecRegs.reset, decBusy, DecPhase.stateField]
  · intro off ho
    have : off < 9 := ho
    interval_cases off <;> exact ⟨_, rfl⟩

/-- ResetStateIsSound: the smallest ceiling and the width it asks; two registers at one address are no map. -/
theorem wit_params : (⟨#v[1#8, 2#8, 3#8, 4#8], 2, 5, Config.RegMap.default⟩ : Config.Params).ok = true ∧
    (⟨#v[1#8, 2#8, 3#8, 4#8], 1, 5, Config.RegMap.default⟩ : Config.Params).ok = false ∧
    (⟨#v[1#8, 2#8, 3#8, 4#8], 2, 5, { Config.RegMap.default with decCtrl := 0xF0000000 }⟩ : Config.Params).ok = false := by
  decide

/-- EveryStepKeepsSound, NoSoundStepFaults, ParametersNeverChange, PhasesMoveOnlyAsListed: a sound state that steps. -/
theorem wit_step : Sound running ∧ (nextOf (step running)).isSome = true ∧ running.script = [] :=
  ⟨sound_running, by decide, by decide⟩

/-- OutputLengthIsBounded: the step into DONE. -/
theorem wit_done : Sound { replaying with script := [.enc] } ∧
    ((nextOf (step { replaying with script := [.enc] })).map fun t => t.enc.phase) = some .done :=
  ⟨sound_replaying.withScript _, by decide⟩

/-- LengthRegistersFit: LOOP, TAIL and DONE of the encoder, LOOP and DONE of the decoder. -/
theorem wit_lengths : Sound running ∧ running.enc.phase = .loop ∧ running.dec.phase = .loop ∧ Sound replaying ∧
    replaying.enc.phase = .tail ∧ Sound finished ∧ finished.enc.phase = .done ∧ finished.dec.phase = .done :=
  ⟨sound_running, by decide, by decide, sound_replaying, by decide, sound_finished, by decide, by decide⟩

/-- The phases one scripted turn leads to, of the encoder and of the decoder. -/
def phasesAfter (s : State) (turn : Turn) : Option (EncPhase × DecPhase) :=
  (nextOf (step { s with script := [turn] })).map fun t => (t.enc.phase, t.dec.phase)

/-- PhasesMoveOnlyAsListed: sound states, whatever turns they have. -/
theorem wit_phases_sound : Sound placed ∧ Sound starting ∧ Sound failing ∧ Sound unsigned ∧ Sound running ∧ Sound lastPixel ∧
    Sound replaying ∧ Sound starved ∧ Sound finished :=
  ⟨sound_placed, sound_starting, sound_failing, sound_unsigned, sound_running, sound_lastPixel, sound_replaying,
    sound_starved, sound_finished⟩

/-- PhasesMoveOnlyAsListed: each arrow of the encoder, and the hardware reset (R25). -/
theorem wit_phases_enc :
    phasesAfter placed (.host (.write (.encCtrl 1#32))) = some (.validate, .idle) ∧
    phasesAfter placed (.host (.writeAt 0xF0000000 1)) = some (.validate, .idle) ∧
    phasesAfter finished (.host (.write (.encCtrl 1#32))) = some (.validate, .done) ∧
    phasesAfter failing .enc = some (.error, .header) ∧ phasesAfter starting .enc = some (.loop, .header) ∧
    phasesAfter running .enc = some (.loop, .loop) ∧ phasesAfter lastPixel .enc = some (.tail, .loop) ∧
    phasesAfter replaying .enc = some (.done, .loop) ∧ phasesAfter running (.host .hardReset) = some (.idle, .idle) := by
  decide

/-- PhasesMoveOnlyAsListed: each arrow of the decoder (R25); the two ways into ERROR from HEADER. -/
theorem wit_phases_dec :
    phasesAfter placed (.host (.write (.decCtrl 1#32))) = some (.idle, .header) ∧
    phasesAfter placed (.host (.writeAt 0xF0000020 1)) = some (.idle, .header) ∧
    phasesAfter finished (.host (.write (.decCtrl 1#32))) = some (.done, .header) ∧
    phasesAfter failing .dec = some (.validate, .error) ∧ phasesAfter unsigned .dec = some (.validate, .error) ∧
    phasesAfter starting .dec = some (.validate, .loop) ∧ phasesAfter running .dec = some (.loop, .loop) ∧
    phasesAfter replaying .dec = some (.tail, .done) ∧ phasesAfter starved .dec = some (.idle, .error) := by
  decide

/-- EngineStepsKeepApart and EngineStepsCommute: both engines step, their buffers clear of each other. -/
theorem wit_commute : Sound running ∧ BoutClear running ∧ PoutClear running ∧ encBusy running = true ∧
    decBusy running = true ∧ (∃ a, encTurn running = .next a ∧ (nextOf (decTurn a)).isSome = true) ∧
    ∃ c, decTurn running = .next c ∧ (nextOf (encTurn c)).isSome = true :=
  ⟨sound_running, by unfold BoutClear; decide, by unfold PoutClear; decide, by decide, by decide,
    ⟨(nextOf (encTurn running)).getD placed, rfl, by decide⟩, ⟨(nextOf (decTurn running)).getD placed, rfl, by decide⟩⟩

/-- EngineStepsKeepApart: engines in IDLE, DONE and ERROR; a byte of a busy engine's buffers and one of none. -/
theorem wit_apart : encBusy placed = false ∧ encBusy finished = false ∧ encBusy (raiseEnc .channel placed) = false ∧
    decBusy placed = false ∧ decBusy finished = false ∧ decBusy (raiseDec .signature placed) = false ∧
    placed.script = [] ∧ ({ finished with script := [.enc, .dec] } : State).script = .enc :: [.dec] ∧
    running.bufs.bout.has 99 = false ∧ running.bufs.bin.has 226 = true ∧ running.bufs.pin.has 0 = true := by decide

/-- EncodeFinishes: operands that pass, and ones that fail. -/
theorem wit_encodeFinishes :
    let s : State := { starting with dec := Dec.reset }
    s.script = [] ∧ decBusy s = false ∧ s.enc.phase = .validate ∧ encError s = none ∧
      encCapacity s.enc.w s.enc.h s.enc.ch ≤ s.bufs.bout.cap ∧
      encError { s with enc := { s.enc with plen := 8 } } ≠ none ∧ ∀ off, off < 9 → (bufByte s .pin off).isSome = true := by
  decide

/-- DecodeFinishes. -/
theorem wit_decodeFinishes : Sound starting ∧ starting.script = [] ∧ starting.dec.phase = .header ∧
    stream.length = starting.dec.len ∧ GetsBytes starting .bin 0 stream ∧
    wordAt stream 4 * wordAt stream 8 * (stream.getD 12 0#8).toNat ≤ starting.bufs.pout.cap ∧ PoutClear starting :=
  ⟨sound_starting, by decide, by decide, by decide, gets_of_all (by decide), by decide, by unfold PoutClear; decide⟩

/-- StatusShowsPhaseAndError: a sound state in LOOP and TAIL; RegisterWriteEffects: words with bit 0 clear and set. -/
theorem wit_status : Sound replaying ∧ replaying.enc.phase = .tail ∧ replaying.dec.phase = .loop ∧
    (0xFFFFFFFE#32).toNat % 2 = 0 ∧ (1#32).toNat % 2 = 1 ∧ (0xFFFFFFFF#32).toNat % 2 = 1 :=
  ⟨sound_replaying, by decide, by decide, by decide, by decide, by decide⟩

/-- RegisterReadsHideWorkingState, its last clause: LOOP and TAIL, with other working registers. -/
theorem wit_hide : running.encRegs = replaying.encRegs ∧ running.decRegs = replaying.decRegs ∧
    running.enc.phase.stateField = replaying.enc.phase.stateField ∧
    running.dec.phase.stateField = replaying.dec.phase.stateField ∧ running.enc.err = replaying.enc.err ∧
    running.dec.err = replaying.dec.err ∧ running.enc ≠ replaying.enc := by decide

/-- HostKeepsOffBusyBuffers and UnfinishedOutputReadsFree: the last byte of a busy buffer, the first offset beyond it, and a
byte and a buffer of an idle engine. -/
theorem wit_hostAccess : 8 < (running.bufs.get .pin).cap ∧ ¬ 9 < (running.bufs.get .pin).cap ∧ encBusy running = true ∧
    running.bufs.pin.has (bufAddr running .pin 8) = true ∧
    33 < (running.bufs.get .bout).cap ∧ running.bufs.bout.has (bufAddr running .bout 33) = true ∧
    encBusy placed = false ∧ decBusy placed = false ∧
    busyAddr placed (bufAddr placed .pin 8) = false ∧ unspecifiedByte placed .pin (bufAddr placed .pin 8) = false ∧
    placed.mem.read (bufAddr placed .pin 8) = some 30#8 := by decide

/-- UnfinishedOutputReadsFree: the last byte the running decode has written and the first it has not, read through `PIN`; the
same of the running encode, read through `BIN`; two states that differ in a running decode, and two that differ in a running
encode. -/
theorem wit_hidden :
    (let s : State := { replaying with bufs := { regions with pin := ⟨300, 9⟩ }, mem := replaying.mem.write 306 7#8 }
     6 < (s.bufs.get .pin).cap ∧ s.dec.phase = .loop ∧ s.bufs.pout.has (bufAddr s .pin 5) = true ∧
       bufAddr s .pin 5 < bufAddr s .pout (s.dec.k * s.dec.ch.toNat) ∧
       ¬ bufAddr s .pin 6 < bufAddr s .pout (s.dec.k * s.dec.ch.toNat) ∧ s.mem.read (bufAddr s .pin 6) = some 7#8) ∧
    (let s : State := { replaying with bufs := { regions with bin := ⟨100, 34⟩ }, mem := replaying.mem.write 118 7#8 }
     18 < (s.bufs.get .bin).cap ∧ s.enc.phase = .tail ∧ s.bufs.bout.has (bufAddr s .bin 17) = true ∧
       bufAddr s .bin 17 < bufAddr s .bout s.enc.op ∧ ¬ bufAddr s .bin 18 < bufAddr s .bout s.enc.op ∧
       s.mem.read (bufAddr s .bin 18) = some 7#8) ∧
    (let d := decOn .loop 14 2 0#6 prevInit
     SameButRunningDec replaying { replaying with dec := d, mem := replaying.mem.write 305 7#8 } ∧ d ≠ replaying.dec) ∧
    (let e := encOn .loop 0 18 0#6 prevInit
     SameButRunningEnc replaying { replaying with enc := e, mem := replaying.mem.write 117 7#8 } ∧ e ≠ replaying.enc) := by
  refine ⟨by decide, by decide, ⟨⟨by decide, by decide, rfl, fun _ => rfl, fun a ha => ?_⟩, by decide⟩,
    ⟨⟨by decide, by decide, rfl, fun _ => rfl, fun a ha => ?_⟩, by decide⟩⟩
  · exact (Memory.read_write replaying.mem 305 a 7#8).trans (if_neg fun e => absurd (e ▸ ha) (by decide))
  · exact (Memory.read_write replaying.mem 117 a 7#8).trans (if_neg fun e => absurd (e ▸ ha) (by decide))

/-- R139, R50: the encoder, its `PIN` over `POUT`, reads free values where the running decode has written, and what stands there
where it has not. -/
theorem test_runningPixel_hidden :
    let s : State := { replaying with bufs := { regions with pin := ⟨300, 9⟩ }, mem := replaying.mem.writeAll 305 [10#8, 7#8] }
    loadByte .pin 5 s = .next (Config.encInputByte 0 305) ∧ loadByte .pin 6 s = .next 7#8 := ⟨rfl, rfl⟩

/-- R131: a HEADER error leaves any value in the whole of `POUT`, through every buffer and after a reset. -/
theorem test_headerError_frees :
    ∀ t, decTurn { unsigned with mem := unsigned.mem.write 300 10#8 } = .next t → decStatus t = 0x33#32 ∧
      t.mem.read 300 = some (Config.leftByte 0 300) ∧ (hardReset t).mem.read 300 = some (Config.leftByte 0 300) := by
  intro t h
  rw [← Host.Outcome.next.inj h]
  exact ⟨rfl, rfl, rfl⟩

/-- RegistersAnswerAtTheirAddresses: legal parameters, an address of no register, values at the ends of a width. -/
theorem wit_addresses : placed.cfg.ok = true ∧ 0xF0000002 ∉ placed.cfg.regMap.addrs ∧
    (0xFFFFFFFF#32).toNat < 2 ^ 32 ∧ 2 ^ 32 ≤ 0x100000000 ∧ 2 ^ 8 ≤ 256 := by decide

/-- RegisterReadsHideWorkingState: both engines DONE, with results all different; and both busy. -/
theorem wit_registers : Sound finished ∧ finished.enc.phase = .done ∧ finished.dec.phase = .done ∧
    [Reg.encOutLen, .decWidth, .decHeight, .decChannels, .decColorspace, .decOutLen].map (readReg · finished) =
      [27, 3, 1, 3, 0, 9] ∧ Sound running ∧ running.enc.phase ≠ .done ∧ running.dec.phase ≠ .done :=
  ⟨sound_finished, by decide, by decide, by decide, sound_running, by decide, by decide⟩

/-- EngineStoresKeepOffBusyBuffers: `BOUT` over the busy decoder's `BIN`; its byte 13, and no earlier one, in `POUT`; the
decoder's third pixel byte in `BOUT`; and steps that complete. -/
theorem wit_keepOff : (crowded ⟨200, 34⟩).enc.phase = .validate ∧ encError (crowded ⟨200, 34⟩) = none ∧
    encCapacity 3#32 1#32 3#8 ≤ 34 ∧ decOwns (crowded ⟨200, 34⟩) 200 = true ∧
    stopOf (encTurn (crowded ⟨200, 34⟩)) = some (.inr (.engineWroteBusyBuffer .bout 0)) ∧
    stopOf (encTurn (crowded ⟨287, 34⟩)) = some (.inr (.engineWroteBusyBuffer .bout 13)) ∧
    stopOf (decTurn crowdedPixel) = some (.inr (.engineWroteBusyBuffer .pout 2)) ∧
    (nextOf (encTurn (crowded ⟨286, 34⟩))).isSome = true ∧ (nextOf (encTurn running)).isSome = true ∧
    ((nextOf (decTurn running)).map fun t => t.dec.k) = some (running.dec.k + 1) := by decide

/-! ### Registers at their addresses (R27, R28; the addresses are those of log 8) -/

/-- `ENC_WIDTH` keeps the value written; `DEC_CHANNELS` is read-only (R30). -/
theorem test_writeAt :
    ((nextOf (hostTurn (.writeAt 0xF0000008 640) placed)).map fun t => t.encRegs.width) = some 640#32 ∧
      nextOf (hostTurn (.writeAt 0xF0000034 4) placed) = some placed := by decide

/-- `ENC_STATUS` reads 1 while the encoder is busy, `DEC_CTRL` reads 0 (R29, R30). -/
theorem test_readAt :
    ((nextOf (hostTurn (.readAt 0xF0000004) running)).map fun t => t.rdata) = some 1 ∧
      ((nextOf (hostTurn (.readAt 0xF0000020) running)).map fun t => t.rdata) = some 0 := by decide

end Sys2Proof.Tests
end

section
/-! PROOF. The statements of spec/00_scope.md: the parameters never change (R5), computed lengths fit `LEN_W` bits (R6), each
register answers at its `REG_MAP` address (R5, R27, R28). First what a host access, a turn and a step can do. -/

namespace Sys2Proof.Machine

/-! ### What a step can do -/

/-- A write to `ENC_CTRL` runs ENC_START when bit 0 is 1 and does nothing when it is 0 (R30, R117). -/
theorem command_enc (v : Word) (s : State) :
    command .enc v s = if v.toNat % 2 = 1 then exec (.encStart (v.extractLsb' 1 31)) s else .next s := by
  simp only [← ctrl_start_bit]
  by_cases hv : v.extractLsb' 0 1 = 1#1 <;> simp [command, decode, decodeCtrl, hv, Except.map]

/-- A write to `DEC_CTRL` runs DEC_START when bit 0 is 1 and does nothing when it is 0 (R30, R118). -/
theorem command_dec (v : Word) (s : State) :
    command .dec v s = if v.toNat % 2 = 1 then exec (.decStart (v.extractLsb' 1 31)) s else .next s := by
  simp only [← ctrl_start_bit]
  by_cases hv : v.extractLsb' 0 1 = 1#1 <;> simp [command, decode, decodeCtrl, hv, Except.map]

/-- An ENC_START that completes is ignored by a busy encoder, or begins an encode (R117, R119). -/
theorem execEncStart_cases {x : BitVec 31} {s t : State} (h : exec (.encStart x) s = .next t) :
    (encBusy s = true ∧ t = s) ∨ (encBusy s = false ∧ encPlaced s = true ∧ t = beginEnc s) := by
  simp only [exec, execEncStart] at h
  split at h
  · exact .inl ⟨‹_›, (Host.Outcome.next.inj h).symm⟩
  · split at h
    · exact .inr ⟨eq_false_of_ne_true ‹_›, ‹_›, (Host.Outcome.next.inj h).symm⟩
    · cases h

/-- A DEC_START that completes is ignored by a busy decoder, or begins a decode (R118, R119). -/
theorem execDecStart_cases {x : BitVec 31} {s t : State} (h : exec (.decStart x) s = .next t) :
    (decBusy s = true ∧ t = s) ∨ (decBusy s = false ∧ decPlaced s = true ∧ t = beginDec s) := by
  simp only [exec, execDecStart] at h
  split at h
  · exact .inl ⟨‹_›, (Host.Outcome.next.inj h).symm⟩
  · split at h
    · exact .inr ⟨eq_false_of_ne_true ‹_›, ‹_›, (Host.Outcome.next.inj h).symm⟩
    · cases h

/-- A write to `ENC_CTRL` that completes changes nothing or begins an encode (R30, R117, R119). -/
theorem command_enc_cases {v : Word} {s t : State} (h : command .enc v s = .next t) :
    t = s ∨ (v.toNat % 2 = 1 ∧ encBusy s = false ∧ encPlaced s = true ∧ t = beginEnc s) := by
  rw [command_enc] at h
  split at h
  · exact (execEncStart_cases h).imp And.right fun hb => ⟨‹_›, hb⟩
  · exact .inl (Host.Outcome.next.inj h).symm

/-- A write to `DEC_CTRL` that completes changes nothing or begins a decode (R30, R118, R119). -/
theorem command_dec_cases {v : Word} {s t : State} (h : command .dec v s = .next t) :
    t = s ∨ (v.toNat % 2 = 1 ∧ decBusy s = false ∧ decPlaced s = true ∧ t = beginDec s) := by
  rw [command_dec] at h
  split at h
  · exact (execDecStart_cases h).imp And.right fun hb => ⟨‹_›, hb⟩
  · exact .inl (Host.Outcome.next.inj h).symm

/-- A register write that completes: nothing, an operand of the encoder, the operand of the decoder, or a START (R27, R28,
R30). -/
theorem writeReg_cases {w : RegWrite} {s t : State} (h : writeReg w s = .next t) :
    t = s ∨
    (∃ regs : EncRegs, t = { s with encRegs := { regs with outLen := s.encRegs.outLen } }) ∨
    (∃ n, t = { s with decRegs := { s.decRegs with inLen := n } }) ∨
    (∃ v : Word, w = .encCtrl v ∧ v.toNat % 2 = 1 ∧ encBusy s = false ∧ encPlaced s = true ∧ t = beginEnc s) ∨
    (∃ v : Word, w = .decCtrl v ∧ v.toNat % 2 = 1 ∧ decBusy s = false ∧ decPlaced s = true ∧ t = beginDec s) := by
  cases w with
  | encCtrl v => exact (command_enc_cases h).imp_right fun hb => .inr (.inr (.inl ⟨v, rfl, hb⟩))
  | decCtrl v => exact (command_dec_cases h).imp_right fun hb => .inr (.inr (.inr ⟨v, rfl, hb⟩))
  | encWidth v => exact .inr (.inl ⟨{ s.encRegs with width := v }, (Host.Outcome.next.inj h).symm⟩)
  | encHeight v => exact .inr (.inl ⟨{ s.encRegs with height := v }, (Host.Outcome.next.inj h).symm⟩)
  | encChannels v => exact .inr (.inl ⟨{ s.encRegs with channels := v }, (Host.Outcome.next.inj h).symm⟩)
  | encColorspace v => exact .inr (.inl ⟨{ s.encRegs with colorspace := v }, (Host.Outcome.next.inj h).symm⟩)
  | encInLen v => exact .inr (.inl ⟨{ s.encRegs with inLen := v }, (Host.Outcome.next.inj h).symm⟩)
  | decInLen v => exact .inr (.inr (.inl ⟨v, (Host.Outcome.next.inj h).symm⟩))
  | encStatus _ | encOutLen _ | decStatus _ | decWidth _ | decHeight _ | decChannels _ | decColorspace _ | decOutLen _ =>
    exact .inl (Host.Outcome.next.inj h).symm

/-- A host access that completes: a register write, by name or at the register's address; a read, which changes only what
the host has read and the counter of free values; a byte stored off the busy buffers; an idle buffer placed; the hardware
reset (R125, R141). -/
theorem hostTurn_cases {a : HostAccess} {s t : State} (h : hostTurn a s = .next t) :
    (∃ w, writeReg w s = .next t ∧
      (a = .write w ∨ ∃ r v, a = .writeAt (regAddr s.cfg.regMap r) v ∧ regWrite r v = some w)) ∨
    (∃ d n, t = { s with rdata := d, freeCount := n }) ∨
    (∃ b off v, off < (s.bufs.get b).cap ∧ busyAddr s (bufAddr s b off) = false ∧
      t = { s with mem := s.mem.write (bufAddr s b off) v }) ∨
    (∃ b r, busyBuf s b = false ∧ t = { s with bufs := s.bufs.set b r }) ∨
    (a = .hardReset ∧ t = hardReset s) := by
  cases a with
  | write w => exact .inl ⟨w, h, .inl rfl⟩
  | read r => exact .inr (.inl ⟨_, _, (Host.Outcome.next.inj h).symm⟩)
  | writeAt a v =>
    obtain ⟨r, w, rfl, hw, ht⟩ := hostWriteAt_cases h
    exact .inl ⟨w, ht, .inr ⟨r, v, rfl, hw⟩⟩
  | readAt a =>
    obtain ⟨r, -, rfl⟩ := hostReadAt_cases h
    exact .inr (.inl ⟨_, _, rfl⟩)
  | storeByte b off v =>
    simp only [hostTurn, hostStore] at h
    split at h
    · split at h
      · cases h
      · exact .inr (.inr (.inl ⟨b, off, v, ‹_›, eq_false_of_ne_true ‹_›, (Host.Outcome.next.inj h).symm⟩))
    · cases h
  | loadByte b off =>
    simp only [hostTurn, hostLoad] at h
    split at h
    · split at h <;> exact .inr (.inl ⟨_, _, (Host.Outcome.next.inj h).symm⟩)
    · cases h
  | place b r =>
    simp only [hostTurn, hostPlace] at h
    split at h
    · cases h
    · exact .inr (.inr (.inr (.inl ⟨b, r, eq_false_of_ne_true ‹_›, (Host.Outcome.next.inj h).symm⟩)))
  | hardReset => exact .inr (.inr (.inr (.inr ⟨rfl, (Host.Outcome.next.inj h).symm⟩)))

/-- A step is a turn: with no turn scripted one of an engine, the decoder first; else the script's first, which leaves it
(R26; log 9). -/
theorem step_cases {s t : State} (h : step s = .next t) :
    (s.script = [] ∧ decBusy s = true ∧ decTurn s = .next t) ∨
    (s.script = [] ∧ decBusy s = false ∧ encTurn s = .next t) ∨
    (∃ rest, s.script = .enc :: rest ∧ encTurn { s with script := rest } = .next t) ∨
    (∃ rest, s.script = .dec :: rest ∧ decTurn { s with script := rest } = .next t) ∨
    (∃ a rest, s.script = .host a :: rest ∧ hostTurn a { s with script := rest } = .next t) := by
  unfold step takeTurn at h
  split at h
  case h_1 hs =>
    unfold idleTurn at h
    split at h
    · exact .inl ⟨hs, ‹_›, h⟩
    · exact .inr (.inl ⟨hs, eq_false_of_ne_true ‹_›, h⟩)
  case h_2 rest hs => exact .inr (.inr (.inl ⟨rest, hs, h⟩))
  case h_3 rest hs => exact .inr (.inr (.inr (.inl ⟨rest, hs, h⟩)))
  case h_4 a rest hs => exact .inr (.inr (.inr (.inr ⟨a, rest, hs, h⟩)))

/-! ### The parameters (R5) -/

/-- A decoder turn that completes changes nothing beside the decoder and memory. -/
theorem decTurn_frame {s t : State} (h : decTurn s = .next t) : SameBesideDec s t := by
  have refl : SameBesideDec s s := ⟨rfl, rfl, rfl, rfl, rfl, rfl, rfl⟩
  obtain ⟨-, rfl⟩ | ⟨-, hb, -⟩ | ⟨-, -, px, ho⟩ | ⟨-, -, -, rfl⟩ := decTurn_cases h
  · exact refl
  · exact hb
  · exact ho.others
  · exact refl

/-- A register write leaves the parameters. -/
theorem writeReg_cfg {w : RegWrite} {s t : State} (h : writeReg w s = .next t) : t.cfg = s.cfg := by
  obtain rfl | ⟨_, rfl⟩ | ⟨_, rfl⟩ | ⟨_, -, -, -, -, rfl⟩ | ⟨_, -, -, -, -, rfl⟩ := writeReg_cases h <;> rfl

/-- A host access leaves the parameters. -/
theorem hostTurn_cfg {a : HostAccess} {s t : State} (h : hostTurn a s = .next t) : t.cfg = s.cfg := by
  obtain ⟨w, hw, -⟩ | ⟨_, _, rfl⟩ | ⟨_, _, _, -, -, rfl⟩ | ⟨_, _, -, rfl⟩ | ⟨-, rfl⟩ := hostTurn_cases h
  · exact writeReg_cfg hw
  all_goals rfl

/-- Settles O45: no turn of the host or of an engine writes `State.cfg`. -/
theorem parametersNeverChange : Obligations.ParametersNeverChange := by
  intro s t h
  obtain ⟨-, -, h⟩ | ⟨-, -, h⟩ | ⟨rest, -, h⟩ | ⟨rest, -, h⟩ | ⟨a, rest, -, h⟩ := step_cases h
  · exact (decTurn_frame h).1
  · exact (encTurn_frame h).1.1
  · exact (encTurn_frame h).1.1
  · exact (decTurn_frame h).1
  · exact (hostTurn_cfg h :)

/-! ### The width of lengths (R6) -/

/-- The constraints of R6. -/
theorem params_ok {p : Config.Params} (h : p.ok = true) :
    2 ≤ p.pixelsMax ∧ 5 * (p.pixelsMax - 1) + 22 < 2 ^ p.lenW ∧ p.regMap.addrs.Nodup := by
  simpa [Config.Params.ok, and_assoc] using h

/-- The longest output of an image that passes its checks fits `LEN_W` bits: `22 + N*(ch+1)` with `N < PIXELS_MAX` and at
most 4 channels (R6, R42). -/
theorem encCapacity_lt {p : Config.Params} {w h : Word} {ch cs : Byte} (hp : p.ok = true)
    (hf : fieldError w h ch cs p.pixelsMax = none) : encCapacity w h ch < 2 ^ p.lenW := by
  obtain ⟨-, hw, -⟩ := params_ok hp
  obtain ⟨-, hn, hch⟩ := fieldError_ch hf
  have hmul : w.toNat * h.toNat * (ch.toNat + 1) ≤ (p.pixelsMax - 1) * 5 :=
    Nat.mul_le_mul (by omega) (by omega)
  unfold encCapacity
  omega

/-- The pixel count and the raw length of an image are below its longest output. -/
theorem count_le_encCapacity (w h : Word) (ch : Byte) :
    w.toNat * h.toNat ≤ encCapacity w h ch ∧ w.toNat * h.toNat * ch.toNat ≤ encCapacity w h ch := by
  unfold encCapacity
  rw [Nat.mul_succ]
  omega

/-- The encoder's write position in LOOP and TAIL stays below the longest output (R96). -/
theorem EncRunning.op_le {s : State} (r : EncRunning s) (hi : s.enc.i ≤ s.enc.n) :
    s.enc.op ≤ encCapacity s.enc.w s.enc.h s.enc.ch := by
  have hup := r.upper
  have hmul : s.enc.i * (s.enc.ch.toNat + 1) ≤ s.enc.w.toNat * s.enc.h.toNat * (s.enc.ch.toNat + 1) :=
    Nat.mul_le_mul_right _ (r.count ▸ hi)
  unfold encCapacity
  omega

/-- The encoder past VALIDATE: its checks hold, its counts are bounded by `N` and its lengths by the longest output (R83,
R96). -/
theorem EncSound.lengths {s : State} (h : EncSound s)
    (hp : s.enc.phase = .loop ∨ s.enc.phase = .tail ∨ s.enc.phase = .done) :
    encError s = none ∧ s.enc.n = s.enc.w.toNat * s.enc.h.toNat ∧ s.enc.i ≤ s.enc.n ∧
      s.enc.op ≤ encCapacity s.enc.w s.enc.h s.enc.ch ∧ s.encRegs.outLen ≤ s.enc.op := by
  by_cases hd : s.enc.phase = .done
  · obtain ⟨hout, hchecked, hcount, hi, -, hop⟩ := h.atDone hd
    exact ⟨hchecked, hcount, hi.le, hop, hout.le⟩
  · have hrun : s.enc.phase = .loop ∨ s.enc.phase = .tail := by tauto
    have r := h.running hrun
    have hi : s.enc.i ≤ s.enc.n := hrun.elim (fun hl => (h.inLoop hl).le) fun ht => (h.inTail ht).1.le
    exact ⟨r.checked, r.count, hi, r.op_le hi, h.noLength hd ▸ Nat.zero_le _⟩

/-- The decoder past HEADER: its checks hold, its counts are bounded by `N`, its length by the raw image's and its positions
by the stream's (R23, R99, R112). -/
theorem DecSound.lengths {s : State} (h : DecSound s) (hp : s.dec.phase = .loop ∨ s.dec.phase = .done) :
    fieldError s.dec.w s.dec.h s.dec.ch s.dec.cs s.cfg.pixelsMax = none ∧
      s.dec.n = s.dec.w.toNat * s.dec.h.toNat ∧ s.dec.k ≤ s.dec.n ∧ s.decRegs.outLen ≤ s.dec.n * s.dec.ch.toNat ∧
      s.dec.stop ≤ s.dec.len ∧ s.dec.ip ≤ s.dec.len := by
  obtain hl | hd := hp
  · have r := h.running hl
    obtain ⟨-, -, -, -, hout⟩ := h.noResult (by simp [hl])
    exact ⟨r.checked, r.count, r.owed.le, hout ▸ Nat.zero_le _, by have := r.region.2; omega, r.ipIn.2⟩
  · obtain ⟨hk, hcount, hchecked, -, -, -, -, hout, hstop, hip⟩ := h.atDone hd
    exact ⟨hchecked, hcount, hk.le, hout.le, by omega, hip⟩

/-- Settles O47: every computed length is at most the longest output, which R6 keeps below `2^LEN_W`. -/
theorem lengthRegistersFit : Obligations.LengthRegistersFit := by
  intro s h
  constructor
  · intro hp
    obtain ⟨hchecked, hn, hi, hop, hout⟩ := h.enc.lengths hp
    obtain ⟨hfield, hplen⟩ := encError_none hchecked
    have hcap := encCapacity_lt h.cfgOk hfield
    obtain ⟨hcount, hraw⟩ := count_le_encCapacity s.enc.w s.enc.h s.enc.ch
    exact ⟨by omega, by omega, hi, by omega, by omega⟩
  · intro hp
    obtain ⟨hfield, hn, hk, hout, hstop, hip⟩ := h.dec.lengths hp
    have hcap := encCapacity_lt h.cfgOk hfield
    obtain ⟨hcount, hraw⟩ := count_le_encCapacity s.dec.w s.dec.h s.dec.ch
    rw [← hn] at hcount hraw
    exact ⟨by omega, hk, by omega, hstop, hip⟩

/-! ### Registers at their addresses (R5, R27, R28) -/

/-- A write at a register's address is the named write of that register, of a value that fits it. -/
theorem sameTurn_writeAt {s : State} (h : s.cfg.ok = true) {r : Reg} {v : Nat} {w : RegWrite}
    (hw : regWrite r v = some w) : SameTurn s (.writeAt (regAddr s.cfg.regMap r) v) (.write w) := fun rest =>
  (hostWriteAt_regAddr (s := { s with script := rest }) h r v).trans (writeNumber_of_some hw _)

/-- A read at a register's address is the named read of that register. -/
theorem sameTurn_readAt {s : State} (h : s.cfg.ok = true) (r : Reg) :
    SameTurn s (.readAt (regAddr s.cfg.regMap r)) (.read r) := fun rest =>
  hostReadAt_regAddr (s := { s with script := rest }) h r

/-- A word written to a 32-bit operand or control register, and a byte to an 8-bit one, is written whole. -/
theorem regWrite_toNat (v : Word) (c : Byte) :
    regWrite .encCtrl v.toNat = some (.encCtrl v) ∧ regWrite .encWidth v.toNat = some (.encWidth v) ∧
    regWrite .encHeight v.toNat = some (.encHeight v) ∧ regWrite .encChannels c.toNat = some (.encChannels c) ∧
    regWrite .encColorspace c.toNat = some (.encColorspace c) ∧ regWrite .decCtrl v.toNat = some (.decCtrl v) := by
  simp [regWrite]

/-- The read-only registers, in the order of R27 and R28 (R30). -/
def readOnlyRegs : List Reg :=
  [.encStatus, .encOutLen, .decStatus, .decWidth, .decHeight, .decChannels, .decColorspace, .decOutLen]

/-- A read-only register ignores any value (R30). -/
theorem writeNumber_readOnly {r : Reg} (hr : r ∈ readOnlyRegs) (v : Nat) (s : State) : writeNumber r v s = .next s := by
  fin_cases hr <;> rfl

/-- A word register the host writes refuses a value of more than 32 bits (log 8). -/
theorem regWrite_word_of_le {r : Reg} (hr : r ∈ [Reg.encCtrl, .encWidth, .encHeight, .decCtrl]) {v : Nat}
    (hv : 2 ^ 32 ≤ v) : regWrite r v = none := by
  fin_cases hr <;> simp only [regWrite, fitted_of_le hv, Option.map_none]

/-- A byte register the host writes refuses a value of more than 8 bits (log 8). -/
theorem regWrite_byte_of_le {r : Reg} (hr : r ∈ [Reg.encChannels, .encColorspace]) {v : Nat} (hv : 2 ^ 8 ≤ v) :
    regWrite r v = none := by
  fin_cases hr <;> simp only [regWrite, fitted_of_le hv, Option.map_none]

/-- A write at a register's address of a value too wide for it is refused (log 8). -/
theorem hostWriteAt_tooWide {s : State} (h : s.cfg.ok = true) {r : Reg} {v : Nat} (hw : regWrite r v = none) :
    hostWriteAt (regAddr s.cfg.regMap r) v s = .refused (.hostValueTooWide r v) :=
  (hostWriteAt_regAddr h r v).trans (writeNumber_of_none hw s)

/-- An access at an address of no register is refused (log 8). -/
theorem hostAt_noRegister {s : State} {a : Nat} (ha : a ∉ s.cfg.regMap.addrs) (v : Nat) :
    hostReadAt a s = .refused (.noRegisterAt a) ∧ hostWriteAt a v s = .refused (.noRegisterAt a) := by
  simp only [hostReadAt, hostWriteAt, regAt_eq_none ha, and_self]

/-- Settles O59: the lookup of a legal map finds each register at its own address, so an access there is the named one. -/
theorem registersAnswerAtTheirAddresses : Obligations.RegistersAnswerAtTheirAddresses := by
  intro s h
  refine ⟨fun v c n => ?_, fun v => ?_, ?_, fun a v ha => hostAt_noRegister ha v, fun v hv => ?_, fun v hv => ?_⟩
  · obtain ⟨hctrl, hwidth, hheight, hchannels, hcolorspace, hdec⟩ := regWrite_toNat v c
    exact ⟨sameTurn_writeAt h hctrl, sameTurn_writeAt h hwidth, sameTurn_writeAt h hheight, sameTurn_writeAt h hchannels,
      sameTurn_writeAt h hcolorspace, sameTurn_writeAt h (r := .encInLen) rfl, sameTurn_writeAt h hdec,
      sameTurn_writeAt h (r := .decInLen) rfl⟩
  · show ∀ a ∈ readOnlyRegs.map (regAddr s.cfg.regMap), hostTurn (.writeAt a v) s = .next s
    exact List.forall_mem_map.mpr fun r hr => (hostWriteAt_regAddr h r v).trans (writeNumber_readOnly hr v s)
  · show ∀ p ∈ regs.map fun r => (regAddr s.cfg.regMap r, r), SameTurn s (.readAt p.1) (.read p.2)
    exact List.forall_mem_map.mpr fun r _ => sameTurn_readAt h r
  · show ∀ p ∈ [Reg.encCtrl, .encWidth, .encHeight, .decCtrl].map fun r => (regAddr s.cfg.regMap r, r),
      hostTurn (.writeAt p.1 v) s = .refused (.hostValueTooWide p.2 v)
    exact List.forall_mem_map.mpr fun r hr => hostWriteAt_tooWide h (regWrite_word_of_le hr hv)
  · show ∀ p ∈ [Reg.encChannels, .encColorspace].map fun r => (regAddr s.cfg.regMap r, r),
      hostTurn (.writeAt p.1 v) s = .refused (.hostValueTooWide p.2 v)
    exact List.forall_mem_map.mpr fun r hr => hostWriteAt_tooWide h (regWrite_byte_of_le hr hv)

end Sys2Proof.Machine
end

section
/-! PROOF. The statements of spec/10_state.md about soundness: reset leaves a sound state (R34) and every step of every agent
keeps it (R19, R21, R23, R29, R82, R96). First the states each engine may be in, then what each turn makes of them. -/

namespace Sys2Proof.Machine

/-! ### Sound engines, by phase -/

/-- The encoder is busy in VALIDATE, LOOP and TAIL (R26). -/
theorem encBusy_iff {s : State} :
    encBusy s = true ↔ s.enc.phase = .validate ∨ s.enc.phase = .loop ∨ s.enc.phase = .tail := by
  unfold encBusy
  cases s.enc.phase <;> decide

/-- The decoder is busy in HEADER and LOOP (R26). -/
theorem decBusy_iff {s : State} : decBusy s = true ↔ s.dec.phase = .header ∨ s.dec.phase = .loop := by
  unfold decBusy
  cases s.dec.phase <;> decide

/-- Outside ERROR no error is recorded (R29). -/
theorem EncSound.err_none {s : State} (h : EncSound s) (hp : s.enc.phase ≠ .error) : s.enc.err = none :=
  Option.not_isSome_iff_eq_none.mp fun he => hp (h.errOnly.mp he)

/-- Outside ERROR no error is recorded (R29). -/
theorem DecSound.err_none {s : State} (h : DecSound s) (hp : s.dec.phase ≠ .error) : s.dec.err = none :=
  Option.not_isSome_iff_eq_none.mp fun he => hp (h.errOnly.mp he)

/-- An encoder in IDLE or VALIDATE is sound when no error is recorded, no length is reported and its buffers are placed. -/
theorem EncSound.of_waiting {s : State} (hp : s.enc.phase = .idle ∨ s.enc.phase = .validate) (he : s.enc.err = none)
    (ho : s.encRegs.outLen = 0) (hb : encBusy s = true → s.bufs.pin.disjoint s.bufs.bout = true) : EncSound s where
  errOnly := by rcases hp with hp | hp <;> simp [he, hp]
  errKind := by simp [he]
  noLength _ := ho
  placed := hb
  running := by rcases hp with hp | hp <;> simp [hp]
  inLoop := by rcases hp with hp | hp <;> simp [hp]
  inTail := by rcases hp with hp | hp <;> simp [hp]
  atDone := by rcases hp with hp | hp <;> simp [hp]

/-- An encoder in LOOP or TAIL is sound when it runs as R83 to R96 say, no error is recorded, no length is reported and its
buffers are placed. -/
theorem EncSound.of_running {s : State} (hp : s.enc.phase = .loop ∨ s.enc.phase = .tail) (r : EncRunning s)
    (he : s.enc.err = none) (ho : s.encRegs.outLen = 0) (hb : s.bufs.pin.disjoint s.bufs.bout = true)
    (hl : s.enc.phase = .loop → s.enc.i < s.enc.n) (ht : s.enc.phase = .tail → s.enc.i = s.enc.n ∧ s.enc.run = 0#6) :
    EncSound s where
  errOnly := by rcases hp with hp | hp <;> simp [he, hp]
  errKind := by simp [he]
  noLength _ := ho
  placed _ := hb
  running _ := r
  inLoop := hl
  inTail := ht
  atDone := by rcases hp with hp | hp <;> simp [hp]

/-- A decoder in IDLE or HEADER is sound when no error is recorded, the result registers are 0 and its buffers are placed. -/
theorem DecSound.of_waiting {s : State} (hp : s.dec.phase = .idle ∨ s.dec.phase = .header) (he : s.dec.err = none)
    (ho : s.decRegs = { DecRegs.reset with inLen := s.decRegs.inLen })
    (hb : decBusy s = true → s.bufs.bin.disjoint s.bufs.pout = true) : DecSound s where
  errOnly := by rcases hp with hp | hp <;> simp [he, hp]
  errKind := by simp [he]
  noResult _ := by rw [ho]; exact ⟨rfl, rfl, rfl, rfl, rfl⟩
  placed := hb
  running := by rcases hp with hp | hp <;> simp [hp]
  atDone := by rcases hp with hp | hp <;> simp [hp]

/-- A decoder in LOOP is sound when it runs as R99 to R111 say and keeps from the sound state `s` before it what HEADER and
LOOP do not touch. -/
theorem DecSound.of_running {s t : State} (h : DecSound s) (hb : decBusy s = true) (hp : t.dec.phase = .loop)
    (r : DecRunning t) (he : t.dec.err = s.dec.err) (ho : t.decRegs = s.decRegs) (hbufs : t.bufs = s.bufs) :
    DecSound t := by
  have hne : s.dec.phase ≠ .error ∧ s.dec.phase ≠ .done := by
    rcases decBusy_iff.mp hb with hs | hs <;> simp [hs]
  have hnone : t.dec.err = none := he.trans (h.err_none hne.1)
  exact {
    errOnly := by simp [hnone, hp]
    errKind := by simp [hnone]
    noResult := fun _ => ho ▸ h.noResult hne.2
    placed := fun _ => hbufs ▸ h.placed hb
    running := fun _ => r
    atDone := by simp [hp] }

/-! ### Reset (R34, R141) -/

/-- An encoder at its reset values is sound. -/
theorem EncSound.of_reset {s : State} (he : s.enc = Enc.reset) (hr : s.encRegs = EncRegs.reset) : EncSound s :=
  .of_waiting (.inl (by rw [he]; rfl)) (by rw [he]; rfl) (by rw [hr]; rfl)
    (by simp [encBusy_iff, he, Enc.reset])

/-- A decoder at its reset values is sound. -/
theorem DecSound.of_reset {s : State} (he : s.dec = Dec.reset) (hr : s.decRegs = DecRegs.reset) : DecSound s :=
  .of_waiting (.inl (by rw [he]; rfl)) (by rw [he]; rfl) (by rw [hr])
    (by simp [decBusy_iff, he, Dec.reset])

/-- The reset state is sound, at every legal choice of the parameters. -/
theorem resetWith_sound {p : Config.Params} (h : p.ok = true) : Sound (State.resetWith p) :=
  ⟨h, List.Pairwise.nil, .of_reset rfl rfl, .of_reset rfl rfl⟩

/-- Settles O41: reset's engines are IDLE with every result register 0, its memory lists nothing, and the defaults of R5 are
legal. -/
theorem resetStateIsSound : Obligations.ResetStateIsSound :=
  ⟨fun _ => resetWith_sound, resetWith_sound (by decide)⟩

/-- A hardware reset keeps the machine sound (R141). -/
theorem hardReset_sound {s : State} (h : Sound s) : Sound (hardReset s) :=
  ⟨h.cfgOk, by simpa using Memory.wf_freeIf _ _ _ h.memOk, .of_reset rfl rfl, .of_reset rfl rfl⟩

/-! ### The encoder's turn -/

/-- VALIDATE's failing check leaves a sound encoder in ERROR, its code one of R83's (R131). -/
theorem raiseEnc_sound {s : State} (h : EncSound s) (hp : s.enc.phase = .validate) {e : Err} (he : encError s = some e) :
    EncSound (raiseEnc e s) where
  errOnly := by simp
  errKind := by simpa using encError_some he
  noLength _ := h.noLength (by simp [hp])
  placed := by simp [encBusy_iff]
  running := by simp
  inLoop := by simp
  inTail := by simp
  atDone := by simp

/-- VALIDATE keeps the encoder sound: ERROR with a failing check's code, or LOOP with the header written (R83). -/
theorem encValidate_sound {s t : State} (h : EncSound s) (hp : s.enc.phase = .validate) (ht : encValidate s = .next t) :
    EncSound t := by
  obtain ⟨e, he, rfl⟩ | ⟨hchecked, hroom, -, rfl⟩ := encValidate_cases ht
  · exact raiseEnc_sound h hp he
  · have hpixel : 0 < s.enc.w.toNat * s.enc.h.toNat := (fieldError_ch (encError_none hchecked).1).1
    have hbusy : encBusy s = true := by simp [encBusy_iff, hp]
    refine .of_running (.inl rfl) ?_ (h.err_none (by simp [hp])) (h.noLength (by simp [hp])) (h.placed hbusy)
      (fun _ => hpixel) (fun hc => by cases hc)
    exact {
      checked := hchecked
      count := rfl
      room := hroom
      runShort := Nat.zero_le _
      alpha := fun _ => rfl
      upper := Nat.le_add_right _ _
      header := Nat.le_refl _
      lower := Nat.le_refl _ }

/-- What coding one pixel may make of the encoder's registers `e` (R86, R88): one byte at least and `ch + 1` at most,
counting the byte a pending run owes, and no run pending after the last pixel. -/
structure PixelCoded (s : State) (e : Enc) : Prop where
  kept : e = { s.enc with op := e.op, prev := e.prev, run := e.run, cache := e.cache }
  forward : s.enc.op ≤ e.op
  atLeast : s.enc.op + 1 ≤ e.op + pendingByte e.run
  atMost : e.op + pendingByte e.run ≤ s.enc.op + pendingByte s.enc.run + (s.enc.ch.toNat + 1)
  runShort : e.run.toNat ≤ 61
  alpha : s.enc.ch = 3#8 → e.prev.a = 255#8
  flushed : s.enc.i + 1 = s.enc.n → e.run = 0#6

/-- A run that grows still owes one byte. -/
theorem pendingByte_succ {r : BitVec 6} (h : r.toNat ≤ 61) : pendingByte (r + 1#6) = 1 := by
  refine if_neg fun h0 => ?_
  have := run_succ h
  rw [h0] at this
  simp at this

/-- A LOOP step that completes codes its pixel and goes to the next one (R85, R86, R88). -/
theorem encLoop_coded {s t : State} (r : EncRunning s) (h : encLoop s = .next t) :
    ∃ m e, PixelCoded s e ∧ t = nextPixel { s with mem := m, enc := e } := by
  have hshort := r.runShort
  obtain ⟨px, hpx, ⟨-, hgrows, rfl⟩ | ⟨-, -, u, hu, rfl⟩ | ⟨-, u, hu, rfl⟩⟩ := encLoop_cases h
  · have hsucc := run_succ hshort
    have hpending := pendingByte_succ hshort
    obtain ⟨hlong, hlast⟩ := not_or.mp hgrows
    refine ⟨s.mem, { s.enc with run := s.enc.run + 1#6 }, ?_, rfl⟩
    exact {
      kept := rfl
      forward := Nat.le_refl _
      atLeast := by rw [hpending]
      atMost := by simp only [hpending]; omega
      runShort := by dsimp only; omega
      alpha := r.alpha
      flushed := fun hl => absurd hl hlast }
  · obtain rfl := emit_eq_next hu
    refine ⟨_, { s.enc with op := s.enc.op + 1, run := 0#6 }, ?_, rfl⟩
    exact {
      kept := rfl
      forward := Nat.le_add_right _ _
      atLeast := Nat.le_refl _
      atMost := by simp only [pendingByte_zero]; omega
      runShort := Nat.zero_le _
      alpha := r.alpha
      flushed := fun _ => rfl }
  · obtain rfl := emit_eq_next hu
    obtain ⟨-, hopaque⟩ := fetchPixel_cases hpx
    have hmost := pixelChunk_bound r hopaque
    have hleast := (pixelChunk_length px s.enc.prev s.enc.cache).1
    rw [List.length_append, pendingBytes_length]
    refine ⟨_, { s.enc with
      op := _, prev := px, run := 0#6, cache := encCache px s.enc.cache }, ?_, rfl⟩
    exact {
      kept := rfl
      forward := Nat.le_add_right _ _
      atLeast := by simp only [pendingByte_zero]; omega
      atMost := by simp only [pendingByte_zero]; omega
      runShort := Nat.zero_le _
      alpha := fun h3 => hopaque (by rw [h3]; decide)
      flushed := fun _ => rfl }

/-- The encoder still runs as R83 to R96 say after a coded pixel. -/
theorem PixelCoded.running {s : State} {e : Enc} (c : PixelCoded s e) (r : EncRunning s) (m : Memory) :
    EncRunning (nextPixel { s with mem := m, enc := e }) := by
  have hupper := r.upper
  have hheader := r.header
  have hatLeast := c.atLeast
  have hatMost := c.atMost
  have hforward := c.forward
  have hshort := c.runShort
  have halpha := c.alpha
  rw [c.kept]
  exact {
    checked := r.checked
    count := r.count
    room := r.room
    runShort := hshort
    alpha := halpha
    upper := by
      show e.op + pendingByte e.run ≤ 14 + (s.enc.i + 1) * (s.enc.ch.toNat + 1)
      rw [Nat.succ_mul]
      omega
    header := by
      show 14 ≤ e.op
      omega
    lower := by
      show 14 + min (s.enc.i + 1) 1 ≤ e.op + pendingByte e.run
      omega }

/-- LOOP keeps the encoder sound: the next pixel, or TAIL after the last (R85). -/
theorem encLoop_sound {s t : State} (h : EncSound s) (hp : s.enc.phase = .loop) (ht : encLoop s = .next t) :
    EncSound t := by
  have r := h.running (.inl hp)
  obtain ⟨m, e, c, rfl⟩ := encLoop_coded r ht
  have hrun := c.running r m
  have hflushed := c.flushed
  have hlt := h.inLoop hp
  have herr := h.err_none (by simp [hp])
  have hphase : (nextPixel { s with mem := m, enc := e }).enc.phase = if s.enc.i + 1 = s.enc.n then .tail else .loop := by
    rw [c.kept, ← hp]; rfl
  have hbusy : encBusy s = true := by simp [encBusy_iff, hp]
  refine .of_running ?_ hrun (by rw [c.kept]; exact herr) (h.noLength (by simp [hp])) (h.placed hbusy) ?_ ?_
  · rw [hphase]; split <;> simp
  · rw [hphase, c.kept]
    intro hl
    show s.enc.i + 1 < s.enc.n
    split at hl
    · cases hl
    · omega
  · rw [hphase]
    intro hl
    split at hl
    · rename_i hlast
      refine ⟨?_, hflushed hlast⟩
      rw [c.kept]; exact hlast
    · cases hl

/-- TAIL leaves a sound encoder in DONE: its length between the bounds of R96 (R95). -/
theorem encTail_sound {s t : State} (h : EncSound s) (hp : s.enc.phase = .tail) (ht : encTail s = .next t) :
    EncSound t := by
  have r := h.running (.inr hp)
  obtain ⟨hlast, hrun⟩ := h.inTail hp
  obtain ⟨u, hu, rfl⟩ := encTail_cases ht
  rw [hrun] at hu
  obtain rfl := emit_eq_next hu
  have hpixel := (fieldError_ch (encError_none r.checked).1).1
  have hcount := r.count
  have hlower := r.lower
  have hcap := r.op_le hlast.le
  have hupper := r.upper
  rw [hrun, pendingByte_zero] at hlower hupper
  rw [hlast, hcount] at hupper
  exact {
    errOnly := by simp
    errKind := by simp
    noLength := by simp
    placed := by simp [encBusy_iff]
    running := by simp
    inLoop := by simp
    inTail := by simp
    atDone := fun _ => ⟨rfl, r.checked, hcount, hlast, by
        show 23 ≤ s.enc.op + 8
        omega, by
        show s.enc.op + 8 ≤ 22 + s.enc.w.toNat * s.enc.h.toNat * (s.enc.ch.toNat + 1)
        omega⟩ }

/-- The encoder's turn keeps the machine sound. -/
theorem encTurn_sound {s t : State} (h : Sound s) (ht : encTurn s = .next t) : Sound t := by
  obtain ⟨hframe, -, off, bs, hmem, -, -⟩ := encTurn_frame ht
  refine sound_of_enc h hframe (hmem ▸ Memory.wf_writeAll _ _ _ h.memOk) ?_
  unfold encTurn at ht
  split at ht
  case h_2 hp => exact encValidate_sound h.enc hp ht
  case h_3 hp => exact encLoop_sound h.enc hp ht
  case h_4 hp => exact encTail_sound h.enc hp ht
  all_goals exact Host.Outcome.next.inj ht ▸ h.enc

/-! ### The decoder's turn -/

/-- What a LOOP step of the decoder that completes did (R101): a replay, a chunk that its bytes decode to, or INCOMPLETE
IMAGE. -/
theorem decLoop_cases {s t : State} (h : decLoop s = .next t) :
    (s.dec.run ≠ 0#6 ∧ RoomForPixel s ∧ PixelOut s t s.dec.prev ∧ t.dec.ip = s.dec.ip ∧ t.dec.run = s.dec.run - 1#6 ∧
      t.dec.prev = s.dec.prev ∧ t.dec.cache = s.dec.cache) ∨
    (s.dec.run = 0#6 ∧ s.dec.ip < s.dec.stop ∧ RoomForPixel s ∧
      ∃ len run px, len ≤ 5 ∧ run.toNat ≤ 61 ∧ ChunkRan s t len run px) ∨
    (s.dec.run = 0#6 ∧ s.dec.stop ≤ s.dec.ip ∧ t = raiseDec .incompleteImage s) := by
  unfold decLoop at h
  split at h
  case isTrue hrun =>
    have hroom := replay_room h
    obtain ⟨u, hu, ho⟩ := replay_runs s hroom
    obtain rfl := Host.Outcome.next.inj (hu.symm.trans h)
    exact .inl ⟨hrun, hroom, ho⟩
  case isFalse hrun =>
    have hrun := not_not.mp hrun
    split at h
    case isTrue hip =>
      obtain ⟨i, hi, h⟩ := andThen_eq_next.mp h
      obtain ⟨b0, operands, -, -, hdecode, hchunk⟩ := fetchChunk_cases hi
      obtain ⟨hroom, len, run, px, -, hlen, hran, hr⟩ := exec_chunk_cases hchunk h
      refine .inr (.inl ⟨hrun, hip, hroom, len, run, px, hlen, ?_, hran⟩)
      obtain rfl | ⟨l, rfl, rfl⟩ := hr
      · simp [hrun]
      · exact decoded_run hdecode
    case isFalse hip =>
      exact .inr (.inr ⟨hrun, Nat.le_of_not_lt hip, (Host.Outcome.next.inj h).symm⟩)

/-- A failing check or a missing chunk leaves a sound decoder in ERROR (R131). -/
theorem raiseDec_sound {s : State} (ho : s.dec.phase ≠ .done) (h : DecSound s) {e : Err}
    (he : e ∈ [Err.signature, .dimension, .channel, .colorspace, .incompleteImage]) : DecSound (raiseDec e s) where
  errOnly := by simp
  errKind := by simpa using he
  noResult _ := h.noResult ho
  placed := by simp [decBusy_iff]
  running := by simp
  atDone := by simp

/-- HEADER READ in HEADER keeps the decoder sound. -/
theorem readHeader_sound {s : State} (h : DecSound s) (hp : s.dec.phase = .header) (x : Header) :
    DecSound (readHeader x s) where
  errOnly := h.errOnly
  errKind := h.errKind
  noResult := h.noResult
  placed := h.placed
  running := by simp [hp]
  atDone := by simp [hp]

/-- HEADER keeps the decoder sound: ERROR with a failing check's code, or LOOP with the registers of R99. -/
theorem decHeader_sound {s t : State} (h : DecSound s) (hp : s.dec.phase = .header) (ht : decHeader s = .next t) :
    DecSound t := by
  obtain ⟨-, rfl⟩ | ⟨bs, hlen, -, -, ⟨e, he, rfl⟩ | ⟨he, hroom, rfl⟩⟩ := decHeader_cases ht
  · exact raiseDec_sound (by simp [hp]) h (by simp)
  · refine raiseDec_sound (by simp [hp]) (readHeader_sound h hp _) ?_
    have := headerError_some he
    simp only [List.mem_cons] at this ⊢
    tauto
  · have hchecked := (headerError_none he).2
    refine h.of_running (by simp [decBusy_iff, hp]) rfl ?_ rfl rfl rfl
    exact {
      checked := hchecked
      count := rfl
      owed := (fieldError_ch hchecked).1
      region := ⟨hlen, rfl⟩
      ipIn := ⟨Nat.le_refl _, hlen⟩
      runShort := Nat.zero_le _
      room := hroom
      replayed := fun hr => absurd rfl hr }

/-- A pixel out of a sound decoder in LOOP leaves it sound, in LOOP or, after the last pixel, in DONE (R111, R112). -/
theorem PixelOut.sound {s t : State} {px : Pixel} (o : PixelOut s t px) (h : DecSound s) (hp : s.dec.phase = .loop)
    (hip : s.dec.ip ≤ t.dec.ip ∧ t.dec.ip ≤ s.dec.len) (hrun : t.dec.run.toNat ≤ 61)
    (hprev : t.dec.run ≠ 0#6 → cacheGet t.dec.cache (hash t.dec.prev) = t.dec.prev) : DecSound t := by
  have r := h.running hp
  have hbusy : decBusy s = true := by simp [decBusy_iff, hp]
  obtain ⟨hcfg, -, -, hbufs, -, -, -⟩ := o.others
  obtain ⟨hlen, hw, hh, hch, hcs, hn, hstop, -⟩ := o.latched
  have hk := o.counted
  by_cases hlast : s.dec.k + 1 = s.dec.n
  · obtain ⟨hphase, herr, hrw, hrh, hrch, hrcs, hout⟩ := o.last hlast
    exact {
      errOnly := by simp [herr, hphase]
      errKind := by simp [herr]
      noResult := fun hne => absurd hphase hne
      placed := by simp [decBusy_iff, hphase]
      running := by simp [hphase]
      atDone := fun _ => by
        rw [hk, hn, hw, hh, hch, hcs, hcfg, hstop, hlen]
        exact ⟨hlast, r.count, r.checked, hrw, hrh, hrch, hrcs, hout, r.region.2, hip.2⟩ }
  · obtain ⟨hphase, herr, hregs⟩ := o.more hlast
    refine h.of_running hbusy (hphase.trans hp) ?_ herr hregs hbufs
    have howed := r.owed
    have hip14 := r.ipIn.1
    exact {
      checked := by rw [hw, hh, hch, hcs, hcfg]; exact r.checked
      count := by rw [hn, hw, hh]; exact r.count
      owed := by omega
      region := by rw [hlen, hstop]; exact r.region
      ipIn := by omega
      runShort := hrun
      room := by rw [hn, hch, hbufs]; exact r.room
      replayed := hprev }

/-- LOOP keeps the decoder sound: a replayed pixel stays cached, a chunk's pixel is cached as it goes out (R79, R82,
R102). -/
theorem decLoop_sound {s t : State} (h : DecSound s) (hp : s.dec.phase = .loop) (ht : decLoop s = .next t) :
    DecSound t := by
  have r := h.running hp
  obtain ⟨hrun, -, ho, hip, hless, hprev, hcache⟩ | ⟨-, hlt, -, len, run, px, hlen, hshort, hran⟩ | ⟨-, -, rfl⟩ :=
    decLoop_cases ht
  · have hshort := r.runShort
    have hpred := run_pred hrun
    refine ho.sound h hp ⟨hip.ge, hip ▸ r.ipIn.2⟩ (by rw [hless]; omega) fun _ => ?_
    rw [hprev, hcache]
    exact r.replayed hrun
  · have hip := hran.ip
    have hstop := r.region.2
    refine hran.out.sound h hp (by omega) (hran.owes ▸ hshort) fun _ => ?_
    rw [hran.prev, hran.slot, if_pos rfl]
  · exact raiseDec_sound (by simp [hp]) h (by simp)

/-- A decoder turn that completes keeps the memory canonical. -/
theorem decTurn_wf {s t : State} (h : decTurn s = .next t) (hw : s.mem.wf) : t.mem.wf := by
  unfold decTurn at h
  split at h
  case h_2 =>
    obtain ⟨-, rfl⟩ | ⟨bs, -, -, -, ⟨e, -, rfl⟩ | ⟨-, -, rfl⟩⟩ := decHeader_cases h
    · exact Memory.wf_freeIf _ _ _ hw
    · exact Memory.wf_freeIf _ _ _ hw
    · exact hw
  case h_3 =>
    unfold decLoop at h
    split at h
    · exact replay_wf h hw
    · split at h
      · obtain ⟨i, hi, h⟩ := andThen_eq_next.mp h
        obtain ⟨_, _, -, -, -, hchunk⟩ := fetchChunk_cases hi
        exact exec_wf h hw hchunk
      · exact Host.Outcome.next.inj h ▸ Memory.wf_freeIf _ _ _ hw
  all_goals exact Host.Outcome.next.inj h ▸ hw

/-- The decoder's turn keeps the machine sound. -/
theorem decTurn_sound {s t : State} (h : Sound s) (ht : decTurn s = .next t) : Sound t := by
  refine sound_of_dec h (decTurn_frame ht) (decTurn_wf ht h.memOk) ?_
  unfold decTurn at ht
  split at ht
  case h_2 hp => exact decHeader_sound h.dec hp ht
  case h_3 hp => exact decLoop_sound h.dec hp ht
  all_goals exact Host.Outcome.next.inj ht ▸ h.dec

/-! ### The host's turn -/

/-- Operands, what the host has read and the counter of free values do not matter to soundness. -/
theorem Sound.withOperands {s : State} (h : Sound s) (regs : EncRegs) (n d c : Nat) :
    Sound { s with
      encRegs := { regs with outLen := s.encRegs.outLen }, decRegs := { s.decRegs with inLen := n },
      rdata := d, freeCount := c } :=
  ⟨h.cfgOk, h.memOk, .of_eq h.enc rfl rfl rfl fun _ => ⟨rfl, rfl⟩, .of_eq h.dec rfl rfl rfl fun _ => ⟨rfl, rfl⟩⟩

/-- An ENC_START that is taken leaves a sound machine, the encoder in VALIDATE (R117). -/
theorem beginEnc_sound {s : State} (h : Sound s) (hb : encPlaced s = true) : Sound (beginEnc s) :=
  ⟨h.cfgOk, h.memOk, .of_waiting (.inr rfl) rfl rfl fun _ => hb, .of_eq h.dec rfl rfl rfl fun _ => ⟨rfl, rfl⟩⟩

/-- A DEC_START that is taken leaves a sound machine, the decoder in HEADER (R118). -/
theorem beginDec_sound {s : State} (h : Sound s) (hb : decPlaced s = true) : Sound (beginDec s) :=
  ⟨h.cfgOk, h.memOk, .of_eq h.enc rfl rfl rfl fun _ => ⟨rfl, rfl⟩, .of_waiting (.inr rfl) rfl rfl fun _ => hb⟩

/-- A register write keeps the machine sound: the result registers are read-only (R30). -/
theorem writeReg_sound {w : RegWrite} {s t : State} (h : Sound s) (ht : writeReg w s = .next t) : Sound t := by
  obtain rfl | ⟨regs, rfl⟩ | ⟨n, rfl⟩ | ⟨_, -, -, -, hb, rfl⟩ | ⟨_, -, -, -, hb, rfl⟩ := writeReg_cases ht
  · exact h
  · exact h.withOperands regs s.decRegs.inLen s.rdata s.freeCount
  · exact h.withOperands s.encRegs n s.rdata s.freeCount
  · exact beginEnc_sound h hb
  · exact beginDec_sound h hb

/-- Placing a buffer of an engine that is not busy keeps the machine sound: a busy engine's own two stay (R49). -/
theorem place_sound {s : State} (h : Sound s) {b : Buf} (hb : busyBuf s b = false) (r : Region) :
    Sound { s with bufs := s.bufs.set b r } := by
  refine ⟨h.cfgOk, h.memOk, .of_eq h.enc rfl rfl rfl fun he => ?_, .of_eq h.dec rfl rfl rfl fun hd => ?_⟩
  · cases b <;> simp [busyBuf, he] at hb <;> exact ⟨rfl, rfl⟩
  · cases b <;> simp [busyBuf, hd] at hb <;> exact ⟨rfl, rfl⟩

/-- The host's turn keeps the machine sound. -/
theorem hostTurn_sound {a : HostAccess} {s t : State} (h : Sound s) (ht : hostTurn a s = .next t) : Sound t := by
  obtain ⟨w, hw, -⟩ | ⟨d, c, rfl⟩ | ⟨_, _, _, -, -, rfl⟩ | ⟨_, r, hb, rfl⟩ | ⟨-, rfl⟩ := hostTurn_cases ht
  · exact writeReg_sound h hw
  · exact h.withOperands s.encRegs s.decRegs.inLen d c
  · exact h.withMem (Memory.wf_write _ _ _ h.memOk)
  · exact place_sound h hb r
  · exact hardReset_sound h

/-! ### Every step -/

/-- Settles O43: a step is a turn of an engine or of the host, and each keeps the invariant. -/
theorem everyStepKeepsSound : Obligations.EveryStepKeepsSound := by
  intro s t h hstep
  obtain ⟨-, -, ht⟩ | ⟨-, -, ht⟩ | ⟨rest, -, ht⟩ | ⟨rest, -, ht⟩ | ⟨a, rest, -, ht⟩ := step_cases hstep
  · exact decTurn_sound h ht
  · exact encTurn_sound h ht
  · exact encTurn_sound (h.withScript rest) ht
  · exact decTurn_sound (h.withScript rest) ht
  · exact hostTurn_sound (h.withScript rest) ht

end Sys2Proof.Machine
end

section
/-! PROOF. The statements of spec/10_state.md about the interface: control writes (R30, R117, R118), what a hardware reset
leaves (R34, R141), STATUS (R29), register writes (R30) and register reads (R27, R28, R33). -/

namespace Sys2Proof.Machine

/-! ### Control writes -/

/-- Settles O8: the scripted write takes its turn, and `command` decodes it by bit 0. -/
theorem stepRunsCommandWrite : Obligations.StepRunsCommandWrite := by
  intro s rest v
  constructor <;> intro hs
  · have hturn : step s = command .enc v { s with script := rest } := by simp only [step, takeTurn, hs, hostTurn, writeReg]
    rw [hturn, command_enc]
  · have hturn : step s = command .dec v { s with script := rest } := by simp only [step, takeTurn, hs, hostTurn, writeReg]
    rw [hturn, command_dec]

/-- ENC_START ignores the reserved bits (R27). -/
theorem exec_encStart_reserved (x y : BitVec 31) (s : State) : exec (.encStart x) s = exec (.encStart y) s := rfl

/-- DEC_START ignores the reserved bits (R28). -/
theorem exec_decStart_reserved (x y : BitVec 31) (s : State) : exec (.decStart x) s = exec (.decStart y) s := rfl

/-- Settles O55: of a control write only bit 0 counts; every other write is its register's own arm of `writeReg`. -/
theorem registerWriteEffects : Obligations.RegisterWriteEffects := by
  intro s v w c n
  refine ⟨?_, fun hv => ?_, fun hv hw => ?_, rfl, rfl, rfl, rfl, rfl, rfl, rfl, rfl⟩
  · intro x hx
    fin_cases hx <;> rfl
  · have hn : ¬ v.toNat % 2 = 1 := by omega
    exact ⟨(command_enc v s).trans (if_neg hn), (command_dec v s).trans (if_neg hn)⟩
  · simp only [hostTurn, writeReg, command_enc, command_dec, if_pos hv, if_pos hw]
    exact ⟨exec_encStart_reserved _ _ s, exec_decStart_reserved _ _ s⟩

/-! ### Hardware reset (R34, R141) -/

/-- What the running encode has written: the bytes of `BOUT` below `e.op`, in LOOP and TAIL (R71, R85). -/
theorem encWrote_iff (s : State) (a : Nat) : encWrote s a = true ↔
    (s.enc.phase = .loop ∨ s.enc.phase = .tail) ∧ s.bufs.bout.has a = true ∧ a < bufAddr s .bout s.enc.op := by
  unfold encWrote
  cases s.enc.phase <;> simp

/-- What the running decode has written: the bytes of `POUT` of its `d.k` pixels, in LOOP (R111). -/
theorem decWrote_iff (s : State) (a : Nat) : decWrote s a = true ↔
    s.dec.phase = .loop ∧ s.bufs.pout.has a = true ∧ a < bufAddr s .pout (s.dec.k * s.dec.ch.toNat) := by
  unfold decWrote
  cases s.dec.phase <;> simp

/-- At the reset values of the engines and the registers every interface register reads 0 (R34). -/
theorem readReg_of_reset {s : State} (he : s.enc = Enc.reset) (hd : s.dec = Dec.reset) (her : s.encRegs = EncRegs.reset)
    (hdr : s.decRegs = DecRegs.reset) (r : Reg) : readReg r s = 0 := by
  cases r <;> simp only [readReg, encStatus, decStatus, he, hd, her, hdr] <;> rfl

/-- After a hardware reset a byte an engine had written is the free value at its address, every other as before (log 11). -/
theorem hardReset_read (s : State) (a : Nat) : (hardReset s).mem.read a =
    if encWrote s a = true ∨ decWrote s a = true then (s.mem.read a).map fun _ => Config.leftByte s.freeCount a
    else s.mem.read a := by
  simp only [hardReset_mem, Memory.read_freeIf, Bool.or_eq_true]

/-- Settles O42: the engines and the registers take their reset values, and memory is freed where an engine had written. -/
theorem resetClearsTheInterface : Obligations.ResetClearsTheInterface := by
  intro s
  refine ⟨hardReset s, rfl, ?_, rfl, rfl, fun a => ?_⟩
  · rintro u (rfl | rfl) <;> exact ⟨rfl, rfl, readReg_of_reset rfl rfl rfl rfl⟩
  · have hread := hardReset_read s a
    have hwritten := or_congr (encWrote_iff s a) (decWrote_iff s a)
    exact ⟨fun hw => hread.trans (if_pos (hwritten.mpr hw)), fun hw => hread.trans (if_neg (hw ∘ hwritten.mp))⟩

/-! ### STATUS (R29) -/

/-- A STATUS word as a number: STATE in bits 1:0, ERR in bits 7:4. -/
theorem statusWord_toNat : ∀ (st : BitVec 2) (er : BitVec 4), (statusWord st er).toNat = st.toNat + er.toNat * 16 := by
  decide

/-- In ERROR a sound encoder has recorded one of its errors (R127, R128). -/
theorem EncSound.err_some {s : State} (h : EncSound s) (hp : s.enc.phase = .error) :
    ∃ e, s.enc.err = some e ∧ e ∈ [Err.bufferLength, .dimension, .channel, .colorspace] := by
  obtain ⟨e, he⟩ := Option.isSome_iff_exists.mp (h.errOnly.mpr hp)
  exact ⟨e, he, h.errKind e he⟩

/-- In ERROR a sound decoder has recorded one of its errors (R127). -/
theorem DecSound.err_some {s : State} (h : DecSound s) (hp : s.dec.phase = .error) :
    ∃ e, s.dec.err = some e ∧ e ∈ [Err.signature, .dimension, .channel, .colorspace, .incompleteImage] := by
  obtain ⟨e, he⟩ := Option.isSome_iff_exists.mp (h.errOnly.mpr hp)
  exact ⟨e, he, h.errKind e he⟩

/-- STATE is 3 in ERROR and only there (R29). -/
theorem EncPhase.stateField_eq_three {p : EncPhase} : p.stateField.toNat = 3 ↔ p = .error := by cases p <;> decide

/-- STATE is 3 in ERROR and only there (R29). -/
theorem DecPhase.stateField_eq_three {p : DecPhase} : p.stateField.toNat = 3 ↔ p = .error := by cases p <;> decide

/-- Settles O54: STATE is the phase's field and ERR the recorded error's code, which soundness keeps to ERROR. -/
theorem statusShowsPhaseAndError : Obligations.StatusShowsPhaseAndError := by
  intro s h
  refine ⟨⟨s.enc.phase.stateField.toNat, (errField s.enc.err).toNat, statusWord_toNat _ _, ?_⟩,
    ⟨s.dec.phase.stateField.toNat, (errField s.dec.err).toNat, statusWord_toNat _ _, ?_⟩, rfl, rfl⟩
  · refine ⟨fun hp => by rw [hp]; rfl, fun hp => by rcases hp with hp | hp | hp <;> rw [hp] <;> rfl,
      fun hp => by rw [hp]; rfl, fun hp => by rw [hp]; rfl, fun hst => ?_, fun hst => ?_,
      fun he => by rw [he]; rfl, fun he => by rw [he]; rfl, fun he => by rw [he]; rfl, fun he => by rw [he]; rfl⟩
    · rw [h.enc.err_none fun hp => hst (EncPhase.stateField_eq_three.mpr hp)]
      rfl
    · obtain ⟨e, he, hmem⟩ := h.enc.err_some (EncPhase.stateField_eq_three.mp hst)
      rw [he]
      fin_cases hmem <;> decide
  · refine ⟨fun hp => by rw [hp]; rfl, fun hp => by rcases hp with hp | hp <;> rw [hp] <;> rfl,
      fun hp => by rw [hp]; rfl, fun hp => by rw [hp]; rfl, fun hst => ?_, fun hst => ?_, fun he => by rw [he]; rfl,
      fun he => by rw [he]; rfl, fun he => by rw [he]; rfl, fun he => by rw [he]; rfl, fun he => by rw [he]; rfl⟩
    · rw [h.dec.err_none fun hp => hst (DecPhase.stateField_eq_three.mpr hp)]
      rfl
    · obtain ⟨e, he, hmem⟩ := h.dec.err_some (DecPhase.stateField_eq_three.mp hst)
      rw [he]
      fin_cases hmem <;> decide

/-! ### Register reads (R27, R28, R33) -/

/-- What a register read returns is fixed by the interface registers, the STATE fields and the recorded errors (R33). -/
theorem readReg_congr {s t : State} (her : s.encRegs = t.encRegs) (hdr : s.decRegs = t.decRegs)
    (hes : s.enc.phase.stateField = t.enc.phase.stateField) (hds : s.dec.phase.stateField = t.dec.phase.stateField)
    (hee : s.enc.err = t.enc.err) (hde : s.dec.err = t.dec.err) (r : Reg) : readReg r s = readReg r t := by
  cases r <;> simp only [readReg, encStatus, decStatus, her, hdr, hes, hds, hee, hde]

/-- A write to an operand register reads back exactly, and no other register reads differently (R27, R28). -/
theorem operand_reads_back (s : State) (v : Word) (c : Byte) (n : Nat) :
    ∀ p ∈ [(RegWrite.encWidth v, Reg.encWidth, v.toNat), (.encHeight v, .encHeight, v.toNat),
      (.encChannels c, .encChannels, c.toNat), (.encColorspace c, .encColorspace, c.toNat), (.encInLen n, .encInLen, n),
      (.decInLen n, .decInLen, n)],
    ∃ t, hostTurn (.write p.1) s = .next t ∧ readReg p.2.1 t = p.2.2 ∧ ∀ r, r ≠ p.2.1 → readReg r t = readReg r s := by
  intro p hp
  fin_cases hp <;> refine ⟨_, rfl, rfl, fun r => ?_⟩ <;> cases r <;> simp [readReg, encStatus, decStatus]

/-- The encoder's result register reads the final length in DONE and 0 elsewhere (R27, R95). -/
theorem EncSound.readReg_result {s : State} (h : EncSound s) :
    readReg .encOutLen s = if s.enc.phase = .done then s.enc.op else 0 := by
  split
  case isTrue hp => exact (h.atDone hp).1
  case isFalse hp => exact h.noLength hp

/-- In DONE the decoder's result registers read the header's fields and `N * ch` (R112). -/
theorem DecSound.readReg_result {s : State} (h : DecSound s) (hp : s.dec.phase = .done) :
    readReg .decWidth s = s.dec.w.toNat ∧ readReg .decHeight s = s.dec.h.toNat ∧ readReg .decChannels s = s.dec.ch.toNat ∧
      readReg .decColorspace s = s.dec.cs.toNat ∧
      readReg .decOutLen s = s.dec.w.toNat * s.dec.h.toNat * s.dec.ch.toNat := by
  obtain ⟨-, hn, -, hw, hh, hch, hcs, hout, -, -⟩ := h.atDone hp
  simp only [readReg, hw, hh, hch, hcs, hout, hn, and_self]

/-- Outside DONE the decoder's result registers read 0 (R28; log 16). -/
theorem DecSound.readReg_noResult {s : State} (h : DecSound s) (hp : s.dec.phase ≠ .done) :
    ∀ r ∈ [Reg.decWidth, .decHeight, .decChannels, .decColorspace, .decOutLen], readReg r s = 0 := by
  obtain ⟨hw, hh, hch, hcs, hout⟩ := h.noResult hp
  intro r hr
  fin_cases hr <;> simp [readReg, hw, hh, hch, hcs, hout]

/-- Settles O56: each read is its register's arm of `readReg`; soundness gives the results, and no arm looks at a working
register. -/
theorem registerReadsHideWorkingState : Obligations.RegisterReadsHideWorkingState := by
  refine ⟨fun s => ⟨?_, operand_reads_back s, fun h => ⟨?_, ?_, h.dec.readReg_result, h.dec.readReg_noResult⟩⟩, ?_⟩
  · show ∀ p ∈ regs.map fun r => (r, readReg r s),
      readReg p.1 s = p.2 ∧ hostTurn (.read p.1) s = .next { s with rdata := p.2 }
    exact List.forall_mem_map.mpr fun r _ => ⟨rfl, rfl⟩
  · exact fun hp => h.enc.readReg_result.trans (if_pos hp)
  · exact fun hp => h.enc.readReg_result.trans (if_neg hp)
  · intro s t r her hdr hes hds hee hde
    exact ⟨readReg r s, rfl, readReg_congr her hdr hes hds hee hde r ▸ rfl⟩

end Sys2Proof.Machine
end

section
/-! PROOF. The statements of spec/10_state.md about whose step it is: the engines keep apart (R17, R24, R26, R35, R49, R140)
and the phases move along the arrows of R25. -/

namespace Sys2Proof.Machine

/-! ### The engines keep apart -/

/-- A byte among `n` stored ones lies in the buffer and is not the other, busy engine's (R35, R49). -/
theorem stored_byte {s : State} {b : Buf} {off n a : Nat} (hfit : n = 0 ∨ off + n ≤ (s.bufs.get b).cap)
    (hfree : FreeAt s b off n) (ha : bufAddr s b off ≤ a ∧ a < bufAddr s b off + n) :
    (s.bufs.get b).has a = true ∧ otherOwns s b a = false := by
  obtain ⟨j, rfl⟩ := Nat.exists_eq_add_of_le ha.1
  have hj : j < n := by omega
  rw [bufAddr, Nat.add_assoc]
  exact ⟨has_bufAddr (by omega), hfree j hj⟩

/-- An encoder turn leaves every byte outside `BOUT` and every byte of a buffer of the busy decoder (R35, R49). -/
theorem encTurn_read {s t : State} (h : encTurn s = .next t) {a : Nat}
    (ha : s.bufs.bout.has a = false ∨ decOwns s a = true) : t.mem.read a = s.mem.read a := by
  obtain ⟨-, -, off, bs, hmem, hfit, hfree⟩ := encTurn_frame h
  rw [hmem, Memory.read_writeAll]
  refine if_neg fun hin => ?_
  obtain ⟨hhas, howns⟩ := stored_byte (hfit.imp_left fun hb => by rw [hb]; rfl) hfree hin
  rcases ha with ha | ha
  · exact Bool.false_ne_true (ha.symm.trans hhas)
  · exact Bool.false_ne_true (howns.symm.trans ha)

/-- A decoder turn leaves every byte outside `POUT` and, unless it ends in an error, every byte of a buffer of the busy
encoder (R35, R49, R131). -/
theorem decTurn_read {s t : State} (h : decTurn s = .next t) {a : Nat}
    (ha : s.bufs.pout.has a = false ∨ (decBusy s = false ∨ t.dec.phase ≠ .error) ∧ encOwns s a = true) :
    t.mem.read a = s.mem.read a := by
  have freed (hb : decBusy s = true) (hp : t.dec.phase = .error)
      (hm : t.mem = s.mem.freeIf s.bufs.pout.has (Config.leftByte s.freeCount)) : t.mem.read a = s.mem.read a := by
    rw [hm, Memory.read_freeIf]
    refine if_neg (Bool.eq_false_iff.mp (ha.resolve_right fun hr => ?_))
    simp [hb, hp] at hr
  obtain ⟨-, rfl⟩ | ⟨hp, -, -, ⟨herr, hm⟩ | ⟨-, -, hm⟩⟩ | ⟨hp, hroom, px, ho⟩ | ⟨hp, -, -, rfl⟩ := decTurn_cases h
  · rfl
  · exact freed (decBusy_iff.mpr (.inl hp)) herr hm
  · rw [hm]
  · refine ho.onlyStored a fun hin => ?_
    obtain ⟨hhas, howns⟩ := stored_byte (.inr hroom.1) hroom.2 hin
    rcases ha with ha | ⟨-, ha⟩
    · exact Bool.false_ne_true (ha.symm.trans hhas)
    · exact Bool.false_ne_true (howns.symm.trans ha)
  · exact freed (decBusy_iff.mpr (.inr hp)) rfl rfl

/-- A decoder turn leaves the operand `DEC_IN_LEN`. -/
theorem decTurn_inLen {s t : State} (h : decTurn s = .next t) : t.decRegs.inLen = s.decRegs.inLen := by
  obtain ⟨-, rfl⟩ | ⟨-, -, hr, -⟩ | ⟨-, -, px, ho⟩ | ⟨-, -, -, rfl⟩ := decTurn_cases h
  · rfl
  · rw [hr]
  · obtain ⟨-, -, -, -, -, -, -, hin⟩ := ho.latched
    exact hin
  · rfl

/-- Settles O49: an engine that is not busy takes no step, and each engine's turn stores only in its own output buffer. -/
theorem engineStepsKeepApart : Obligations.EngineStepsKeepApart := by
  intro s
  refine ⟨fun he => ⟨encTurn_idle he, fun rest hs => ?_⟩, fun hd => ⟨decTurn_idle hd, fun rest hs => ?_⟩,
    fun he hd hs => (step_encoder hs hd).trans (encTurn_idle he), fun t h => ?_, fun t h => ?_⟩
  · simp only [step, takeTurn, hs]
    exact encTurn_idle (s := { s with script := rest }) he
  · simp only [step, takeTurn, hs]
    exact decTurn_idle (s := { s with script := rest }) hd
  · obtain ⟨hside, hregs, -⟩ := encTurn_frame h
    refine ⟨hside, hregs, fun a ha => encTurn_read h ?_⟩
    simpa only [decOwns, Bool.and_eq_true, Bool.or_eq_true] using ha
  · refine ⟨decTurn_frame h, decTurn_inLen h, fun a ha => decTurn_read h ?_⟩
    simpa only [encOwns, Bool.and_eq_true, Bool.or_eq_true] using ha

/-! ### Which host access is a START -/

/-- The host access is the register write `w`, by name or at the register's address. -/
def Writes (m : Config.RegMap) (a : HostAccess) (w : RegWrite) : Prop :=
  a = .write w ∨ ∃ r v, a = .writeAt (regAddr m r) v ∧ regWrite r v = some w

/-- Such an access does what the register write does (log 8). -/
theorem hostTurn_of_writes {s : State} (hok : s.cfg.ok = true) {a : HostAccess} {w : RegWrite}
    (h : Writes s.cfg.regMap a w) : hostTurn a s = writeReg w s := by
  obtain rfl | ⟨r, v, rfl, hw⟩ := h
  · rfl
  · exact (hostWriteAt_regAddr hok r v).trans (writeNumber_of_some hw s)

/-- A number written as an `ENC_CTRL` word was written to `ENC_CTRL`. -/
theorem regWrite_eq_encCtrl {r : Reg} {n : Nat} {v : Word} :
    regWrite r n = some (.encCtrl v) ↔ r = .encCtrl ∧ n < 2 ^ 32 ∧ v.toNat = n := by
  refine ⟨fun h => ?_, ?_⟩
  · cases r <;> simp [regWrite] at h
    exact ⟨rfl, fitted_eq_some h⟩
  · rintro ⟨rfl, -, rfl⟩
    simp [regWrite]

/-- A number written as a `DEC_CTRL` word was written to `DEC_CTRL`. -/
theorem regWrite_eq_decCtrl {r : Reg} {n : Nat} {v : Word} :
    regWrite r n = some (.decCtrl v) ↔ r = .decCtrl ∧ n < 2 ^ 32 ∧ v.toNat = n := by
  refine ⟨fun h => ?_, ?_⟩
  · cases r <;> simp [regWrite] at h
    exact ⟨rfl, fitted_eq_some h⟩
  · rintro ⟨rfl, -, rfl⟩
    simp [regWrite]

/-- An odd word written to one control register next, by name or at its address, is an access that writes it there. -/
theorem scripted_odd_iff {s : State} {q : Reg} {ctrl : Word → RegWrite}
    (hctrl : ∀ {r n v}, regWrite r n = some (ctrl v) ↔ r = q ∧ n < 2 ^ 32 ∧ v.toNat = n) :
    (∃ rest, (∃ v : Word, v.toNat % 2 = 1 ∧ s.script = .host (.write (ctrl v)) :: rest) ∨
      (∃ n : Nat, n < 2 ^ 32 ∧ n % 2 = 1 ∧ s.script = .host (.writeAt (regAddr s.cfg.regMap q) n) :: rest)) ↔
    ∃ a rest v, s.script = .host a :: rest ∧ Writes s.cfg.regMap a (ctrl v) ∧ v.toNat % 2 = 1 := by
  constructor
  · rintro ⟨rest, ⟨v, hv, hs⟩ | ⟨n, hn, hv, hs⟩⟩
    · exact ⟨_, rest, v, hs, .inl rfl, hv⟩
    · have hmod : (BitVec.ofNat 32 n).toNat = n := Nat.mod_eq_of_lt hn
      exact ⟨_, rest, _, hs, .inr ⟨q, n, rfl, hctrl.mpr ⟨rfl, hn, hmod⟩⟩, hmod.symm ▸ hv⟩
  · rintro ⟨a, rest, v, hs, rfl | ⟨r, n, rfl, hw⟩, hv⟩
    · exact ⟨rest, .inl ⟨v, hv, hs⟩⟩
    · obtain ⟨rfl, hn, rfl⟩ := hctrl.mp hw
      exact ⟨rest, .inr ⟨_, hn, hv, hs⟩⟩

/-- The next turn is ENC_START: a host access that writes `ENC_CTRL` with bit 0 set. -/
theorem encStartNext_iff {s : State} : EncStartNext s ↔
    ∃ a rest v, s.script = .host a :: rest ∧ Writes s.cfg.regMap a (.encCtrl v) ∧ v.toNat % 2 = 1 :=
  scripted_odd_iff (q := .encCtrl) regWrite_eq_encCtrl

/-- The next turn is DEC_START: a host access that writes `DEC_CTRL` with bit 0 set. -/
theorem decStartNext_iff {s : State} : DecStartNext s ↔
    ∃ a rest v, s.script = .host a :: rest ∧ Writes s.cfg.regMap a (.decCtrl v) ∧ v.toNat % 2 = 1 :=
  scripted_odd_iff (q := .decCtrl) regWrite_eq_decCtrl

/-- A host access that is no reset and no START that an idle engine takes leaves both engines; a START that is taken sets one
phase (R117, R118, R119). -/
theorem hostTurn_engines {a : HostAccess} {s t : State} (h : hostTurn a s = .next t) (hr : a ≠ .hardReset) :
    (t.enc = s.enc ∧ t.dec = s.dec) ∨
    (∃ v, Writes s.cfg.regMap a (.encCtrl v) ∧ v.toNat % 2 = 1 ∧ encBusy s = false ∧ t = beginEnc s) ∨
    (∃ v, Writes s.cfg.regMap a (.decCtrl v) ∧ v.toNat % 2 = 1 ∧ decBusy s = false ∧ t = beginDec s) := by
  obtain ⟨w, hw, ha⟩ | ⟨_, _, rfl⟩ | ⟨_, _, _, -, -, rfl⟩ | ⟨_, _, -, rfl⟩ | ⟨ha, -⟩ := hostTurn_cases h
  · obtain rfl | ⟨_, rfl⟩ | ⟨_, rfl⟩ | ⟨v, rfl, hv, hb, -, rfl⟩ | ⟨v, rfl, hv, hb, -, rfl⟩ := writeReg_cases hw
    · exact .inl ⟨rfl, rfl⟩
    · exact .inl ⟨rfl, rfl⟩
    · exact .inl ⟨rfl, rfl⟩
    · exact .inr (.inl ⟨v, ha, hv, hb, rfl⟩)
    · exact .inr (.inr ⟨v, ha, hv, hb, rfl⟩)
  · exact .inl ⟨rfl, rfl⟩
  · exact .inl ⟨rfl, rfl⟩
  · exact .inl ⟨rfl, rfl⟩
  · exact absurd ha hr

/-- An ENC_START of an encoder that is not busy, if it completes, is taken (R117). -/
theorem hostTurn_encStart {a : HostAccess} {v : Word} {s t : State} (hok : s.cfg.ok = true)
    (ha : Writes s.cfg.regMap a (.encCtrl v)) (hv : v.toNat % 2 = 1) (hb : encBusy s = false)
    (h : hostTurn a s = .next t) : t = beginEnc s := by
  rw [hostTurn_of_writes hok ha, writeReg, command_enc, if_pos hv] at h
  obtain ⟨hbusy, -⟩ | ⟨-, -, ht⟩ := execEncStart_cases h
  · exact absurd (hb.symm.trans hbusy) Bool.false_ne_true
  · exact ht

/-- A DEC_START of a decoder that is not busy, if it completes, is taken (R118). -/
theorem hostTurn_decStart {a : HostAccess} {v : Word} {s t : State} (hok : s.cfg.ok = true)
    (ha : Writes s.cfg.regMap a (.decCtrl v)) (hv : v.toNat % 2 = 1) (hb : decBusy s = false)
    (h : hostTurn a s = .next t) : t = beginDec s := by
  rw [hostTurn_of_writes hok ha, writeReg, command_dec, if_pos hv] at h
  obtain ⟨hbusy, -⟩ | ⟨-, -, ht⟩ := execDecStart_cases h
  · exact absurd (hb.symm.trans hbusy) Bool.false_ne_true
  · exact ht

/-! ### What a step is for one engine -/

/-- What a step that is no hardware reset is for the encoder: its own turn, a START it takes, or another agent's turn. -/
inductive EncPart (s t : State) : Prop where
  | own (turns : List Turn) (turn : encTurn { s with script := turns } = .next t) (noStart : ¬ EncStartNext s)
  | start (next : EncStartNext s) (free : encBusy s = false) (taken : t.enc.phase = .validate)
  | other (notOwn : s.script.head? ≠ some .enc) (noStart : encBusy s = false → ¬ EncStartNext s) (same : t.enc = s.enc)

/-- What a step that is no hardware reset is for the decoder: its own turn, a START it takes, or another agent's turn. -/
inductive DecPart (s t : State) : Prop where
  | own (turns : List Turn) (turn : decTurn { s with script := turns } = .next t) (noStart : ¬ DecStartNext s)
  | start (next : DecStartNext s) (free : decBusy s = false) (taken : t.dec.phase = .header)
  | other (notOwn : s.script.head? ≠ some .dec) (noStart : decBusy s = false → ¬ DecStartNext s) (same : t.dec = s.dec)

/-- A START is a turn of the host. -/
theorem not_startNext {s : State} (h : ∀ a rest, s.script ≠ .host a :: rest) : ¬ EncStartNext s ∧ ¬ DecStartNext s := by
  constructor
  · rintro ⟨rest, ⟨_, -, hs⟩ | ⟨_, -, -, hs⟩⟩ <;> exact h _ _ hs
  · rintro ⟨rest, ⟨_, -, hs⟩ | ⟨_, -, -, hs⟩⟩ <;> exact h _ _ hs

/-- The host's turn, for each engine: a START it takes, or nothing (R117, R118, R119). -/
theorem hostTurn_parts {s t : State} (hok : s.cfg.ok = true) {a : HostAccess} {rest : List Turn}
    (hs : s.script = .host a :: rest) (hr : a ≠ .hardReset) (h : hostTurn a { s with script := rest } = .next t) :
    EncPart s t ∧ DecPart s t := by
  have notEnc : s.script.head? ≠ some .enc := by simp [hs]
  have notDec : s.script.head? ≠ some .dec := by simp [hs]
  have encTaken (hb : encBusy s = false) (hn : EncStartNext s) : t = beginEnc { s with script := rest } := by
    obtain ⟨a', rest', v, hs', hw, hv⟩ := encStartNext_iff.mp hn
    obtain ⟨rfl, rfl⟩ : a' = a ∧ rest' = rest := by simpa using hs'.symm.trans hs
    exact hostTurn_encStart (s := { s with script := rest' }) hok hw hv hb h
  have decTaken (hb : decBusy s = false) (hn : DecStartNext s) : t = beginDec { s with script := rest } := by
    obtain ⟨a', rest', v, hs', hw, hv⟩ := decStartNext_iff.mp hn
    obtain ⟨rfl, rfl⟩ : a' = a ∧ rest' = rest := by simpa using hs'.symm.trans hs
    exact hostTurn_decStart (s := { s with script := rest' }) hok hw hv hb h
  constructor
  · by_cases hstart : encBusy s = false ∧ EncStartNext s
    · exact .start hstart.2 hstart.1 (encTaken hstart.1 hstart.2 ▸ rfl)
    · refine .other notEnc (fun hb hn => hstart ⟨hb, hn⟩) ?_
      obtain ⟨he, -⟩ | ⟨v, hw, hv, hb, -⟩ | ⟨_, -, -, -, rfl⟩ := hostTurn_engines h hr
      · exact he
      · exact absurd ⟨hb, encStartNext_iff.mpr ⟨a, rest, v, hs, hw, hv⟩⟩ hstart
      · rfl
  · by_cases hstart : decBusy s = false ∧ DecStartNext s
    · exact .start hstart.2 hstart.1 (decTaken hstart.1 hstart.2 ▸ rfl)
    · refine .other notDec (fun hb hn => hstart ⟨hb, hn⟩) ?_
      obtain ⟨-, hd⟩ | ⟨_, -, -, -, rfl⟩ | ⟨v, hw, hv, hb, -⟩ := hostTurn_engines h hr
      · exact hd
      · rfl
      · exact absurd ⟨hb, decStartNext_iff.mpr ⟨a, rest, v, hs, hw, hv⟩⟩ hstart

/-- A step that is no hardware reset, for each engine. -/
theorem step_parts {s t : State} (hok : s.cfg.ok = true) (h : step s = .next t)
    (hr : ∀ rest, s.script ≠ .host .hardReset :: rest) : EncPart s t ∧ DecPart s t := by
  obtain ⟨hs, -, ht⟩ | ⟨hs, -, ht⟩ | ⟨rest, hs, ht⟩ | ⟨rest, hs, ht⟩ | ⟨a, rest, hs, ht⟩ := step_cases h
  · obtain ⟨noEnc, noDec⟩ := not_startNext (s := s) (by simp [hs])
    exact ⟨.other (by simp [hs]) (fun _ => noEnc) (decTurn_frame ht).2.1, .own s.script ht noDec⟩
  · obtain ⟨noEnc, noDec⟩ := not_startNext (s := s) (by simp [hs])
    exact ⟨.own s.script ht noEnc, .other (by simp [hs]) (fun _ => noDec) (encTurn_frame ht).1.2.1⟩
  · obtain ⟨noEnc, noDec⟩ := not_startNext (s := s) (by simp [hs])
    exact ⟨.own rest ht noEnc, .other (by simp [hs]) (fun _ => noDec) (encTurn_frame ht).1.2.1⟩
  · obtain ⟨noEnc, noDec⟩ := not_startNext (s := s) (by simp [hs])
    exact ⟨.other (by simp [hs]) (fun _ => noEnc) (decTurn_frame ht).2.1, .own rest ht noDec⟩
  · exact hostTurn_parts hok hs (fun ha => hr rest (ha ▸ hs)) ht

/-! ### The arrows of R25 -/

/-- The phases before and after an encoder's turn (R25, R83, R85, R95). -/
theorem encTurn_phases {s t : State} (h : EncSound s) (ht : encTurn s = .next t) :
    (encBusy s = false ∧ t = s) ∨
    (s.enc.phase = .validate ∧ t.enc.phase = .error ∧ encError s ≠ none ∧ t.enc.err = encError s) ∨
    (s.enc.phase = .validate ∧ t.enc.phase = .loop ∧ encError s = none) ∨
    (s.enc.phase = .loop ∧ (t.enc.phase = .loop ∨ t.enc.phase = .tail)) ∨
    (s.enc.phase = .tail ∧ t.enc.phase = .done) := by
  cases hb : encBusy s
  · rw [encTurn_idle hb] at ht
    exact .inl ⟨rfl, (Host.Outcome.next.inj ht).symm⟩
  · obtain hp | hp | hp := encBusy_iff.mp hb <;> rw [encTurn, hp] at ht
    · obtain ⟨e, he, rfl⟩ | ⟨hchecked, -, -, rfl⟩ := encValidate_cases ht
      · exact .inr (.inl ⟨hp, rfl, by simp [he], he.symm⟩)
      · exact .inr (.inr (.inl ⟨hp, rfl, hchecked⟩))
    · obtain ⟨m, e, c, rfl⟩ := encLoop_coded (h.running (.inl hp)) ht
      refine .inr (.inr (.inr (.inl ⟨hp, ?_⟩)))
      rw [nextPixel, c.kept, hp]
      dsimp only
      split <;> simp
    · obtain ⟨u, -, rfl⟩ := encTail_cases ht
      exact .inr (.inr (.inr (.inr ⟨hp, rfl⟩)))

/-- The phases before and after a decoder's turn (R25, R73, R74, R101, R112, R113). -/
theorem decTurn_phases {s t : State} (ht : decTurn s = .next t) :
    (decBusy s = false ∧ t = s) ∨
    (s.dec.phase = .header ∧ t.dec.phase = .error ∧
      (s.dec.len < 14 ∨ ∃ hdr : List Byte, hdr.length = 14 ∧ GetsBytes s .bin 0 hdr ∧ ¬ HeaderPasses s.cfg hdr)) ∨
    (s.dec.phase = .header ∧ t.dec.phase = .loop ∧ 14 ≤ s.dec.len ∧
      ∃ hdr : List Byte, hdr.length = 14 ∧ GetsBytes s .bin 0 hdr ∧ HeaderPasses s.cfg hdr) ∨
    (s.dec.phase = .loop ∧ (t.dec.phase = .loop ∨ t.dec.phase = .done) ∧ (s.dec.run = 0#6 → s.dec.ip < s.dec.stop)) ∨
    (s.dec.phase = .loop ∧ t.dec.phase = .error ∧ t.dec.err = some .incompleteImage ∧ s.dec.run = 0#6 ∧
      s.dec.stop ≤ s.dec.ip) := by
  have pixel {px : Pixel} (hp : s.dec.phase = .loop) (o : PixelOut s t px) : t.dec.phase = .loop ∨ t.dec.phase = .done := by
    by_cases hlast : s.dec.k + 1 = s.dec.n
    · exact .inr (o.last hlast).1
    · exact .inl ((o.more hlast).1.trans hp)
  cases hb : decBusy s
  · rw [decTurn_idle hb] at ht
    exact .inl ⟨rfl, (Host.Outcome.next.inj ht).symm⟩
  · obtain hp | hp := decBusy_iff.mp hb <;> rw [decTurn, hp] at ht
    · obtain ⟨hlen, rfl⟩ | ⟨hdr, hlen, h14, hgets, ⟨e, he, rfl⟩ | ⟨he, -, rfl⟩⟩ := decHeader_cases ht
      · exact .inr (.inl ⟨hp, rfl, .inl hlen⟩)
      · refine .inr (.inl ⟨hp, rfl, .inr ⟨hdr, h14, hgets, fun hpass => ?_⟩⟩)
        rw [(headerError_eq_none h14).mpr hpass] at he
        cases he
      · exact .inr (.inr (.inl ⟨hp, rfl, hlen, hdr, h14, hgets, (headerError_eq_none h14).mp he⟩))
    · obtain ⟨hrun, -, ho, -⟩ | ⟨-, hip, -, _, _, _, -, -, hran⟩ | ⟨hrun, hstop, rfl⟩ := decLoop_cases ht
      · exact .inr (.inr (.inr (.inl ⟨hp, pixel hp ho, fun h0 => absurd h0 hrun⟩)))
      · exact .inr (.inr (.inr (.inl ⟨hp, pixel hp hran.out, fun _ => hip⟩)))
      · exact .inr (.inr (.inr (.inr ⟨hp, rfl, rfl, hrun, hstop⟩)))

/-- The encoder's phase stays or moves along an arrow of R25, under the arrow's condition. -/
def EncArrow (s t : State) : Prop :=
  t.enc.phase = s.enc.phase ∨
  (encBusy s = false ∧ t.enc.phase = .validate ∧ EncStartNext s) ∨
  (s.enc.phase = .validate ∧ t.enc.phase = .error ∧ encError s ≠ none ∧ t.enc.err = encError s) ∨
  (s.enc.phase = .validate ∧ t.enc.phase = .loop ∧ encError s = none) ∨
  (s.enc.phase = .loop ∧ t.enc.phase = .tail ∧ t.enc.i = t.enc.n) ∨
  (s.enc.phase = .tail ∧ t.enc.phase = .done)

/-- The decoder's phase stays or moves along an arrow of R25, under the arrow's condition. -/
def DecArrow (s t : State) : Prop :=
  t.dec.phase = s.dec.phase ∨
  (decBusy s = false ∧ t.dec.phase = .header ∧ DecStartNext s) ∨
  (s.dec.phase = .header ∧ t.dec.phase = .error ∧
    (s.dec.len < 14 ∨ ∃ hdr : List Byte, hdr.length = 14 ∧ GetsBytes s .bin 0 hdr ∧ ¬ HeaderPasses s.cfg hdr)) ∨
  (s.dec.phase = .header ∧ t.dec.phase = .loop ∧ 14 ≤ s.dec.len ∧
    ∃ hdr : List Byte, hdr.length = 14 ∧ GetsBytes s .bin 0 hdr ∧ HeaderPasses s.cfg hdr) ∨
  (s.dec.phase = .loop ∧ t.dec.phase = .done ∧ t.dec.k = t.dec.n) ∨
  (s.dec.phase = .loop ∧ t.dec.phase = .error ∧ t.dec.err = some .incompleteImage ∧ s.dec.run = 0#6 ∧
    s.dec.stop ≤ s.dec.ip)

/-- Between sound states the encoder moves along the arrows. -/
theorem EncPart.arrow {s t : State} (p : EncPart s t) (hs : EncSound s) (ht : EncSound t) : EncArrow s t := by
  cases p with
  | start next free taken => exact .inr (.inl ⟨free, taken, next⟩)
  | other _ _ same => exact .inl (congrArg Enc.phase same)
  | own turns turn _ =>
    obtain ⟨-, rfl⟩ | he | hl | ⟨hp, hl | htail⟩ | hd :=
      encTurn_phases (EncSound.of_eq (t := { s with script := turns }) hs rfl rfl rfl fun _ => ⟨rfl, rfl⟩) turn
    · exact .inl rfl
    · exact .inr (.inr (.inl he))
    · exact .inr (.inr (.inr (.inl hl)))
    · exact .inl (hl.trans hp.symm)
    · exact .inr (.inr (.inr (.inr (.inl ⟨hp, htail, (ht.inTail htail).1⟩))))
    · exact .inr (.inr (.inr (.inr (.inr hd))))

/-- A decoder that ends sound moves along the arrows. -/
theorem DecPart.arrow {s t : State} (p : DecPart s t) (ht : DecSound t) : DecArrow s t := by
  cases p with
  | start next free taken => exact .inr (.inl ⟨free, taken, next⟩)
  | other _ _ same => exact .inl (congrArg Dec.phase same)
  | own turns turn _ =>
    obtain ⟨-, rfl⟩ | he | hl | ⟨hp, hl | hd, -⟩ | hi := decTurn_phases turn
    · exact .inl rfl
    · exact .inr (.inr (.inl he))
    · exact .inr (.inr (.inr (.inl hl)))
    · exact .inl (hl.trans hp.symm)
    · exact .inr (.inr (.inr (.inr (.inl ⟨hp, hd, (ht.atDone hd).1⟩))))
    · exact .inr (.inr (.inr (.inr (.inr hi))))

/-- A START of an encoder that is not busy is taken (R117). -/
theorem EncPart.started {s t : State} (p : EncPart s t) (hb : encBusy s = false) (hn : EncStartNext s) :
    t.enc.phase = .validate := by
  cases p with
  | own _ _ noStart => exact absurd hn noStart
  | start _ _ taken => exact taken
  | other _ noStart _ => exact absurd hn (noStart hb)

/-- A START of a decoder that is not busy is taken (R118). -/
theorem DecPart.started {s t : State} (p : DecPart s t) (hb : decBusy s = false) (hn : DecStartNext s) :
    t.dec.phase = .header := by
  cases p with
  | own _ _ noStart => exact absurd hn noStart
  | start _ _ taken => exact taken
  | other _ noStart _ => exact absurd hn (noStart hb)

/-- On the encoder's own turn a busy encoder runs. -/
theorem EncPart.turn_of_head {s t : State} (p : EncPart s t) (hh : s.script.head? = some .enc) (hb : encBusy s = true) :
    ∃ turns, encTurn { s with script := turns } = .next t := by
  cases p with
  | own turns turn _ => exact ⟨turns, turn⟩
  | start _ free _ => exact absurd (free.symm.trans hb) Bool.false_ne_true
  | other notOwn _ _ => exact absurd hh notOwn

/-- On the decoder's own turn a busy decoder runs. -/
theorem DecPart.turn_of_head {s t : State} (p : DecPart s t) (hh : s.script.head? = some .dec) (hb : decBusy s = true) :
    ∃ turns, decTurn { s with script := turns } = .next t := by
  cases p with
  | own turns turn _ => exact ⟨turns, turn⟩
  | start _ free _ => exact absurd (free.symm.trans hb) Bool.false_ne_true
  | other notOwn _ _ => exact absurd hh notOwn

/-- The encoder's own turn leaves VALIDATE and TAIL (R83, R95). -/
theorem EncPart.leaves {s t : State} (p : EncPart s t) (h : EncSound s) (hh : s.script.head? = some .enc)
    (hp : s.enc.phase = .validate ∨ s.enc.phase = .tail) : t.enc.phase ≠ s.enc.phase := by
  have hb : encBusy s = true := encBusy_iff.mpr (by tauto)
  obtain ⟨turns, turn⟩ := p.turn_of_head hh hb
  obtain ⟨free, -⟩ | ⟨hp', he, -⟩ | ⟨hp', hl, -⟩ | ⟨hp', -⟩ | ⟨hp', hd⟩ :=
    encTurn_phases (EncSound.of_eq (t := { s with script := turns }) h rfl rfl rfl fun _ => ⟨rfl, rfl⟩) turn
  · exact absurd (free.symm.trans hb) Bool.false_ne_true
  · rw [he, hp']; decide
  · rw [hl, hp']; decide
  · rw [hp'] at hp; simp at hp
  · rw [hd, hp']; decide

/-- The decoder's own turn leaves HEADER (R99). -/
theorem DecPart.leaves {s t : State} (p : DecPart s t) (hh : s.script.head? = some .dec) (hp : s.dec.phase = .header) :
    t.dec.phase ≠ .header := by
  have hb : decBusy s = true := decBusy_iff.mpr (.inl hp)
  obtain ⟨turns, turn⟩ := p.turn_of_head hh hb
  obtain ⟨free, -⟩ | ⟨-, he, -⟩ | ⟨-, hl, -⟩ | ⟨hp', -⟩ | ⟨-, he, -⟩ := decTurn_phases turn
  · exact absurd (free.symm.trans hb) Bool.false_ne_true
  · rw [he]; decide
  · rw [hl]; decide
  · cases hp.symm.trans hp'
  · rw [he]; decide

/-- The decoder's own turn in LOOP with no replay owed and no chunk left ends in ERROR (R113). -/
theorem DecPart.incomplete {s t : State} (p : DecPart s t) (hh : s.script.head? = some .dec) (hp : s.dec.phase = .loop)
    (hrun : s.dec.run = 0#6) (hstop : s.dec.stop ≤ s.dec.ip) : t.dec.phase = .error := by
  have hb : decBusy s = true := decBusy_iff.mpr (.inr hp)
  obtain ⟨turns, turn⟩ := p.turn_of_head hh hb
  obtain ⟨free, -⟩ | ⟨-, he, -⟩ | ⟨hp', -⟩ | ⟨-, -, hip⟩ | ⟨-, he, -⟩ := decTurn_phases turn
  · exact absurd (free.symm.trans hb) Bool.false_ne_true
  · exact he
  · cases hp.symm.trans hp'
  · exact absurd (hip hrun) (Nat.not_lt.mpr hstop)
  · exact he

/-- Settles O48: a step is each engine's own turn, a START or another agent's turn, and the state after it is sound. -/
theorem phasesMoveOnlyAsListed : Obligations.PhasesMoveOnlyAsListed := by
  intro s t h hstep
  have ht := everyStepKeepsSound s t h hstep
  constructor
  · intro rest hs
    have hreset : t = hardReset { s with script := rest } := by
      simpa [step, takeTurn, hs, hostTurn, eq_comm] using hstep
    rw [hreset]
    exact ⟨rfl, rfl⟩
  · intro hr
    obtain ⟨e, d⟩ := step_parts h.cfgOk hstep hr
    exact ⟨e.arrow h.enc ht.enc, fun _ => ht.enc.inLoop, e.started, e.leaves h.enc,
      d.arrow ht.dec, fun _ hl => (ht.dec.running hl).owed, d.started, d.leaves, d.incomplete⟩

end Sys2Proof.Machine
end

section
/-! PROOF. The statements of spec/20_memory.md: what a START, an engine and the host are refused for the sake of the buffers
(R42, R49, R125). First whose a byte is, then all an engine's turn can be refused for. -/

namespace Sys2Proof.Machine

/-! ### Whose a byte is (R35, R49) -/

/-- A byte is the busy decoder's when it lies in one of the decoder's two buffers. -/
theorem decOwns_iff {s : State} {a : Nat} :
    decOwns s a = true ↔ decBusy s = true ∧ (s.bufs.bin.has a = true ∨ s.bufs.pout.has a = true) := by
  simp only [decOwns, Bool.and_eq_true, Bool.or_eq_true]

/-- A byte is the busy encoder's when it lies in one of the encoder's two buffers. -/
theorem encOwns_iff {s : State} {a : Nat} :
    encOwns s a = true ↔ encBusy s = true ∧ (s.bufs.pin.has a = true ∨ s.bufs.bout.has a = true) := by
  simp only [encOwns, Bool.and_eq_true, Bool.or_eq_true]

/-- A byte among free bytes is not the other engine's. -/
theorem FreeAt.not_owned {s : State} {b : Buf} {off n o : Nat} (h : FreeAt s b off n) (h1 : off ≤ o) (h2 : o < off + n) :
    ¬ otherOwns s b (bufAddr s b o) = true := by
  simpa using h.within h1 (m := 1) h2 0 Nat.one_pos

/-! ### START (R49, R117, R118) -/

/-- The disjointness test says that no address lies in both regions: if it fails, the greater of the two bases lies in
both. -/
theorem Region.disjoint_iff (r t : Region) : r.disjoint t = true ↔ ∀ a, ¬ (r.has a = true ∧ t.has a = true) := by
  constructor
  · rintro h a ⟨hr, ht⟩
    exact Bool.false_ne_true ((Region.disjoint_has h hr).symm.trans ht)
  · intro h
    have hmax := h (max r.base t.base)
    simp only [Region.has, Region.disjoint, Bool.and_eq_true, Bool.or_eq_true, decide_eq_true_eq] at hmax ⊢
    omega

/-- A START, which a busy engine ignores and a placed one takes, is refused exactly when neither is so. -/
theorem start_eq_refused {busy placed : Bool} {s t : State} {q r : Refusal} :
    (if busy then .next s else if placed then .next t else .refused q : Result State) = .refused r ↔
      busy = false ∧ placed = false ∧ r = q := by
  cases busy
  · cases placed <;> simp [eq_comm]
  · simp

/-- ENC_START is refused when the encoder is not busy and its own two buffers overlap, as `buffersOverlap`. -/
theorem exec_encStart_eq_refused {x : BitVec 31} {s : State} {r : Refusal} : exec (.encStart x) s = .refused r ↔
    encBusy s = false ∧ s.bufs.pin.disjoint s.bufs.bout = false ∧ r = .buffersOverlap :=
  start_eq_refused

/-- DEC_START is refused when the decoder is not busy and its own two buffers overlap, as `buffersOverlap`. -/
theorem exec_decStart_eq_refused {x : BitVec 31} {s : State} {r : Refusal} : exec (.decStart x) s = .refused r ↔
    decBusy s = false ∧ s.bufs.bin.disjoint s.bufs.pout = false ∧ r = .buffersOverlap :=
  start_eq_refused

/-- Settles O20: a START looks at nothing but its engine's phase and the placement of that engine's two buffers. -/
theorem startRefusedOnOverlap : Obligations.StartRefusedOnOverlap := by
  refine ⟨Region.disjoint_iff, fun s x => ⟨?_, ?_, fun r h => ?_⟩⟩
  · simp only [exec_encStart_eq_refused, exists_and_left, exists_eq, and_true]
  · simp only [exec_decStart_eq_refused, exists_and_left, exists_eq, and_true]
  · obtain h | h := h
    · obtain ⟨-, -, hr⟩ := exec_encStart_eq_refused.mp h
      exact hr
    · obtain ⟨-, -, hr⟩ := exec_decStart_eq_refused.mp h
      exact hr

/-! ### The host's accesses to buffers (R42, R49, R125) -/

/-- The host may not store where a busy engine's buffer lies. -/
theorem busyAddr_iff {s : State} {a : Nat} : busyAddr s a = true ↔
    encBusy s = true ∧ (s.bufs.pin.has a = true ∨ s.bufs.bout.has a = true) ∨
      decBusy s = true ∧ (s.bufs.bin.has a = true ∨ s.bufs.pout.has a = true) := by
  rw [busyAddr, Bool.or_eq_true, encOwns_iff, decOwns_iff]

/-- `PIN` and `BOUT` are the encoder's, `BIN` and `POUT` the decoder's (R35). -/
theorem busyBuf_iff {s : State} {b : Buf} : busyBuf s b = true ↔
    (b = .pin ∨ b = .bout) ∧ encBusy s = true ∨ (b = .bin ∨ b = .pout) ∧ decBusy s = true := by
  cases b <;> simp [busyBuf]

/-- A host store below the capacity is refused in a busy engine's buffer. -/
theorem hostStore_of_busy {s : State} {b : Buf} {off : Nat} (hc : off < (s.bufs.get b).cap)
    (h : busyAddr s (bufAddr s b off) = true) (v : Byte) : hostStore b off v s = .refused (.hostWroteBusyBuffer b off) := by
  rw [hostStore, if_pos hc, if_pos h]

/-- A host store below the capacity writes memory where no busy engine's buffer lies. -/
theorem hostStore_of_not_busy {s : State} {b : Buf} {off : Nat} (hc : off < (s.bufs.get b).cap)
    (h : ¬ busyAddr s (bufAddr s b off) = true) (v : Byte) :
    hostStore b off v s = .next { s with mem := s.mem.write (bufAddr s b off) v } := by
  rw [hostStore, if_pos hc, if_neg h]

/-- A host store at or beyond the capacity is refused. -/
theorem hostStore_outside {s : State} {b : Buf} {off : Nat} (hc : (s.bufs.get b).cap ≤ off) (v : Byte) :
    hostStore b off v s = .refused (.hostOutsideBuffer b off) :=
  if_neg (Nat.not_lt.mpr hc)

/-- Settles O57: `busyAddr` and `busyBuf` decide a store and a placing; what is not refused is one write to memory, or to the
placement. -/
theorem hostKeepsOffBusyBuffers : Obligations.HostKeepsOffBusyBuffers := by
  intro s b off v r
  refine ⟨fun hc ho => hostStore_of_busy hc (busyAddr_iff.mpr ho) v,
    fun hc ho => ⟨_, hostStore_of_not_busy hc (mt busyAddr_iff.mp ho) v, rfl, fun k => Memory.read_write ..⟩,
    fun hc => hostStore_outside hc v, fun hb => if_pos (busyBuf_iff.mpr hb),
    fun hb => ⟨_, if_neg (mt busyBuf_iff.mp hb), rfl, fun c => BufMap.get_set ..⟩⟩

/-! ### What an engine's read or store is refused for -/

/-- A sequence is refused in its first part, or in its second after the first completed. -/
theorem andThen_eq_refused {α β : Type} {x : Result α} {f : α → Result β} {r : Refusal} :
    andThen x f = .refused r ↔ x = .refused r ∨ ∃ a, x = .next a ∧ f a = .refused r := by
  cases x <;> simp [andThen]

/-- An engine read is refused only for a byte that is not placed (R125; log 4). -/
theorem loadByte_eq_refused {b : Buf} {off : Nat} {s : State} {r : Refusal} (h : loadByte b off s = .refused r) :
    r = .inputNotPlaced b off := by
  unfold loadByte at h
  split at h
  · cases h
  · exact (Host.Outcome.refused.inj h).symm

/-- An engine read of a row of bytes is refused only for a byte that is not placed. -/
theorem loadBytes_eq_refused {b : Buf} {n off : Nat} {s : State} {r : Refusal} (h : loadBytes b off n s = .refused r) :
    ∃ o, r = .inputNotPlaced b o := by
  induction n generalizing off with
  | zero => cases h
  | succ n ih =>
    obtain h | ⟨v, -, h⟩ := andThen_eq_refused.mp h
    · exact ⟨off, loadByte_eq_refused h⟩
    · obtain h | ⟨vs, -, h⟩ := andThen_eq_refused.mp h
      · exact ih h
      · cases h

/-- PIXEL FETCH is refused only for a byte of `PIN` that is not placed (R84). -/
theorem fetchPixel_eq_refused {i : Nat} {s : State} {r : Refusal} (h : fetchPixel i s = .refused r) :
    ∃ o, r = .inputNotPlaced .pin o := by
  obtain h | ⟨_, -, h⟩ := andThen_eq_refused.mp h
  · exact ⟨_, loadByte_eq_refused h⟩
  obtain h | ⟨_, -, h⟩ := andThen_eq_refused.mp h
  · exact ⟨_, loadByte_eq_refused h⟩
  obtain h | ⟨_, -, h⟩ := andThen_eq_refused.mp h
  · exact ⟨_, loadByte_eq_refused h⟩
  split at h
  · obtain h | ⟨_, -, h⟩ := andThen_eq_refused.mp h
    · exact ⟨_, loadByte_eq_refused h⟩
    · cases h
  · cases h

/-- Reading a chunk is refused only for a byte of `BIN` that is not placed: every chunk that is read decodes (R60, R101). -/
theorem fetchChunk_eq_refused {s : State} {r : Refusal} (h : fetchChunk s = .refused r) :
    ∃ o, r = .inputNotPlaced .bin o := by
  obtain h | ⟨b0, -, h⟩ := andThen_eq_refused.mp h
  · exact ⟨_, loadByte_eq_refused h⟩
  obtain h | ⟨operands, hload, h⟩ := andThen_eq_refused.mp h
  · exact loadBytes_eq_refused h
  obtain ⟨i, hi⟩ := decodeChunk_total b0 operands (loadBytes_eq_next hload).1
  rw [hi] at h
  cases h

/-! ### What the encoder's turn is refused for -/

/-- All the encoder's turn can be refused for: an input byte that is not placed (R125), a `BOUT` below the capacity of R42, or
a store to a byte of `BOUT` that lies in a buffer of the busy decoder (R49). -/
inductive EncRefusal (s : State) : Refusal → Prop where
  | notPlaced (o : Nat) : EncRefusal s (.inputNotPlaced .pin o)
  | tooSmall (hc : s.bufs.bout.cap < encCapacity s.enc.w s.enc.h s.enc.ch) : EncRefusal s (.outputTooSmall .bout)
  | busyByte (o : Nat) (hc : o < s.bufs.bout.cap) (ho : decOwns s (bufAddr s .bout o) = true) :
      EncRefusal s (.engineWroteBusyBuffer .bout o)

/-- A refused `emit` is a refused store, also after changes of the encoder's registers and of memory. -/
theorem EncRefusal.of_emit {s u : State} {bs : List Byte} {r : Refusal} (h : emit bs u = .refused r)
    (hu : u = { s with enc := u.enc, mem := u.mem }) : EncRefusal s r := by
  obtain ⟨o, rfl, hc, ho⟩ := emit_eq_refused h
  rw [hu] at hc ho
  exact .busyByte o hc ho

/-- A refused VALIDATE. -/
theorem encValidate_eq_refused {s : State} {r : Refusal} (h : encValidate s = .refused r) : EncRefusal s r := by
  cases he : encError s with
  | some e => simp [encValidate, he] at h
  | none =>
    by_cases hc : s.bufs.bout.cap < encCapacity s.enc.w s.enc.h s.enc.ch
    · simp only [encValidate, he, if_pos hc, Host.Outcome.refused.injEq] at h
      exact h ▸ .tooSmall hc
    · rw [encValidate_eq s he (Nat.le_of_not_lt hc)] at h
      obtain h | ⟨_, -, h⟩ := andThen_eq_refused.mp h
      · obtain ⟨o, rfl, -, -, hcap, ho⟩ := storeBytes_eq_refused h
        exact .busyByte o hcap ho
      · cases h

/-- A refused LOOP step: the fetch, or the emission of a run or of the pixel's chunk. -/
theorem encLoop_eq_refused {s : State} {r : Refusal} (h : encLoop s = .refused r) : EncRefusal s r := by
  obtain h | ⟨px, -, h⟩ := andThen_eq_refused.mp h
  · obtain ⟨o, rfl⟩ := fetchPixel_eq_refused h
    exact .notPlaced o
  obtain h | ⟨_, -, h⟩ := andThen_eq_refused.mp h
  · split at h
    · simp only [runExtend] at h
      split at h
      · obtain h | ⟨_, -, h⟩ := andThen_eq_refused.mp h
        · exact .of_emit h rfl
        · cases h
      · cases h
    · rw [differingPixel_eq] at h
      obtain h | ⟨_, -, h⟩ := andThen_eq_refused.mp h
      · exact .of_emit h rfl
      · cases h
  · cases h

/-- A refused TAIL: the emission of a pending run or of the end marker. -/
theorem encTail_eq_refused {s : State} {r : Refusal} (h : encTail s = .refused r) : EncRefusal s r := by
  simp only [encTail, flushPending_eq] at h
  obtain h | ⟨_, ht, h⟩ := andThen_eq_refused.mp h
  · obtain h | ⟨_, -, h⟩ := andThen_eq_refused.mp h
    · exact .of_emit h rfl
    · cases h
  · obtain ⟨u, hu, ht⟩ := andThen_eq_next.mp ht
    obtain rfl := Host.Outcome.next.inj ht
    obtain h | ⟨_, -, h⟩ := andThen_eq_refused.mp h
    · exact .of_emit h (by rw [emit_eq_next hu])
    · cases h

/-- A refused turn of the encoder, by its phase. -/
theorem encTurn_eq_refused {s : State} {r : Refusal} (h : encTurn s = .refused r) : EncRefusal s r := by
  unfold encTurn at h
  split at h
  case h_2 => exact encValidate_eq_refused h
  case h_3 => exact encLoop_eq_refused h
  case h_4 => exact encTail_eq_refused h
  all_goals cases h

/-! ### What the decoder's turn is refused for -/

/-- All the decoder's turn can be refused for: an input byte that is not placed (R125), a `POUT` below the capacity of R42, or
a store to a byte of `POUT` that lies in a buffer of the busy encoder (R49). -/
inductive DecRefusal (s : State) : Refusal → Prop where
  | notPlaced (o : Nat) : DecRefusal s (.inputNotPlaced .bin o)
  | tooSmall : DecRefusal s (.outputTooSmall .pout)
  | busyByte (o : Nat) (hc : o < s.bufs.pout.cap) (ho : encOwns s (bufAddr s .pout o) = true) :
      DecRefusal s (.engineWroteBusyBuffer .pout o)

/-- A refused HEADER. -/
theorem decHeader_eq_refused {s : State} {r : Refusal} (h : decHeader s = .refused r) : DecRefusal s r := by
  unfold decHeader at h
  split at h
  · cases h
  obtain h | ⟨bs, -, h⟩ := andThen_eq_refused.mp h
  · obtain ⟨o, rfl⟩ := loadBytes_eq_refused h
    exact .notPlaced o
  split at h
  · cases h
  · split at h
    · exact Host.Outcome.refused.inj h ▸ .tooSmall
    · cases h

/-- A refused LOOP step: a replay's pixel, the read of a chunk, or a chunk's pixel. -/
theorem decLoop_eq_refused {s : State} {r : Refusal} (h : decLoop s = .refused r) : DecRefusal s r := by
  unfold decLoop at h
  split at h
  · obtain ⟨o, rfl, hc, ho⟩ := replay_eq_refused h
    exact .busyByte o hc ho
  split at h
  · obtain h | ⟨i, hi, h⟩ := andThen_eq_refused.mp h
    · obtain ⟨o, rfl⟩ := fetchChunk_eq_refused h
      exact .notPlaced o
    · obtain ⟨_, _, -, -, -, hchunk⟩ := fetchChunk_cases hi
      obtain ⟨o, rfl, hc, ho⟩ := exec_chunk_eq_refused hchunk h
      exact .busyByte o hc ho
  · cases h

/-- A refused turn of the decoder, by its phase. -/
theorem decTurn_eq_refused {s : State} {r : Refusal} (h : decTurn s = .refused r) : DecRefusal s r := by
  unfold decTurn at h
  split at h
  case h_2 => exact decHeader_eq_refused h
  case h_3 => exact decLoop_eq_refused h
  all_goals cases h

/-! ### The capacity of R42 -/

/-- In VALIDATE the encoder's turn is the VALIDATE step (R25). -/
theorem encTurn_validate {s : State} (hp : s.enc.phase = .validate) : encTurn s = encValidate s := by
  simp only [encTurn, hp]

/-- In HEADER the decoder's turn is the HEADER step (R25). -/
theorem decTurn_header {s : State} (hp : s.dec.phase = .header) : decTurn s = decHeader s := by
  simp only [decTurn, hp]

/-- The capacity a decode needs, from the 14 bytes of its header (R42, R52). -/
theorem decCapacity_parseHeader {hdr : List Byte} (h14 : hdr.length = 14) :
    decCapacity (parseHeader hdr) = wordAt hdr 4 * wordAt hdr 8 * (hdr.getD 12 0#8).toNat := by
  obtain ⟨e, hw, hh⟩ := parseHeader_eq hdr h14
  simp only [e, decCapacity, BitVec.toNat_ofNat, Nat.mod_eq_of_lt hw, Nat.mod_eq_of_lt hh]

/-- Settles O30: past the checks each step compares the capacity before it does anything else, and no other of its parts
answers `outputTooSmall`. -/
theorem tooSmallOutputIsRefused : Obligations.TooSmallOutputIsRefused := by
  constructor
  · intro s hp he
    constructor
    · intro h
      cases encTurn_eq_refused h with
      | tooSmall hc => exact hc
    · intro hc
      rw [encTurn_validate hp]
      simp only [encValidate, he]
      exact if_pos hc
  · intro s hdr hp hl h14 hb he
    rw [decTurn_header hp, decHeader_eq s hdr hl h14 hb, he, ← decCapacity_parseHeader h14]
    simp

/-! ### Stores of the engines (R49, R50) -/

/-- The bytes the encoder's turn stored when it completed without an error: the header in VALIDATE, else those between the old
write position and the new one. None is the busy decoder's (R49, R71, R85). -/
theorem encTurn_stored_free {s t : State} (h : encTurn s = .next t) (hp : t.enc.phase ≠ .error) {o : Nat}
    (h1 : (if s.enc.phase = .validate then 0 else s.enc.op) ≤ o) (h2 : o < t.enc.op) :
    ¬ decOwns s (bufAddr s .bout o) = true := by
  have emitted {bs : List Byte} {u : State} (hv : s.enc.phase ≠ .validate) (hu : emit bs s = .next u)
      (ht : t.enc.op = u.enc.op) : ¬ decOwns s (bufAddr s .bout o) = true := by
    rw [if_neg hv] at h1
    rw [ht, emit_eq_next hu] at h2
    exact (emit_fits hu).2.not_owned h1 h2
  have nothing (hv : s.enc.phase ≠ .validate) (ht : t.enc.op = s.enc.op) : ¬ decOwns s (bufAddr s .bout o) = true := by
    rw [if_neg hv] at h1
    omega
  unfold encTurn at h
  split at h
  case h_2 =>
    obtain ⟨_, -, rfl⟩ | ⟨-, -, hfree, rfl⟩ := encValidate_cases h
    · exact absurd rfl hp
    · exact hfree.not_owned (Nat.zero_le o) h2
  case h_3 hl =>
    have hv : s.enc.phase ≠ .validate := by simp [hl]
    obtain ⟨_, -, ⟨-, -, rfl⟩ | ⟨-, -, u, hu, rfl⟩ | ⟨-, u, hu, rfl⟩⟩ := encLoop_cases h
    · exact nothing hv rfl
    · exact emitted hv hu rfl
    · exact emitted hv hu rfl
  case h_4 hl =>
    obtain ⟨u, hu, rfl⟩ := encTail_cases h
    exact emitted (by simp [hl]) hu rfl
  all_goals
    obtain rfl := Host.Outcome.next.inj h
    exact nothing (by simp [*]) rfl

/-- HEADER counts no pixel (R99). -/
theorem decHeader_k {s t : State} (h : decHeader s = .next t) : t.dec.k ≤ s.dec.k := by
  obtain ⟨-, rfl⟩ | ⟨_, -, -, -, ⟨_, -, rfl⟩ | ⟨-, -, rfl⟩⟩ := decHeader_cases h
  · exact Nat.le_refl _
  · exact Nat.le_refl _
  · exact Nat.zero_le _

/-- A decoder turn that counts a pixel had room for it (R111). -/
theorem decTurn_room {s t : State} (h : decTurn s = .next t) (hk : t.dec.k = s.dec.k + 1) : RoomForPixel s := by
  obtain ⟨-, rfl⟩ | ⟨hp, -⟩ | ⟨-, hroom, -⟩ | ⟨-, -, -, rfl⟩ := decTurn_cases h
  · omega
  · have := decHeader_k ((decTurn_header hp).symm.trans h)
    omega
  · exact hroom
  · simp at hk

/-- VALIDATE past its checks and with the capacity of R42 is refused at the first header byte that is the busy decoder's (R49,
R71, R83). -/
theorem encValidate_refused {s : State} (he : encError s = none)
    (hc : encCapacity s.enc.w s.enc.h s.enc.ch ≤ s.bufs.bout.cap) {o : Nat} (h14 : o < 14) (hfree : FreeAt s .bout 0 o)
    (ho : decOwns s (bufAddr s .bout o) = true) : encValidate s = .refused (.engineWroteBusyBuffer .bout o) := by
  have hcap : o < s.bufs.bout.cap := by
    unfold encCapacity at hc
    omega
  rw [encValidate_eq s he hc, storeBytes_refused .bout _ 0 o (setUpEnc s) (Nat.zero_le o)
    (by rwa [headerBytes_length, Nat.zero_add]) hcap hfree ho, andThen_refused]

/-- Settles O60: a refused turn is one of `EncRefusal` or `DecRefusal`; the bytes of a turn that completes were free. -/
theorem engineStoresKeepOffBusyBuffers : Obligations.EngineStoresKeepOffBusyBuffers := by
  intro s
  refine ⟨fun b o h => ?_, fun b o h => ?_, fun t h hp o h1 h2 => ?_, fun t h hk o h1 h2 => ?_,
    fun hp he hc o h14 ho hfirst => ?_⟩
  · cases encTurn_eq_refused h with
    | busyByte _ hc ho => exact ⟨rfl, hc, decOwns_iff.mp ho⟩
  · cases decTurn_eq_refused h with
    | busyByte _ hc ho => exact ⟨rfl, hc, encOwns_iff.mp ho⟩
  · exact mt decOwns_iff.mpr (encTurn_stored_free h hp h1 h2)
  · exact mt encOwns_iff.mpr ((decTurn_room h hk).2.not_owned h1 h2)
  · rw [encTurn_validate hp]
    refine encValidate_refused he hc h14 (fun j hj => ?_) (decOwns_iff.mpr ho)
    rw [Nat.zero_add]
    exact Bool.eq_false_iff.mpr (mt decOwns_iff.mp (hfirst j hj))

end Sys2Proof.Machine
end

section
/-! PROOF. The statements of spec/30_encoding.md: decoding inverts encoding and encoding inverts decoding (R54 to R59, R63),
the tag byte selects the kind (R60) and the length (R61). First the two round trips, then the tag as a number. -/

namespace Sys2Proof.Machine

/-! ### Decoding what is encoded (R54 to R59, R117, R118) -/

/-- A chunk is written as its bytes. -/
theorem encode_chunk {i : Instr} (hi : isChunk i = true) : encode i = .chunk (chunkBytes i) := by
  cases i with
  | encStart | decStart => simp [isChunk] at hi
  | _ => rfl

/-- A chunk's bytes, whatever follows them, decode to the chunk and leave what follows (R54 to R59): the tag byte gives the
kind, and the kind's fields are read back from where they were put. -/
theorem decode_chunkBytes {i : Instr} (hi : isChunk i = true) (hw : i.wf = true) (rest : List Byte) :
    decode (.chunk (chunkBytes i ++ rest)) = .ok (i, rest) := by
  simp only [decode]
  cases i with
  | index f => simp [chunkBytes, decodeChunk, kindOf_index, tagByte_field]
  | diff r g b =>
    obtain ⟨hr, hg, hb⟩ := diff_fields r g b
    simp only [chunkBytes, List.cons_append, List.nil_append, decodeChunk, kindOf_diff, hr, hg, hb]
  | luma g r b =>
    obtain ⟨hr, hb⟩ := luma_fields r b
    simp only [chunkBytes, List.cons_append, List.nil_append, decodeChunk, kindOf_luma, tagByte_field, hr, hb]
  | run l =>
    have hl : l.toNat ≤ 61 := by simpa [Instr.wf] using hw
    simp [chunkBytes, decodeChunk, kindOf_run l hl, tagByte_field]
  | rgb => simp [chunkBytes, decodeChunk, kindOf_rgb]
  | rgba => simp [chunkBytes, decodeChunk, kindOf_rgba]
  | encStart | decStart => simp [isChunk] at hi

/-- A command decodes to itself from its control write, reserved bits included (R117, R118). -/
theorem decode_encode_command {i : Instr} (hi : isChunk i = false) : decode (encode i) = .ok (i, []) := by
  cases i with
  | encStart x | decStart x =>
    obtain ⟨hstart, hx⟩ := ctrl_fields x
    simp only [encode, decode, decodeCtrl, hstart, hx, if_true, Except.map]
  | _ => simp [isChunk] at hi

/-- Settles O2: a chunk is read back through its tag and fields, a command through bit 0 and the other bits of its word. -/
theorem encodedInstructionDecodesToItself : Obligations.EncodedInstructionDecodesToItself :=
  fun _ hw => ⟨fun hi rest => ⟨encode_chunk hi, decode_chunkBytes hi hw rest⟩, decode_encode_command⟩

/-! ### Encoding what is decoded (R54 to R60, R63) -/

/-- What is decoded from the stream is well-formed: a RUN field of 62 or 63 would be the tag of RGB or RGBA (R57, R60). -/
theorem decoded_wf {bs rest : List Byte} {i : Instr} (h : decode (.chunk bs) = .ok (i, rest)) : i.wf = true := by
  cases i with
  | run l => exact decide_eq_true (decoded_run h)
  | _ => rfl

/-- A tag byte is put together again from its tag bits and its field (R8). -/
theorem tagByte_of_tag {b : Byte} {t : BitVec 2} (h : b.extractLsb' 6 2 = t) : tagByte t (b.extractLsb' 0 6) = b := by
  rw [← h, tagByte_parts]

/-- What decodes to a chunk is that chunk's bytes and the bytes left over (R54 to R60). -/
theorem decoded_bytes {bs rest : List Byte} {i : Instr} (h : decode (.chunk bs) = .ok (i, rest)) :
    bs = chunkBytes i ++ rest := by
  cases bs with
  | nil => simp [decode, decodeChunk] at h
  | cons b0 t =>
    obtain ⟨hindex, hdiff, hluma, hrun, hrgb, hrgba⟩ := kindOf_tag b0
    simp only [decode, decodeChunk] at h
    cases hk : kindOf b0 <;> simp only [hk] at h
    case index =>
      cases h
      simp [chunkBytes, tagByte_of_tag (hindex hk)]
    case diff =>
      cases h
      simp [chunkBytes, diff_parts, tagByte_of_tag (hdiff hk)]
    case luma =>
      split at h <;> cases h
      simp [chunkBytes, luma_parts, tagByte_of_tag (hluma hk)]
    case run =>
      cases h
      simp [chunkBytes, tagByte_of_tag (hrun hk).1]
    case rgb =>
      split at h <;> cases h
      simp [chunkBytes, hrgb hk]
    case rgba =>
      split at h <;> cases h
      simp [chunkBytes, hrgba hk]

/-- A control write that decodes is its command's encoding: bit 0 is set and the other bits are kept (R30, R117, R118). -/
theorem decoded_command {reg : CtrlReg} {v : Word} {i : Instr} {rest : List Byte}
    (h : decode (.ctrlWrite reg v) = .ok (i, rest)) :
    i.wf = true ∧ isChunk i = false ∧ rest = [] ∧ encode i = .ctrlWrite reg v := by
  simp only [decode, decodeCtrl] at h
  split at h
  · next hstart =>
    cases reg <;> cases h <;> exact ⟨rfl, rfl, rfl, congrArg (Code.ctrlWrite _) (ctrl_parts v hstart)⟩
  · cases h

/-- Settles O3: the decoded fields, put together again, are the bytes or the word they were read from. -/
theorem decodedBytesAreTheEncoding : Obligations.DecodedBytesAreTheEncoding :=
  ⟨fun _ _ _ h => ⟨decoded_wf h, decodeChunk_isChunk h, decoded_bytes h⟩, fun _ _ _ _ => decoded_command⟩

/-! ### The tag byte as a number (R60) -/

/-- The top two bits of a tag byte, as a number. -/
theorem tag_eq_iff (b : Byte) (t : BitVec 2) : b.extractLsb' 6 2 = t ↔ b.toNat / 64 = t.toNat := by
  rw [← BitVec.toNat_inj, BitVec.extractLsb'_toNat, Nat.shiftRight_eq_div_pow, Nat.mod_eq_of_lt (by omega)]

/-- The kind from the tag byte's number, the two full-byte tags first (R60). -/
theorem kindOf_eq_div (b : Byte) : kindOf b =
    if b.toNat = 0xFE then .rgb else if b.toNat = 0xFF then .rgba else if b.toNat / 64 = 0 then .index
    else if b.toNat / 64 = 1 then .diff else if b.toNat / 64 = 2 then .luma else .run := by
  have hrgb : b = 0xFE#8 ↔ b.toNat = 0xFE := BitVec.toNat_inj.symm
  have hrgba : b = 0xFF#8 ↔ b.toNat = 0xFF := BitVec.toNat_inj.symm
  simp only [kindOf, tag_eq_iff, hrgb, hrgba]
  rfl

/-- Settles O4: each range decides the conditions of the kind, one after the other. -/
theorem tagByteSelectsKind : Obligations.TagByteSelectsKind := by
  intro b
  rw [kindOf_eq_div]
  refine ⟨fun h => ?_, fun h => ?_, fun h => ?_, fun h => ?_, fun h => ?_, fun h => ?_⟩
  · rw [if_neg (by omega), if_neg (by omega), if_pos (by omega)]
  · rw [if_neg (by omega), if_neg (by omega), if_neg (by omega), if_pos (by omega)]
  · rw [if_neg (by omega), if_neg (by omega), if_neg (by omega), if_neg (by omega), if_pos (by omega)]
  · rw [if_neg (by omega), if_neg (by omega), if_neg (by omega), if_neg (by omega), if_neg (by omega)]
  · rw [if_pos h]
  · rw [if_neg (by omega), if_pos h]

/-! ### The length of a chunk (R61, R63) -/

/-- The length of a chunk by the range of its tag byte (R61). -/
theorem kindOf_length (b : Byte) : (kindOf b).length =
    if b.toNat < 0x80 then 1 else if b.toNat < 0xC0 then 2 else if b.toNat < 0xFE then 1
    else if b.toNat = 0xFE then 4 else 5 := by
  simp only [kindOf_eq_div, apply_ite Kind.length]
  simp only [Kind.length]
  split_ifs <;> omega

/-- Bytes that follow what decodes are left over with the rest. -/
theorem decode_append {bs rest : List Byte} {i : Instr} (h : decode (.chunk bs) = .ok (i, rest)) (more : List Byte) :
    decode (.chunk (bs ++ more)) = .ok (i, rest ++ more) := by
  rw [decoded_bytes h, List.append_assoc]
  exact decode_chunkBytes (decodeChunk_isChunk h) (decoded_wf h) _

/-- With as many bytes as its tag asks for, a chunk decodes and leaves the bytes after those (R61, R63). -/
theorem decode_of_length_le {b0 : Byte} {rest : List Byte} (h : (kindOf b0).length ≤ rest.length + 1) :
    ∃ i, decode (.chunk (b0 :: rest)) = .ok (i, rest.drop ((kindOf b0).length - 1)) := by
  have htake : (rest.take ((kindOf b0).length - 1)).length = (kindOf b0).length - 1 :=
    List.length_take_of_le (by omega)
  obtain ⟨i, hi⟩ := decodeChunk_total b0 _ htake
  have happend := decode_append hi (rest.drop ((kindOf b0).length - 1))
  rw [List.cons_append, List.take_append_drop] at happend
  exact ⟨i, happend⟩

/-- With fewer bytes than its tag asks for, a chunk is rejected as truncated (log 19). -/
theorem decode_of_lt_length {b0 : Byte} {rest : List Byte} (h : rest.length + 1 < (kindOf b0).length) :
    decode (.chunk (b0 :: rest)) = .error (.truncated (kindOf b0).length (rest.length + 1)) := by
  simp only [decode, decodeChunk]
  cases hk : kindOf b0 <;> simp only [hk, Kind.length] at h ⊢
  case index | diff | run => omega
  case luma | rgb | rgba =>
    split
    · simp only [List.length_cons] at h
      omega
    · rfl

/-- Settles O5: the bytes the tag asks for decode by themselves and those after them are left over; with fewer, the operands'
pattern fails. -/
theorem chunkLengthFollowsFromTag : Obligations.ChunkLengthFollowsFromTag :=
  fun b0 _ => ⟨decode_of_length_le, decode_of_lt_length, kindOf_length b0⟩

/-! ### Words written out from the encodings -/

/-- Bytes that are a chunk's encoding decode to it. -/
theorem decode_of_chunkBytes_eq {i : Instr} {bs : List Byte} (hi : isChunk i = true) (hw : i.wf = true)
    (h : chunkBytes i = bs) : decode (.chunk bs) = .ok (i, []) := by
  simpa only [← h, List.append_nil] using decode_chunkBytes hi hw []

/-- A control write that is a command's encoding decodes to it. -/
theorem decode_of_encode_eq {i : Instr} {c : Code} (hi : isChunk i = false) (h : encode i = c) :
    decode c = .ok (i, []) :=
  h ▸ decode_encode_command hi

/-- Settles O1: each word is the encoding of its instruction, and the last one has bit 0 clear. -/
theorem specWordsDecode : Obligations.SpecWordsDecode :=
  ⟨decode_of_chunkBytes_eq rfl rfl rfl, decode_of_chunkBytes_eq rfl rfl rfl, decode_of_chunkBytes_eq rfl rfl rfl,
    decode_of_chunkBytes_eq rfl rfl rfl, decode_of_chunkBytes_eq rfl rfl rfl, decode_of_chunkBytes_eq rfl rfl rfl,
    decode_of_encode_eq rfl rfl, decode_of_encode_eq rfl rfl, rfl⟩

end Sys2Proof.Machine
end

section
/-! PROOF. The statements of spec/40_header_codec.md: the header the encoder writes (R71, R83), the header the decoder reads,
its checks in order and the set-up after them (R72, R73, R99), and the streams too short to hold a chunk (R74). First the 14
bytes, then what HEADER answers on them. -/

namespace Sys2Proof.Machine

/-! ### The 14 bytes (R39, R52, R71) -/

/-- A 32-bit value big-endian, each byte as a quotient (R39). -/
theorem wordBytes_eq_div (w : Word) :
    wordBytes w = [BitVec.ofNat 8 (w.toNat / 16777216), BitVec.ofNat 8 (w.toNat / 65536), BitVec.ofNat 8 (w.toNat / 256),
      BitVec.ofNat 8 w.toNat] := by
  simp [wordBytes, BitVec.extractLsb', Nat.shiftRight_eq_div_pow]

/-- The header byte by byte (R52, R71). -/
theorem headerBytes_eq (magic : Vector Byte 4) (w h : Word) (ch cs : Byte) :
    headerBytes magic w h ch cs = [magic[0], magic[1], magic[2], magic[3],
      BitVec.ofNat 8 (w.toNat / 16777216), BitVec.ofNat 8 (w.toNat / 65536), BitVec.ofNat 8 (w.toNat / 256),
      BitVec.ofNat 8 w.toNat, BitVec.ofNat 8 (h.toNat / 16777216), BitVec.ofNat 8 (h.toNat / 65536),
      BitVec.ofNat 8 (h.toNat / 256), BitVec.ofNat 8 h.toNat, ch, cs] := by
  have hmagic : magic.toList = [magic[0], magic[1], magic[2], magic[3]] := by
    obtain ⟨⟨bs⟩, hbs⟩ := magic
    match bs, hbs with
    | [_, _, _, _], _ => rfl
  simp only [headerBytes, hmagic, wordBytes_eq_div, List.cons_append, List.nil_append]

/-! ### The encoder's header (R71, R83) -/

/-- Operands that meet every check of VALIDATE pass (R83). -/
theorem encError_of_legal {s : State}
    (d : 1 ≤ s.enc.w.toNat ∧ 1 ≤ s.enc.h.toNat ∧ s.enc.w.toNat * s.enc.h.toNat < s.cfg.pixelsMax)
    (c : s.enc.ch = 3#8 ∨ s.enc.ch = 4#8) (f : s.enc.cs = 0#8 ∨ s.enc.cs = 1#8)
    (l : s.enc.plen = s.enc.w.toNat * s.enc.h.toNat * s.enc.ch.toNat) : encError s = none := by
  simp only [encError, fieldError_of_legal d c f, if_pos l]

/-- VALIDATE past its checks, with room for the header's bytes, which are free: the header is written and the working
registers are set up (R71, R83). -/
theorem encValidate_next {s : State} (he : encError s = none)
    (hc : encCapacity s.enc.w s.enc.h s.enc.ch ≤ s.bufs.bout.cap) (hf : FreeAt s .bout 0 14) :
    encValidate s = .next { setUpEnc s with
      mem := s.mem.writeAll (bufAddr s .bout 0) (headerBytes s.cfg.magic s.enc.w s.enc.h s.enc.ch s.enc.cs),
      enc := { (setUpEnc s).enc with op := 14, phase := .loop } } := by
  obtain ⟨t, ht⟩ := encValidate_runs s he hc hf
  obtain ⟨e, he', -⟩ | ⟨-, -, -, rfl⟩ := encValidate_cases ht
  · simp [he] at he'
  · exact ht

/-- Bytes stored at an offset are the only ones written. -/
theorem onlyWrote_writeAll {s t : State} {b : Buf} {off : Nat} {vs : List Byte}
    (h : t.mem = s.mem.writeAll (bufAddr s b off) vs) : OnlyWrote s t b off vs.length := by
  intro a ha
  rw [h, Memory.read_writeAll, if_neg ha]

/-- Settles O29: legal operands pass the checks, the 14 bytes fit the capacity of R42 and are free, and VALIDATE stores them. -/
theorem validateWritesHeader : Obligations.ValidateWritesHeader := by
  intro s hp hw hh hmax hch hcs hlen hcap hfree
  have hfit : 0 + (headerBytes s.cfg.magic s.enc.w s.enc.h s.enc.ch s.enc.cs).length ≤ (s.bufs.get .bout).cap := by
    rw [headerBytes_length]
    exact le_trans (by omega) hcap
  refine ⟨_, (encTurn_validate hp).trans (encValidate_next (encError_of_legal ⟨hw, hh, hmax⟩ hch hcs hlen) hcap hfree),
    ⟨rfl, rfl, rfl, rfl, rfl, rfl, rfl⟩, rfl, rfl, cacheGet_fresh, ?_, ?_⟩
  · rw [← headerBytes_eq]
    exact holdsBytes_writeAll s .bout 0 _ hfit
  · rw [← headerBytes_length s.cfg.magic s.enc.w s.enc.h s.enc.ch s.enc.cs]
    exact onlyWrote_writeAll rfl

/-! ### What HEADER answers (R72, R73, R99) -/

/-- The first failing check of HEADER, from the 14 bytes (R70, R73). -/
theorem headerError_parseHeader {p : Config.Params} {hdr : List Byte} (h14 : hdr.length = 14) :
    headerError p (parseHeader hdr) =
      if hdr.take 4 ≠ p.magic.toList then some .signature
      else if ¬ (1 ≤ wordAt hdr 4 ∧ 1 ≤ wordAt hdr 8 ∧ wordAt hdr 4 * wordAt hdr 8 < p.pixelsMax) then some .dimension
      else if ¬ (hdr.getD 12 0#8 = 3#8 ∨ hdr.getD 12 0#8 = 4#8) then some .channel
      else if ¬ (hdr.getD 13 0#8 = 0#8 ∨ hdr.getD 13 0#8 = 1#8) then some .colorspace
      else none := by
  obtain ⟨e, hw, hh⟩ := parseHeader_eq hdr h14
  simp only [e, headerError, fieldError_eq, BitVec.toNat_ofNat, Nat.mod_eq_of_lt hw, Nat.mod_eq_of_lt hh, ne_eq, ite_not]

/-- HEADER on 14 bytes that fail a check: the fields are read, then the error is raised (R72, R73). -/
theorem decHeader_fails {s : State} {hdr : List Byte} (hl : 14 ≤ s.dec.len) (h14 : hdr.length = 14)
    (hb : GetsBytes s .bin 0 hdr) {e : Err} (he : headerError s.cfg (parseHeader hdr) = some e) :
    decHeader s = .next (raiseDec e (readHeader (parseHeader hdr) s)) := by
  rw [decHeader_eq s hdr hl h14 hb, he]

/-- HEADER on 14 bytes that pass every check, with the capacity of R42: the set-up (R99). -/
theorem decHeader_passes {s : State} {hdr : List Byte} (hl : 14 ≤ s.dec.len) (h14 : hdr.length = 14)
    (hb : GetsBytes s .bin 0 hdr) (he : HeaderPasses s.cfg hdr)
    (hc : decCapacity (parseHeader hdr) ≤ s.bufs.pout.cap) :
    decHeader s = .next (setUpDec (readHeader (parseHeader hdr) s)) := by
  rw [decHeader_eq s hdr hl h14 hb, (headerError_eq_none h14).mpr he]
  exact if_neg (Nat.not_lt.mpr hc)

/-- HEADER on 14 bytes that find no error does not end in ERROR (R73, R99). -/
theorem decHeader_not_error {s t : State} {hdr : List Byte} (hl : 14 ≤ s.dec.len) (h14 : hdr.length = 14)
    (hb : GetsBytes s .bin 0 hdr) (he : headerError s.cfg (parseHeader hdr) = none) (h : decHeader s = .next t) :
    t.dec.phase ≠ .error := by
  simp only [decHeader_eq s hdr hl h14 hb, he] at h
  split at h
  · cases h
  · obtain rfl := Host.Outcome.next.inj h
    simp

/-- After a decoder error the whole of `POUT` holds any value and every other byte is as before (R131). -/
theorem poutFreed_raiseDec (e : Err) (s : State) : PoutFreed s (raiseDec e s) :=
  Memory.read_freeIf s.mem s.bufs.pout.has (Config.leftByte s.freeCount)

/-- Settles O22: the checks of the model, put in terms of the bytes, are the statement's chain; each failing one raises its
error after the fields are read. -/
theorem headerReportsFirstFailingCheck : Obligations.HeaderReportsFirstFailingCheck := by
  intro s hdr hp hl h14 hb w h ch cs fails
  have fails_of {e : Err} (he : headerError s.cfg (parseHeader hdr) = some e) : fails e :=
    ⟨_, (decTurn_header hp).trans (decHeader_fails hl h14 hb he), poutFreed_raiseDec e (readHeader _ s),
      by rw [(parseHeader_eq hdr h14).1]; rfl⟩
  have checks := headerError_parseHeader (p := s.cfg) h14
  split
  case isTrue hm => exact fails_of (checks.trans (if_pos hm))
  case isFalse hm =>
    rw [if_neg hm] at checks
    split
    case isTrue hd => exact fails_of (checks.trans (if_pos hd))
    case isFalse hd =>
      rw [if_neg hd] at checks
      split
      case isTrue hc => exact fails_of (checks.trans (if_pos hc))
      case isFalse hc =>
        rw [if_neg hc] at checks
        split
        case isTrue hs => exact fails_of (checks.trans (if_pos hs))
        case isFalse hs =>
          rw [if_neg hs] at checks
          intro t ht
          exact decHeader_not_error hl h14 hb checks ((decTurn_header hp).symm.trans ht)

/-- Settles O23: the header passes and its image has room, so HEADER reads the fields and sets up the registers. -/
theorem validHeaderSetsUpDecoder : Obligations.ValidHeaderSetsUpDecoder := by
  intro s hdr hp hl h14 hb hm hw hh hmax hch hcs hcap
  obtain ⟨e, hw32, hh32⟩ := parseHeader_eq hdr h14
  have toW : (parseHeader hdr).w.toNat = wordAt hdr 4 := by rw [e]; exact Nat.mod_eq_of_lt hw32
  have toH : (parseHeader hdr).h.toNat = wordAt hdr 8 := by rw [e]; exact Nat.mod_eq_of_lt hh32
  refine ⟨_, (decTurn_header hp).trans (decHeader_passes hl h14 hb ⟨hm, hw, hh, hmax, hch, hcs⟩
      ((decCapacity_parseHeader h14).trans_le hcap)),
    ⟨rfl, rfl, rfl, rfl, rfl, rfl, rfl⟩, rfl, rfl, toW, toH, rfl, rfl, ?_, rfl, rfl, rfl, rfl, rfl, cacheGet_fresh, rfl,
    rfl, rfl⟩
  rw [← toW, ← toH]
  rfl

/-! ### Short streams (R74, R113) -/

/-- HEADER on a stream shorter than a header raises INCOMPLETE IMAGE whatever the bytes are (R74). -/
theorem decHeader_short {s : State} (h : s.dec.len < 14) : decHeader s = .next (raiseDec .incompleteImage s) := if_pos h

/-- The decoder's turn in LOOP with no replay owed and no chunk left raises INCOMPLETE IMAGE (R101, R113). -/
theorem decTurn_missing {s : State} (hp : s.dec.phase = .loop) (hr : s.dec.run = 0#6) (hip : s.dec.stop ≤ s.dec.ip) :
    decTurn s = .next (raiseDec .incompleteImage s) := by
  simp only [decTurn, hp, decLoop]
  rw [if_neg (not_not.mpr hr), if_neg (Nat.not_lt.mpr hip)]

/-- Settles O21: below 14 bytes HEADER raises the error itself; below 22 the chunk region it sets up, from 14 to `d.L - 8`, is
empty. -/
theorem shortStreamIsIncomplete : Obligations.ShortStreamIsIncomplete := by
  intro s hp
  refine ⟨fun hl => ⟨_, (decTurn_header hp).trans (decHeader_short hl), poutFreed_raiseDec _ s, rfl⟩,
    fun hl h22 t ht hloop => ?_⟩
  obtain ⟨-, rfl⟩ | ⟨bs, -, -, -, ⟨e, -, rfl⟩ | ⟨-, -, rfl⟩⟩ := decHeader_cases ((decTurn_header hp).symm.trans ht)
  · simp at hloop
  · simp at hloop
  · have hip : s.dec.len - 8 ≤ 14 := by omega
    exact ⟨_, decTurn_missing hloop rfl hip, rfl, rfl⟩

end Sys2Proof.Machine
end

section
/-! PROOF. The statements of spec/41_pixel_cache.md: the hash (R76), the two caches chunk for chunk (R78, R79, R81), the
cache write a replay leaves out (R82). What a chunk does to a cache is said once, for each engine, as the slots read after. -/

namespace Sys2Proof.Machine

/-! ### The hash (R76) -/

/-- Settles O6: each channel is at most 255, and the weights add up to 26. -/
theorem hashIsLowSixBitsOfSum : Obligations.HashIsLowSixBitsOfSum := by
  intro px
  have hr := px.r.isLt
  have hg := px.g.isLt
  have hb := px.b.isLt
  have ha := px.a.isLt
  exact ⟨hash_toNat px, by omega⟩

/-! ### A cache write of the pixel that is already there (R82) -/

/-- Writing the pixel a slot holds leaves the cache as it is. -/
theorem cachePut_of_cacheGet {c : PixelCache} {k : BitVec 6} {px : Pixel} (h : cacheGet c k = px) :
    cachePut c k px = c := by
  subst h
  exact Vector.set_getElem_self k.isLt

/-- COMMIT of the previous pixel, once it stands in its slot, changes nothing. -/
theorem commit_prev {s : State} (h : cacheGet s.dec.cache (hash s.dec.prev) = s.dec.prev) : commit s.dec.prev s = s := by
  simp only [commit, cachePut_of_cacheGet h]

/-- Settles O51: a sound decoder that owes replays has the previous pixel in its slot. -/
theorem replayCacheWriteChangesNothing : Obligations.ReplayCacheWriteChangesNothing :=
  fun _ hs hp hr => commit_prev ((hs.dec.running hp).replayed hr)

/-! ### The classifier's chunk yields the pixel it was chosen for (R90 to R94, R105 to R109) -/

/-- The two comparisons of a range test (R7). -/
theorem within_iff {lo hi d : Int} : within lo hi d = true ↔ lo ≤ d ∧ d ≤ hi := by
  simp [within]

/-- Adding the wrapped difference of two channels to the second gives the first (R62). -/
theorem addDelta_channelDelta (c p : Byte) : addDelta p (channelDelta c p) = c :=
  addDelta_of_dvd c p _ (channelDelta_dvd c p)

/-- A DIFF chunk of deltas in -2 to 1 yields the pixel (R55, R105). -/
theorem diffPixel_classified {px p : Pixel} (ha : px.a = p.a) (hr : within (-2) 1 (channelDelta px.r p.r) = true)
    (hg : within (-2) 1 (channelDelta px.g p.g) = true) (hb : within (-2) 1 (channelDelta px.b p.b) = true) :
    diffPixel (diffField (channelDelta px.r p.r)) (diffField (channelDelta px.g p.g))
      (diffField (channelDelta px.b p.b)) p = px := by
  rw [within_iff] at hr hg hb
  simp only [diffPixel, diff_back _ hr.1 hr.2, diff_back _ hg.1 hg.2, diff_back _ hb.1 hb.2, addDelta_channelDelta, ← ha]

/-- A LUMA chunk of a green delta in -32 to 31 and relative ones in -8 to 7 yields the pixel (R56, R106). -/
theorem lumaPixel_classified {px p : Pixel} (ha : px.a = p.a) (hg : within (-32) 31 (channelDelta px.g p.g) = true)
    (hr : within (-8) 7 (channelDelta px.r p.r - channelDelta px.g p.g) = true)
    (hb : within (-8) 7 (channelDelta px.b p.b - channelDelta px.g p.g) = true) :
    lumaPixel (lumaGreenField (channelDelta px.g p.g))
      (lumaRelativeField (channelDelta px.r p.r - channelDelta px.g p.g))
      (lumaRelativeField (channelDelta px.b p.b - channelDelta px.g p.g)) p = px := by
  rw [within_iff] at hr hg hb
  simp only [lumaPixel, green_back _ hg.1 hg.2, rel_back _ hr.1 hr.2, rel_back _ hb.1 hb.2, add_sub_cancel,
    addDelta_channelDelta, ← ha]

/-- The classifier's chunk, run after the same previous pixel, is the production of the pixel (R115). -/
theorem exec_classify (px : Pixel) (s : State) : ∃ len, exec (classify px s.dec.prev) s = produce len px s := by
  simp only [classify]
  split
  case isTrue => exact ⟨5, rfl⟩
  case isFalse ha =>
    have ha : px.a = s.dec.prev.a := not_not.mp ha
    split
    case isTrue h =>
      simp only [Bool.and_eq_true] at h
      obtain ⟨⟨hr, hg⟩, hb⟩ := h
      exact ⟨1, congrArg (produce 1 · s) (diffPixel_classified ha hr hg hb)⟩
    case isFalse =>
      split
      case isTrue h =>
        simp only [Bool.and_eq_true] at h
        obtain ⟨⟨hg, hr⟩, hb⟩ := h
        exact ⟨2, congrArg (produce 2 · s) (lumaPixel_classified ha hg hr hb)⟩
      case isFalse => exact ⟨4, by rw [exec, execRgb, ← ha]⟩

/-! ### The two caches (R77 to R79, R81) -/

/-- The cache after a differing pixel: the pixel in its slot, which it held before on a hit (R77, R78). -/
theorem cacheGet_encCache (px : Pixel) (c : PixelCache) (k : BitVec 6) :
    cacheGet (encCache px c) k = if k = hash px then px else cacheGet c k := by
  unfold encCache
  split
  case isTrue h =>
    have h : cacheGet c (hash px) = px := of_decide_eq_true h
    split
    case isTrue hk => rw [hk, h]
    case isFalse => rfl
  case isFalse => exact cacheGet_cachePut c _ k px

/-- The slot of an encoder hit holds the pixel in the decoder too: the slot in which the caches may differ holds `CACHE_INIT`
in the encoder, whose own slot is another (R81). -/
theorem CachesAgree.hit {ce cd : PixelCache} (h : CachesAgree ce cd) {px : Pixel} (hit : cacheGet ce (hash px) = px) :
    cacheGet cd (hash px) = px := by
  obtain e | ⟨hk, hinit, -⟩ := h (hash px)
  · rw [← e, hit]
  · rw [hit] at hinit
    subst hinit
    exact absurd hk (by decide)

/-- The same pixel put in its slot of both caches keeps their relation. -/
theorem CachesAgree.put {ce cd ce' cd' : PixelCache} (h : CachesAgree ce cd) {px : Pixel}
    (he : ∀ k, cacheGet ce' k = if k = hash px then px else cacheGet ce k)
    (hd : ∀ k, cacheGet cd' k = if k = hash px then px else cacheGet cd k) : CachesAgree ce' cd' := by
  intro k
  rw [he, hd]
  split
  case isTrue => exact .inl rfl
  case isFalse => exact h k

/-- The decoder's write of the previous pixel keeps the caches' relation: the encoder has it in its slot already, or it is
`PREV_INIT` and brings about the one difference R81 allows. -/
theorem CachesAgree.put_prev {ce cd cd' : PixelCache} (h : CachesAgree ce cd) {p : Pixel} (hp : PrevCached ce p)
    (hd : ∀ k, cacheGet cd' k = if k = hash p then p else cacheGet cd k) : CachesAgree ce cd' := by
  intro k
  rw [hd]
  split
  case isFalse => exact h k
  case isTrue hk =>
    subst hk
    obtain cached | ⟨rfl, hinit⟩ := hp
    · exact .inl cached
    · exact .inr ⟨by decide, hinit, rfl⟩

/-- The chunk of a pixel, with caches as R81 relates them, is the production of the pixel: INDEX by the slot, any other by the
classifier's inverse (R88 to R90, R104). -/
theorem exec_pixelChunk (px : Pixel) {ce : PixelCache} {s : State} (h : CachesAgree ce s.dec.cache) :
    ∃ len, exec (pixelChunk px s.dec.prev ce) s = produce len px s := by
  unfold pixelChunk
  split
  case isTrue hit => exact ⟨1, congrArg (produce 1 · s) (h.hit (of_decide_eq_true hit))⟩
  case isFalse => exact exec_classify px s

/-- Settles O39: the chunk of a pixel puts it in its slot of both caches; a RUN puts the previous pixel in its slot of the
decoder's alone. -/
theorem cachesStayInStep : Obligations.CachesStayInStep := by
  intro s ce px hroom hagree hprev
  constructor
  · intro _
    obtain ⟨len, e⟩ := exec_pixelChunk px hagree
    obtain ⟨t, ht, ran⟩ := produce_runs len px s hroom
    exact ⟨t, e.trans ht, ran.prev, hagree.put (cacheGet_encCache px ce) ran.slot,
      .inl ((cacheGet_encCache px ce _).trans (if_pos rfl))⟩
  · intro l
    obtain ⟨t, ht, ran⟩ := produce_setRun 1 s.dec.prev l s hroom
    exact ⟨t, ht, ran.prev, hagree.put_prev hprev ran.slot⟩

end Sys2Proof.Machine
end

section
/-! PROOF. The statements of spec/42_encoder.md: VALIDATE's checks (R83), the fetch (R84), the classifier (R90 to R94), LOOP and
TAIL (R85 to R89, R95), the bounds of R96 and what a step depends on (R97). In the middle stands `EncEffect`, which says once
what an encoder turn stores and what it makes of the registers. -/

namespace Sys2Proof.Machine

/-! ### VALIDATE's checks (R83) -/

/-- The first failing check of VALIDATE, in the order of R83. -/
theorem encError_eq (s : State) : encError s =
    if ¬ (1 ≤ s.enc.w.toNat ∧ 1 ≤ s.enc.h.toNat ∧ s.enc.w.toNat * s.enc.h.toNat < s.cfg.pixelsMax) then some .dimension
    else if ¬ (s.enc.ch = 3#8 ∨ s.enc.ch = 4#8) then some .channel
    else if ¬ (s.enc.cs = 0#8 ∨ s.enc.cs = 1#8) then some .colorspace
    else if s.enc.plen ≠ s.enc.w.toNat * s.enc.h.toNat * s.enc.ch.toNat then some .bufferLength
    else none := by
  simp only [encError, fieldError_eq, ne_eq, ite_not]
  split_ifs <;> rfl

/-- VALIDATE with a failing check raises its error (R83, R131). -/
theorem encTurn_raises {s : State} (hp : s.enc.phase = .validate) {e : Err} (he : encError s = some e) :
    encTurn s = .next (raiseEnc e s) := by
  rw [encTurn_validate hp, encValidate, he]

/-- VALIDATE past its checks goes to LOOP if it completes (R83). -/
theorem encTurn_passes {s t : State} (hp : s.enc.phase = .validate) (he : encError s = none) (h : encTurn s = .next t) :
    t.enc.phase = .loop := by
  obtain ⟨e, hfail, -⟩ | ⟨-, -, -, rfl⟩ := encValidate_cases ((encTurn_validate hp).symm.trans h)
  · rw [he] at hfail
    cases hfail
  · rfl

/-- Settles O28: the statement's chain is the model's first failing check. -/
theorem validateReportsFirstFailingCheck : Obligations.ValidateReportsFirstFailingCheck := by
  intro s hp fail
  have raises {e : Err} (he : encError s = some e) : encTurn s = .next (fail e) := encTurn_raises hp he
  have checks := encError_eq s
  split
  case isTrue hd => exact raises (checks.trans (if_pos hd))
  case isFalse hd =>
    rw [if_neg hd] at checks
    split
    case isTrue hc => exact raises (checks.trans (if_pos hc))
    case isFalse hc =>
      rw [if_neg hc] at checks
      split
      case isTrue hs => exact raises (checks.trans (if_pos hs))
      case isFalse hs =>
        rw [if_neg hs] at checks
        split
        case isTrue hl => exact raises (checks.trans (if_pos hl))
        case isFalse hl =>
          rw [if_neg hl] at checks
          intro e h
          cases encTurn_passes hp checks h

/-! ### PIXEL FETCH (R84) -/

/-- PIXEL FETCH of a pixel whose bytes the encoder gets; without a fourth channel alpha is 255. -/
theorem fetchPixel_of_gets {s : State} {i : Nat} {px : Pixel} (h : GetsPixel s .pin (i * s.enc.ch.toNat) s.enc.ch px)
    (ha : s.enc.ch ≠ 4#8 → px.a = 255#8) : fetchPixel i s = .next px := by
  obtain ⟨hr, hg, hb, ha4⟩ := h
  rw [← loadByte_eq_next] at hr hg hb
  simp only [fetchPixel, hr, hg, hb, andThen_next]
  split
  case isTrue h4 => rw [loadByte_eq_next.mpr (ha4 h4), andThen_next]
  case isFalse h4 => rw [← ha h4]

/-- Settles O31: with 3 or 4 channels, the bytes the encoder gets are the pixel's. -/
theorem fetchReadsPixelBytes : Obligations.FetchReadsPixelBytes :=
  fun _ _ _ hch h ha => fetchPixel_of_gets h fun h4 => ha (hch.resolve_right h4)

/-- PIXEL FETCH completes when the bytes it reads are to be had. -/
theorem fetchPixel_completes {s : State} {i : Nat} {px : Pixel}
    (h : GetsPixel s .pin (i * s.enc.ch.toNat) s.enc.ch px) : ∃ px', fetchPixel i s = .next px' := by
  obtain ⟨hr, hg, hb, ha⟩ := h
  by_cases h4 : s.enc.ch = 4#8
  · exact ⟨px, fetchPixel_of_gets ⟨hr, hg, hb, ha⟩ fun hn => absurd h4 hn⟩
  · exact ⟨{ px with a := 255#8 }, fetchPixel_of_gets ⟨hr, hg, hb, fun h => absurd h h4⟩ fun _ => rfl⟩

/-- In LOOP the encoder's turn is the LOOP step (R25). -/
theorem encTurn_loop {s : State} (hp : s.enc.phase = .loop) : encTurn s = encLoop s := by
  simp only [encTurn, hp]

/-- In TAIL the encoder's turn is the TAIL step (R25). -/
theorem encTurn_tail {s : State} (hp : s.enc.phase = .tail) : encTurn s = encTail s := by
  simp only [encTurn, hp]

/-- Settles O36: the placed pixel is fetched, and its bytes fit the capacity of R42, all of it the encoder's to write. -/
theorem encoderLoopStepCompletes : Obligations.EncoderLoopStepCompletes := by
  intro s px hs hclear hp hpx
  obtain ⟨px', hf⟩ := fetchPixel_completes hpx
  rw [encTurn_loop hp]
  exact encLoop_completes hs hclear hp hf

/-! ### CLASSIFY (R90 to R94) -/

/-- The model's wrapped difference is one in the sense of R9. -/
theorem isWrapDelta_channelDelta (c p : Byte) : IsWrapDelta (channelDelta c p) c p := by
  have hmod := channelDelta_dvd c p
  refine ⟨?_, ?_, hmod⟩ <;> (simp only [channelDelta, wrapDelta]; split <;> omega)

/-- A wrapped difference is the model's: two of them differ by less than 256. -/
theorem IsWrapDelta.eq_channelDelta {d : Int} {c p : Byte} (h : IsWrapDelta d c p) : d = channelDelta c p := by
  obtain ⟨h1, h2, hmod⟩ := h
  obtain ⟨k1, k2, kmod⟩ := isWrapDelta_channelDelta c p
  omega

/-- Channels that do not differ modulo 256 are equal. -/
theorem eq_of_isWrapDelta_zero {c p : Byte} (h : IsWrapDelta 0 c p) : c = p := by
  obtain ⟨-, -, hmod⟩ := h
  exact BitVec.eq_of_toNat_eq (by omega)

/-- The DIFF field of a delta in -2 to 1 is the delta plus 2 (R55). -/
theorem diffField_toNat {d : Int} (h : -2 ≤ d ∧ d ≤ 1) : ((diffField d).toNat : Int) = d + 2 := by
  have := diff_back d h.1 h.2
  unfold diffDelta at this
  omega

/-- LUMA's green field of a delta in -32 to 31 is the delta plus 32 (R56). -/
theorem lumaGreenField_toNat {d : Int} (h : -32 ≤ d ∧ d ≤ 31) : ((lumaGreenField d).toNat : Int) = d + 32 := by
  have := green_back d h.1 h.2
  unfold lumaGreen at this
  omega

/-- LUMA's relative field of a delta in -8 to 7 is the delta plus 8 (R56). -/
theorem lumaRelativeField_toNat {d : Int} (h : -8 ≤ d ∧ d ≤ 7) : ((lumaRelativeField d).toNat : Int) = d + 8 := by
  have := rel_back d h.1 h.2
  unfold lumaRelative at this
  omega

/-- The DIFF byte as a number (R55). -/
theorem diffByte_toNat : ∀ r g b : BitVec 2,
    (tagByte 1#2 ((r ++ g : BitVec 4) ++ b)).toNat = 0x40 + r.toNat * 16 + g.toNat * 4 + b.toNat := by decide

/-- LUMA's second byte as a number (R56). -/
theorem lumaByte_toNat : ∀ r b : BitVec 4, (r ++ b : Byte).toNat = r.toNat * 16 + b.toNat := by decide

/-- Settles O34: the statement's deltas are the model's, so its cases are the classifier's branches; the DIFF byte `0x6A` would
mean three deltas of 0 and so an equal pixel. -/
theorem classifierPrefersDiffThenLuma : Obligations.ClassifierPrefersDiffThenLuma := by
  intro px p dr dg db hr hg hb isDiff isLuma
  have er := hr.eq_channelDelta
  have eg := hg.eq_channelDelta
  have eb := hb.eq_channelDelta
  have chosen (ha : px.a = p.a) : classify px p =
      if isDiff then .diff (diffField dr) (diffField dg) (diffField db)
      else if isLuma then .luma (lumaGreenField dg) (lumaRelativeField (dr - dg)) (lumaRelativeField (db - dg))
      else .rgb px.r px.g px.b := by
    simp only [classify, ha, ne_eq, not_true_eq_false, if_false, ← er, ← eg, ← eb, Bool.and_eq_true, within_iff,
      isDiff, isLuma, and_assoc]
  refine ⟨fun ha => ?_, fun ha hd => ?_, fun ha hd hl => ?_, fun ha hd hl => ?_⟩
  · rw [classify, if_pos ha, chunkBytes]
  · rw [chosen ha, if_pos hd]
    obtain ⟨hdr, hdg, hdb⟩ := hd
    have hr2 := diffField_toNat hdr
    have hg2 := diffField_toNat hdg
    have hb2 := diffField_toNat hdb
    have hbyte := diffByte_toNat (diffField dr) (diffField dg) (diffField db)
    refine ⟨_, rfl, by omega, fun hne hzero => hne ?_⟩
    rw [hzero] at hbyte
    simp only [BitVec.toNat_ofNat, Nat.reduceMod, Nat.reducePow] at hbyte
    obtain rfl : dr = 0 := by omega
    obtain rfl : dg = 0 := by omega
    obtain rfl : db = 0 := by omega
    cases px
    cases p
    simp only [Pixel.mk.injEq]
    exact ⟨eq_of_isWrapDelta_zero hr, eq_of_isWrapDelta_zero hg, eq_of_isWrapDelta_zero hb, ha⟩
  · rw [chosen ha, if_neg hd, if_pos hl]
    obtain ⟨hdg, hdr, hdb⟩ := hl
    have hg6 := lumaGreenField_toNat hdg
    have hr4 := lumaRelativeField_toNat hdr
    have hb4 := lumaRelativeField_toNat hdb
    have hfirst := tagByte_toNat 2#2 (lumaGreenField dg)
    have hsecond := lumaByte_toNat (lumaRelativeField (dr - dg)) (lumaRelativeField (db - dg))
    simp only [BitVec.toNat_ofNat, Nat.reduceMod, Nat.reducePow] at hfirst
    exact ⟨_, _, rfl, by omega, by omega⟩
  · rw [chosen ha, if_neg hd, if_neg hl, chunkBytes]

/-! ### What a turn of the encoder stores -/

/-- `s` with bytes stored at an offset of `BOUT` and with new encoder and interface registers. -/
def afterStore (s : State) (off : Nat) (bs : List Byte) (e : Enc) (r : EncRegs) : State :=
  { s with mem := s.mem.writeAll (bufAddr s .bout off) bs, enc := e, encRegs := r }

/-- The bytes have a place in `BOUT`, or there are none (R42). -/
def FitsBout (s : State) (off : Nat) (bs : List Byte) : Prop := bs = [] ∨ off + bs.length ≤ s.bufs.bout.cap

/-- Nothing else changes. -/
theorem afterStore_sameBesideEnc (s : State) (off : Nat) (bs : List Byte) (e : Enc) (r : EncRegs) :
    SameBesideEnc s (afterStore s off bs e r) := ⟨rfl, rfl, rfl, rfl, rfl, rfl, rfl⟩

/-- The bytes are there. -/
theorem afterStore_holds {s : State} {off : Nat} {bs : List Byte} (h : FitsBout s off bs) (e : Enc) (r : EncRegs) :
    HoldsBytes (afterStore s off bs e r) .bout off bs := by
  obtain rfl | h := h
  · exact fun j hj => absurd hj (Nat.not_lt_zero j)
  · exact holdsBytes_writeAll s .bout off bs h

/-- No other byte is written. -/
theorem afterStore_onlyWrote (s : State) (off : Nat) (bs : List Byte) (e : Enc) (r : EncRegs) :
    OnlyWrote s (afterStore s off bs e r) .bout off bs.length := onlyWrote_writeAll rfl

/-- `emit` of bytes that have a place and are free. -/
theorem emit_next {s : State} {bs : List Byte} (h : FitsBout s s.enc.op bs) (hf : FreeAt s .bout s.enc.op bs.length) :
    emit bs s = .next (afterStore s s.enc.op bs { s.enc with op := s.enc.op + bs.length } s.encRegs) := by
  obtain rfl | h := h
  · rfl
  · exact emit_eq bs s h hf

/-- An `emit` that completes did that. -/
theorem emit_eq_afterStore {s t : State} {bs : List Byte} (h : emit bs s = .next t) : FitsBout s s.enc.op bs ∧
    t = afterStore s s.enc.op bs { s.enc with op := s.enc.op + bs.length } s.encRegs :=
  ⟨(emit_fits h).1, emit_eq_next h⟩

/-- LOOP with a repeated pixel that flushes the run is the emission of its RUN byte (R86, R87). -/
theorem encLoop_flushes {s : State} (hf : fetchPixel s.enc.i s = .next s.enc.prev) (hn : flushesNow s.enc) :
    encLoop s = andThen (emit [tagByte 3#2 s.enc.run] s) fun u =>
      .next (nextPixel { u with enc := { u.enc with run := 0#6 } }) := by
  have hrun : s.enc.run + 1#6 - 1#6 = s.enc.run := by simp
  simp only [encLoop, hf, andThen_next, if_true]
  rw [show runExtend s = flush { s with enc := { s.enc with run := s.enc.run + 1#6 } } from if_pos hn]
  simp only [flush, chunkBytes, hrun, emit_run]
  cases emit [tagByte 3#2 s.enc.run] s <;> rfl

/-- LOOP with a repeated pixel that does not flush the run emits nothing (R86). -/
theorem encLoop_extends {s : State} (hf : fetchPixel s.enc.i s = .next s.enc.prev) (hn : ¬ flushesNow s.enc) :
    encLoop s = .next (nextPixel { s with enc := { s.enc with run := s.enc.run + 1#6 } }) := by
  simp only [encLoop, hf, andThen_next, if_true]
  rw [show runExtend s = .next { s with enc := { s.enc with run := s.enc.run + 1#6 } } from if_neg hn, andThen_next]

/-- LOOP with a differing pixel is the emission of the pending bytes and the pixel's own chunk (R88). -/
theorem encLoop_differs {s : State} {px : Pixel} (hf : fetchPixel s.enc.i s = .next px) (hne : px ≠ s.enc.prev) :
    encLoop s = andThen (emit (pendingBytes s.enc.run ++ chunkBytes (pixelChunk px s.enc.prev s.enc.cache)) s) fun u =>
      .next (nextPixel { u with enc := { u.enc with run := 0#6, cache := encCache px s.enc.cache, prev := px } }) := by
  simp only [encLoop, hf, andThen_next, if_neg hne, differingPixel_eq]
  cases emit (pendingBytes s.enc.run ++ chunkBytes (pixelChunk px s.enc.prev s.enc.cache)) s <;> rfl

/-- TAIL is the emission of the pending bytes and the end marker (R95). -/
theorem encTail_eq (s : State) : encTail s = andThen (emit (pendingBytes s.enc.run ++ endMarker) s) fun u =>
    .next { u with
      encRegs := { u.encRegs with outLen := u.enc.op }, enc := { u.enc with run := 0#6, phase := .done, err := none } } := by
  simp only [encTail, flushPending_eq, ← emit_append]
  cases emit (pendingBytes s.enc.run) s with
  | fault r => rfl
  | refused r => rfl
  | next t =>
    simp only [andThen_next]
    rw [emit_run]
    cases emit endMarker t <;> rfl

/-- What a turn of the encoder does: the bytes it stores, at which offset of `BOUT`, and the encoder and interface registers
it leaves. One case for each way through R83, R86, R88 and R95, and one for an encoder that is not busy. -/
inductive EncEffect (s : State) : Nat → List Byte → Enc → EncRegs → Prop where
  | idle (hb : encBusy s = false) : EncEffect s s.enc.op [] s.enc s.encRegs
  | failed (e : Err) (hp : s.enc.phase = .validate) (he : encError s = some e) :
      EncEffect s 0 [] { s.enc with phase := .error, err := some e } s.encRegs
  | header (hp : s.enc.phase = .validate) (he : encError s = none)
      (hc : encCapacity s.enc.w s.enc.h s.enc.ch ≤ s.bufs.bout.cap) :
      EncEffect s 0 (headerBytes s.cfg.magic s.enc.w s.enc.h s.enc.ch s.enc.cs)
        { (setUpEnc s).enc with op := 14, phase := .loop } s.encRegs
  | extended (hp : s.enc.phase = .loop) (hf : fetchPixel s.enc.i s = .next s.enc.prev) (hn : ¬ flushesNow s.enc) :
      EncEffect s s.enc.op [] { s.enc with run := s.enc.run + 1#6, i := s.enc.i + 1 } s.encRegs
  | flushed (hp : s.enc.phase = .loop) (hf : fetchPixel s.enc.i s = .next s.enc.prev) (hn : flushesNow s.enc) :
      EncEffect s s.enc.op [tagByte 3#2 s.enc.run]
        { s.enc with
          run := 0#6, op := s.enc.op + 1, i := s.enc.i + 1, phase := if s.enc.i + 1 = s.enc.n then .tail else .loop }
        s.encRegs
  | differed (px : Pixel) (hp : s.enc.phase = .loop) (hf : fetchPixel s.enc.i s = .next px) (hne : px ≠ s.enc.prev) :
      EncEffect s s.enc.op (pendingBytes s.enc.run ++ chunkBytes (pixelChunk px s.enc.prev s.enc.cache))
        { s.enc with
          run := 0#6, prev := px, cache := encCache px s.enc.cache, i := s.enc.i + 1,
          op := s.enc.op + (pendingBytes s.enc.run ++ chunkBytes (pixelChunk px s.enc.prev s.enc.cache)).length,
          phase := if s.enc.i + 1 = s.enc.n then .tail else .loop }
        s.encRegs
  | ended (hp : s.enc.phase = .tail) :
      EncEffect s s.enc.op (pendingBytes s.enc.run ++ endMarker)
        { s.enc with
          run := 0#6, op := s.enc.op + (pendingBytes s.enc.run ++ endMarker).length, phase := .done, err := none }
        { s.encRegs with outLen := s.enc.op + (pendingBytes s.enc.run ++ endMarker).length }

/-- A turn whose bytes have a place and are free completes with its effect. -/
theorem EncEffect.runs {s : State} {off : Nat} {bs : List Byte} {e : Enc} {r : EncRegs} (h : EncEffect s off bs e r)
    (hfit : FitsBout s off bs) (hfree : FreeAt s .bout off bs.length) : encTurn s = .next (afterStore s off bs e r) := by
  cases h with
  | idle hb => exact encTurn_idle hb
  | failed e hp he => exact encTurn_raises hp he
  | header hp he hc => exact (encTurn_validate hp).trans (encValidate_next he hc (by rwa [headerBytes_length] at hfree))
  | extended hp hf hn =>
    rw [encTurn_loop hp, encLoop_extends hf hn]
    simp only [nextPixel, if_neg (not_or.mp hn).2]
    rfl
  | flushed hp hf hn =>
    rw [encTurn_loop hp, encLoop_flushes hf hn, emit_next hfit hfree, ← hp]
    rfl
  | differed px hp hf hne =>
    rw [encTurn_loop hp, encLoop_differs hf hne, emit_next hfit hfree, ← hp]
    rfl
  | ended hp =>
    rw [encTurn_tail hp, encTail_eq, emit_next hfit hfree]
    rfl

/-- A turn that completes has one of the effects, its bytes with a place. -/
theorem encTurn_effect {s t : State} (h : encTurn s = .next t) :
    ∃ off bs e r, EncEffect s off bs e r ∧ FitsBout s off bs ∧ t = afterStore s off bs e r := by
  obtain hb | hb := (Bool.eq_false_or_eq_true (encBusy s)).symm
  · exact ⟨_, _, _, _, .idle hb, .inl rfl, (Host.Outcome.next.inj ((encTurn_idle hb).symm.trans h)).symm⟩
  obtain hp | hp | hp := encBusy_iff.mp hb
  · obtain ⟨e, he, rfl⟩ | ⟨he, hc, -, rfl⟩ := encValidate_cases ((encTurn_validate hp).symm.trans h)
    · exact ⟨_, _, _, _, .failed e hp he, .inl rfl, rfl⟩
    · refine ⟨_, _, _, _, .header hp he hc, .inr ?_, rfl⟩
      unfold encCapacity at hc
      rw [headerBytes_length]
      omega
  · obtain ⟨px, hf, ⟨rfl, hn, rfl⟩ | ⟨rfl, hn, u, hu, rfl⟩ | ⟨hne, u, hu, rfl⟩⟩ :=
      encLoop_cases ((encTurn_loop hp).symm.trans h)
    · refine ⟨_, _, _, _, .extended hp hf hn, .inl rfl, ?_⟩
      simp only [nextPixel, if_neg (not_or.mp hn).2]
      rfl
    · obtain ⟨hfit, rfl⟩ := emit_eq_afterStore hu
      refine ⟨_, _, _, _, .flushed hp hf hn, hfit, ?_⟩
      rw [← hp]
      rfl
    · obtain ⟨hfit, rfl⟩ := emit_eq_afterStore hu
      refine ⟨_, _, _, _, .differed px hp hf hne, hfit, ?_⟩
      rw [← hp]
      rfl
  · obtain ⟨u, hu, rfl⟩ := encTail_cases ((encTurn_tail hp).symm.trans h)
    obtain ⟨hfit, rfl⟩ := emit_eq_afterStore hu
    exact ⟨_, _, _, _, .ended hp, hfit, rfl⟩

/-! ### LOOP (R85 to R89) -/

/-- The pending bytes, by the run as a number. -/
theorem pendingBytes_eq (run : BitVec 6) :
    pendingBytes run = if run.toNat = 0 then [] else [BitVec.ofNat 8 (0xC0 + (run.toNat - 1))] :=
  if_congr (BitVec.toNat_eq.trans Iff.rfl) rfl rfl

/-- Settles O32: below the register's width the run grows by one, and it flushes as `flushesNow` says. -/
theorem repeatedPixelExtendsRun : Obligations.RepeatedPixelExtendsRun := by
  intro s hp hshort hf
  have hsucc := run_succ hshort
  have hflush : flushesNow s.enc ↔ s.enc.run.toNat + 1 = 62 ∨ s.enc.i + 1 = s.enc.n := by rw [flushesNow, hsucc]
  refine ⟨fun hlong hlast => ⟨?_, hsucc⟩, fun hn hroom hfree => ?_⟩
  · have hn : ¬ flushesNow s.enc := fun h => (hflush.mp h).elim hlong hlast
    exact (EncEffect.extended hp hf hn).runs (.inl rfl) fun j hj => absurd hj (Nat.not_lt_zero j)
  · have hfit : FitsBout s s.enc.op [tagByte 3#2 s.enc.run] := .inr hroom
    refine ⟨_, (EncEffect.flushed hp hf (hflush.mpr hn)).runs hfit hfree, afterStore_sameBesideEnc .., rfl, rfl, ?_,
      afterStore_onlyWrote _ _ _ _ _⟩
    rw [← runByte_eq]
    exact afterStore_holds hfit _ _

/-- An INDEX byte as a number (R54, R89). -/
theorem indexByte_eq : ∀ f : BitVec 6, tagByte 0#2 f = BitVec.ofNat 8 f.toNat := by decide

/-- A pixel that stands in its slot goes out as INDEX (R77, R89). -/
theorem pixelChunk_hit {px : Pixel} {c : PixelCache} (h : cacheGet c (hash px) = px) (p : Pixel) :
    pixelChunk px p c = .index (hash px) := if_pos (decide_eq_true h)

/-- A pixel that does not stand in its slot goes out as CLASSIFY's chunk (R77, R90). -/
theorem pixelChunk_miss {px : Pixel} {c : PixelCache} (h : ¬ cacheGet c (hash px) = px) (p : Pixel) :
    pixelChunk px p c = classify px p := if_neg (mt of_decide_eq_true h)

/-- Settles O33: the own bytes are the chunk's of INDEX on a hit and of CLASSIFY on a miss, and the cache is written on a miss
only. -/
theorem differingPixelEmitsItsChunk : Obligations.DifferingPixelEmitsItsChunk := by
  intro s px hp hf hne pending hit own hown hmiss hroom hfree
  have hpending : pendingBytes s.enc.run = pending := pendingBytes_eq _
  have hchunk : chunkBytes (pixelChunk px s.enc.prev s.enc.cache) = own := by
    by_cases h : hit
    · rw [hown h, pixelChunk_hit h, chunkBytes, indexByte_eq]
    · rw [hmiss h, pixelChunk_miss h]
  have effect := EncEffect.differed px hp hf hne
  rw [hpending, hchunk] at effect
  refine ⟨_, effect.runs (.inr hroom) hfree, afterStore_sameBesideEnc .., rfl, rfl, afterStore_holds (.inr hroom) _ _,
    afterStore_onlyWrote _ _ _ _ _, fun h => if_pos (decide_eq_true h), fun _ => cacheGet_encCache px s.enc.cache⟩

/-! ### TAIL (R95) -/

/-- Settles O35: TAIL is one emission, of the pending bytes and the end marker. -/
theorem tailWritesEndMarker : Obligations.TailWritesEndMarker := by
  intro s hp bytes hroom hfree
  have hbytes : pendingBytes s.enc.run ++ endMarker = bytes := congrArg (· ++ endMarker) (pendingBytes_eq _)
  have effect := EncEffect.ended hp
  rw [hbytes] at effect
  exact ⟨_, effect.runs (.inr hroom) hfree, afterStore_sameBesideEnc .., rfl, rfl, afterStore_holds (.inr hroom) _ _,
    afterStore_onlyWrote _ _ _ _ _⟩

/-! ### What a step depends on (R97) -/

/-- Two states that agree on all R97 lets an encoder step depend on. -/
structure EncAgrees (s u : State) : Prop where
  enc : s.enc = u.enc
  encRegs : s.encRegs = u.encRegs
  cfg : s.cfg = u.cfg
  cap : s.bufs.bout.cap = u.bufs.bout.cap
  input : ∀ off, off < s.enc.plen → inputByte s .pin off = inputByte u .pin off

/-- The bytes of a pixel that is still to be coded lie below the latched length (R83, R84). -/
theorem pixel_below_plen {s : State} (h : Sound s) (hp : s.enc.phase = .loop) {j : Nat} (hj : j < s.enc.ch.toNat) :
    s.enc.i * s.enc.ch.toNat + j < s.enc.plen := by
  have r := h.enc.running (.inl hp)
  have hle : (s.enc.i + 1) * s.enc.ch.toNat ≤ s.enc.n * s.enc.ch.toNat := Nat.mul_le_mul_right _ (h.enc.inLoop hp)
  rw [(encError_none r.checked).2, ← r.count]
  rw [Nat.succ_mul] at hle
  omega

/-- A state that agrees fetches the same pixel. -/
theorem EncAgrees.fetchPixel {s u : State} (a : EncAgrees s u) (h : Sound s) (hp : s.enc.phase = .loop) {px : Pixel}
    (hf : fetchPixel s.enc.i s = .next px) : fetchPixel u.enc.i u = .next px := by
  obtain ⟨⟨hr, hg, hb, ha⟩, hopaque⟩ := fetchPixel_cases hf
  obtain ⟨-, -, hch⟩ := fieldError_ch (encError_none (h.enc.running (.inl hp)).checked).1
  have same (j : Nat) (hj : j < s.enc.ch.toNat) {v : Byte} (hv : inputByte s .pin (s.enc.i * s.enc.ch.toNat + j) = some v) :
      inputByte u .pin (u.enc.i * u.enc.ch.toNat + j) = some v := by
    rw [← a.enc, ← a.input _ (pixel_below_plen h hp hj), hv]
  refine fetchPixel_of_gets ⟨same 0 (by omega) hr, same 1 (by omega) hg, same 2 (by omega) hb, fun h4 => ?_⟩ ?_
  · rw [← a.enc] at h4
    exact same 3 (by rw [h4]; decide) (ha h4)
  · rw [← a.enc]
    exact hopaque

/-- A state that agrees has the same effect. -/
theorem EncEffect.agrees {s u : State} {off : Nat} {bs : List Byte} {e : Enc} {r : EncRegs} (p : EncEffect s off bs e r)
    (a : EncAgrees s u) (h : Sound s) : EncEffect u off bs e r := by
  have fetch (hp : s.enc.phase = .loop) {px : Pixel} := a.fetchPixel h hp (px := px)
  obtain ⟨enc, encRegs, cfg, cap, -⟩ := a
  obtain ⟨ucfg, uenc, udec, uencRegs, udecRegs, ubufs, umem, uscript, urdata, ufree⟩ := u
  dsimp only at enc encRegs cfg cap
  subst enc encRegs cfg
  cases p with
  | idle hb => exact .idle hb
  | failed e hp he => exact .failed e hp he
  | header hp he hc => exact .header hp he (hc.trans cap.le)
  | extended hp hf hn => exact .extended hp (fetch hp hf) hn
  | flushed hp hf hn => exact .flushed hp (fetch hp hf) hn
  | differed px hp hf hne => exact .differed px hp (fetch hp hf) hne
  | ended hp => exact .ended hp

/-- A pixel coded leaves LOOP or TAIL (R85). -/
theorem loopPhase_ne_error (last : Prop) [Decidable last] : (if last then EncPhase.tail else .loop) ≠ .error := by
  split <;> nofun

/-- Where a turn stores, and how many bytes: the header from offset 0, all others from the write position up to the new one,
and none when an error is raised. -/
theorem EncEffect.extent {s : State} {off : Nat} {bs : List Byte} {e : Enc} {r : EncRegs} (p : EncEffect s off bs e r) :
    off = (if s.enc.phase = .validate then 0 else s.enc.op) ∧
      bs.length = if e.phase = .error then 0 else e.op - off := by
  cases p with
  | idle hb =>
    have hp : s.enc.phase ≠ .validate := fun hp => by
      rw [encBusy_iff.mpr (.inl hp)] at hb
      cases hb
    simp [hp]
  | failed e hp he => simp [hp]
  | header hp he hc => simp [hp, headerBytes_length]
  | extended hp hf hn => simp [hp]
  | flushed hp hf hn => simp [hp, loopPhase_ne_error]
  | differed px hp hf hne => simp [hp, loopPhase_ne_error]
  | ended hp => simp [hp]

/-- Settles O37: the effect of a turn is fixed by what the two states agree on, and a clear `BOUT` of the same capacity takes
the same bytes. -/
theorem encoderDependsOnlyOnInput : Obligations.EncoderDependsOnlyOnInput := by
  intro s u t hs henc hregs hcfg hcap hclear hinput ht start count
  obtain ⟨off, bs, e, r, p, hfit, rfl⟩ := encTurn_effect ht
  obtain ⟨rfl, hlen⟩ := p.extent
  have hfit' : FitsBout u start bs := hfit.imp_right fun h => h.trans hcap.le
  have hfree : FreeAt u .bout start bs.length := by
    obtain rfl | h := hfit'
    · exact fun j hj => absurd hj (Nat.not_lt_zero j)
    · exact hclear.free h
  have hcount : bs.length = count := hlen
  refine ⟨_, (p.agrees ⟨henc, hregs, hcfg, hcap, hinput⟩ hs).runs hfit' hfree, rfl, rfl, ?_, ?_, bs, hcount,
    afterStore_holds hfit e r, afterStore_holds hfit' e r⟩
  · exact hcount ▸ afterStore_onlyWrote s start bs e r
  · exact hcount ▸ afterStore_onlyWrote u start bs e r

/-! ### No step from a sound state faults (R96, R111) -/

/-- What completes does not fault. -/
theorem next_ne_fault {α : Type} (a : α) (r : Fault) : (.next a : Result α) ≠ .fault r := nofun

/-- A sequence with a first part that never faults faults only in its second. -/
theorem andThen_no_fault {α β : Type} {x : Result α} {f : α → Result β} {r : Fault} (hx : x ≠ .fault r)
    (hf : ∀ a, x = .next a → f a ≠ .fault r) : andThen x f ≠ .fault r := fun h =>
  (andThen_eq_fault.mp h).elim hx fun ⟨a, ha, h⟩ => hf a ha h

/-- VALIDATE never faults: the header fits the capacity of R42. -/
theorem encValidate_no_fault (s : State) (r : Fault) : encValidate s ≠ .fault r := by
  unfold encValidate
  split
  · nofun
  · split
    · nofun
    · rename_i hc
      refine andThen_no_fault (andThen_no_fault (storeBytes_no_fault r ?_) fun _ _ => next_ne_fault _ r)
        fun _ _ => next_ne_fault _ r
      rw [headerBytes_length]
      unfold encCapacity at hc
      show 0 + 14 ≤ s.bufs.bout.cap
      omega

/-- LOOP of a sound encoder never faults: what it emits fits (R96). -/
theorem encLoop_no_fault {s : State} (h : Sound s) (hp : s.enc.phase = .loop) (r : Fault) : encLoop s ≠ .fault r := by
  intro hfault
  obtain hf | ⟨px, hf, -⟩ := andThen_eq_fault.mp hfault
  · exact fetchPixel_no_fault _ _ _ hf
  · obtain ⟨e, he, -⟩ | ⟨bs, g, hfit, he, -⟩ := encLoop_emits h hp hf
    · rw [he] at hfault
      cases hfault
    · rw [he] at hfault
      exact andThen_no_fault (emit_no_fault r hfit) (fun _ _ => next_ne_fault _ r) hfault

/-- TAIL of a sound encoder never faults: the end marker fits (R96). -/
theorem encTail_no_fault {s : State} (h : Sound s) (hp : s.enc.phase = .tail) (r : Fault) : encTail s ≠ .fault r := by
  obtain ⟨hfit, he⟩ := encTail_emits h hp
  rw [he]
  exact andThen_no_fault (emit_no_fault r hfit) fun _ _ => next_ne_fault _ r

/-- The encoder's turn from a sound state never faults. -/
theorem encTurn_no_fault {s : State} (h : Sound s) (r : Fault) : encTurn s ≠ .fault r := by
  unfold encTurn
  split
  case h_2 => exact encValidate_no_fault s r
  case h_3 hp => exact encLoop_no_fault h hp r
  case h_4 hp => exact encTail_no_fault h hp r
  all_goals nofun

/-- HEADER never faults: it stores nothing. -/
theorem decHeader_no_fault (s : State) (r : Fault) : decHeader s ≠ .fault r := by
  unfold decHeader
  split
  · nofun
  · refine andThen_no_fault (loadBytes_no_fault _ _ _ _ _) fun bs _ => ?_
    split
    · nofun
    · split <;> nofun

/-- LOOP of a decoder whose next pixel fits never faults (R111). -/
theorem decLoop_no_fault {s : State} (h : PixelFits s) (r : Fault) : decLoop s ≠ .fault r := by
  unfold decLoop
  split
  · exact replay_no_fault r h
  · split
    · refine andThen_no_fault (fetchChunk_no_fault s r) fun i hi => ?_
      obtain ⟨_, _, -, -, -, hchunk⟩ := fetchChunk_cases hi
      exact exec_chunk_no_fault hchunk h r
    · nofun

/-- The decoder's turn from a sound state never faults. -/
theorem decTurn_no_fault {s : State} (h : Sound s) (r : Fault) : decTurn s ≠ .fault r := by
  unfold decTurn
  split
  case h_2 => exact decHeader_no_fault s r
  case h_3 hp => exact decLoop_no_fault (fits_of_sound h hp) r
  all_goals nofun

/-- A START never faults: it is ignored, taken or refused. -/
theorem start_no_fault {busy placed : Bool} {s t : State} {q : Refusal} {r : Fault} :
    (if busy then .next s else if placed then .next t else .refused q : Result State) ≠ .fault r := by
  cases busy
  · cases placed <;> nofun
  · nofun

/-- A control write never faults. -/
theorem command_no_fault (reg : CtrlReg) (v : Word) (s : State) (r : Fault) : command reg v s ≠ .fault r := by
  cases reg
  · rw [command_enc]
    split
    · exact start_no_fault
    · nofun
  · rw [command_dec]
    split
    · exact start_no_fault
    · nofun

/-- A register write never faults. -/
theorem writeReg_no_fault (w : RegWrite) (s : State) (r : Fault) : writeReg w s ≠ .fault r := by
  cases w
  case encCtrl v => exact command_no_fault .enc v s r
  case decCtrl v => exact command_no_fault .dec v s r
  all_goals nofun

/-- A host access never faults: what the host may not do is refused. -/
theorem hostTurn_no_fault (a : HostAccess) (s : State) (r : Fault) : hostTurn a s ≠ .fault r := by
  cases a with
  | write w => exact writeReg_no_fault w s r
  | writeAt a v =>
    simp only [hostTurn, hostWriteAt, writeNumber]
    split
    · nofun
    · split
      · exact writeReg_no_fault _ s r
      · nofun
  | readAt a => simp only [hostTurn, hostReadAt]; split <;> nofun
  | storeByte b off v => simp only [hostTurn, hostStore]; split_ifs <;> nofun
  | loadByte b off =>
    simp only [hostTurn, hostLoad]
    split
    · split <;> nofun
    · nofun
  | place b p => simp only [hostTurn, hostPlace]; split <;> nofun
  | read | hardReset => nofun

/-- Settles O44: a step is a turn of an engine or of the host, and none of them faults from a sound state. -/
theorem noSoundStepFaults : Obligations.NoSoundStepFaults := by
  rintro s h ⟨r, hfault⟩
  revert hfault
  unfold step takeTurn
  split
  · unfold idleTurn
    split
    · exact decTurn_no_fault h r
    · exact encTurn_no_fault h r
  · exact encTurn_no_fault (h.withScript _) r
  · exact decTurn_no_fault (h.withScript _) r
  · exact hostTurn_no_fault _ _ r

/-! ### The length at DONE (R96) -/

/-- Settles O46: the state after the step is sound, and a sound encoder in DONE reports a length within the bounds. -/
theorem outputLengthIsBounded : Obligations.OutputLengthIsBounded := by
  intro s t h hstep hdone
  obtain ⟨hout, -, hcount, -, hleast, hmost⟩ := (everyStepKeepsSound s t h hstep).enc.atDone hdone
  rw [hout, hcount]
  exact ⟨hleast, hmost⟩

end Sys2Proof.Machine
end

section
/-! PROOF. The statements of spec/43_decoder.md but the round trip: each chunk (R104 to R109), the step that reads one (R101,
R103), RUN and its replays (R102, R107), the missing chunk (R113), one pixel a step (R111, R112) and what a step depends on
(R114, R116). First each chunk's length, pixel and replays as functions, then the steps, then rows of pixels. -/

namespace Sys2Proof.Machine

/-! ### Each chunk, by its length, its pixel and its replays (R104 to R109) -/

/-- The pixel a chunk yields after the previous pixel `p` and with the cache `c`. -/
def chunkPixel (i : Instr) (p : Pixel) (c : PixelCache) : Pixel :=
  match i with
  | .index slot => cacheGet c slot
  | .diff r g b => diffPixel r g b p
  | .luma g r b => lumaPixel g r b p
  | .run _ => p
  | .rgb r g b => ⟨r, g, b, p.a⟩
  | .rgba r g b a => ⟨r, g, b, a⟩
  | .encStart _ => p
  | .decStart _ => p

/-- The replays owed after a chunk, when `r` were owed before it. -/
def chunkOwes (i : Instr) (r : BitVec 6) : BitVec 6 :=
  match i with
  | .run l => l
  | _ => r

/-- A chunk is the production of its pixel, by as many bytes as its encoding has, with its replays owed. -/
theorem exec_eq_produce {i : Instr} (hi : isChunk i = true) (s : State) : exec i s =
    produce (chunkBytes i).length (chunkPixel i s.dec.prev s.dec.cache) (setRun (chunkOwes i s.dec.run) s) := by
  cases i with
  | encStart | decStart => simp [isChunk] at hi
  | _ => rfl

/-- A chunk with room for its pixel runs: everything it does. -/
theorem exec_runs {i : Instr} (hi : isChunk i = true) {s : State} (hr : RoomForPixel s) : ∃ t, exec i s = .next t ∧
    ChunkRan s t (chunkBytes i).length (chunkOwes i s.dec.run) (chunkPixel i s.dec.prev s.dec.cache) :=
  exec_eq_produce hi s ▸ produce_setRun _ _ _ s hr

/-- A channel after a delta, as a number modulo 256 (R62). -/
theorem addDelta_toNat (c : Byte) (d : Int) : ((addDelta c d).toNat : Int) = (c.toNat + d) % 256 := by
  simp only [addDelta, BitVec.toNat_ofInt]
  omega

/-- Settles O9: the pixel of an INDEX chunk is its slot's. -/
theorem indexYieldsSlotPixel : Obligations.IndexYieldsSlotPixel :=
  fun _ slot h => exec_runs (i := .index slot) rfl h

/-- Settles O10: each field, less its bias, is the delta of its channel. -/
theorem diffAddsBiasedDeltas : Obligations.DiffAddsBiasedDeltas := by
  intro s r g b h
  obtain ⟨t, ht, ran⟩ := exec_runs (i := .diff r g b) rfl h
  refine ⟨t, _, ht, ran, ?_, ?_, ?_, rfl⟩ <;>
    (simp only [chunkPixel, diffPixel, addDelta_toNat, diffDelta]; omega)

/-- Settles O11: the green delta is added to every channel, the relative ones to red and blue on top of it. -/
theorem lumaAddsRelativeDeltas : Obligations.LumaAddsRelativeDeltas := by
  intro s g r b h
  obtain ⟨t, ht, ran⟩ := exec_runs (i := .luma g r b) rfl h
  refine ⟨t, _, ht, ran, ?_, ?_, ?_, rfl⟩ <;> simp only [chunkPixel, lumaPixel, addDelta_toNat, lumaGreen, lumaRelative]
  · omega
  · omega

/-- Settles O12: the pixel of a RUN chunk is the previous one, and its field is the number of replays. -/
theorem runRepeatsPreviousPixel : Obligations.RunRepeatsPreviousPixel :=
  fun _ l h => exec_runs (i := .run l) rfl h

/-- Settles O13: an RGB chunk's pixel has the operand bytes and the previous alpha. -/
theorem rgbKeepsPreviousAlpha : Obligations.RgbKeepsPreviousAlpha :=
  fun _ r g b h => exec_runs (i := .rgb r g b) rfl h

/-- Settles O14: an RGBA chunk's pixel is its operand bytes. -/
theorem rgbaSetsAllChannels : Obligations.RgbaSetsAllChannels :=
  fun _ r g b a h => exec_runs (i := .rgba r g b a) rfl h

/-- Settles O38: the classifier's chunk is the production of the classified pixel. -/
theorem classifiedChunkYieldsThePixel : Obligations.ClassifiedChunkYieldsThePixel := by
  intro s px hroom
  obtain ⟨len, e⟩ := exec_classify px s
  obtain ⟨t, ht, ran⟩ := produce_runs len px s hroom
  exact ⟨t, e.trans ht, ran.prev⟩

/-! ### A pixel without room (R42, R49) -/

/-- Offsets none of which is the busy encoder's are free for the decoder. -/
theorem freeAt_pout {s : State} {off n : Nat}
    (h : ∀ o, off ≤ o → o < off + n → ¬ encOwns s (bufAddr s .pout o) = true) : FreeAt s .pout off n :=
  fun j hj => Bool.eq_false_iff.mpr (h (off + j) (by omega) (by omega))

/-- Settles O15: a chunk is the production of one pixel, which completes, faults or is refused by its first byte that cannot
be stored. -/
theorem chunkWithoutRoomFaults : Obligations.ChunkWithoutRoomFaults := by
  intro s i hi first cap size owned
  have free {n : Nat} (h : ∀ off, first ≤ off → off < first + n → ¬ owned off) : FreeAt s .pout first n :=
    freeAt_pout fun o h1 h2 ho => h o h1 h2 (encOwns_iff.mp ho)
  refine ⟨fun hfit hown => ?_, fun hcap hown => ?_, fun o h1 h2 hc ho hown => ?_⟩
  · obtain ⟨t, ht, -⟩ := exec_runs hi (s := s) ⟨hfit, free hown⟩
    exact ⟨t, ht⟩
  · rw [exec_eq_produce hi]
    have hfree : FreeAt s .pout first (cap - first) := free fun off h1 h2 => hown off h1 (by omega)
    exact produce_fault _ _ (setRun _ s) (Nat.not_le.mpr hcap) hfree
  · rw [exec_eq_produce hi]
    have hfree : FreeAt s .pout first (o - first) := free fun off h1 h2 => hown off h1 (by omega)
    exact produce_refused _ _ (setRun _ s) h1 h2 hc hfree (encOwns_iff.mpr ho)

/-! ### The LOOP step (R101, R102, R113) -/

/-- In LOOP the decoder's turn is the LOOP step (R25). -/
theorem decTurn_loop {s : State} (hp : s.dec.phase = .loop) : decTurn s = decLoop s := by
  simp only [decTurn, hp]

/-- With replays owed the decoder's turn in LOOP is REPLAY (R102). -/
theorem decTurn_replay {s : State} (hp : s.dec.phase = .loop) (hr : s.dec.run ≠ 0#6) : decTurn s = replay s :=
  (decTurn_loop hp).trans (if_pos hr)

/-- A chunk whose bytes the decoder gets at `d.ip` is fetched as itself (R101, R103). -/
theorem fetchChunk_of_gets {s : State} {i : Instr} (hi : isChunk i = true) (hw : i.wf = true)
    (hb : GetsBytes s .bin s.dec.ip (chunkBytes i)) : fetchChunk s = .next i := by
  obtain ⟨b0, operands, e, hl⟩ := chunkBytes_length i hi hw
  exact fetchChunk_eq s b0 operands i [] hl (e ▸ hb) (decode_of_chunkBytes_eq hi hw e)

/-- With no replay owed and a chunk's bytes at `d.ip` the decoder's turn in LOOP is the chunk (R101). -/
theorem decTurn_chunk {s : State} {i : Instr} (hi : isChunk i = true) (hw : i.wf = true) (hp : s.dec.phase = .loop)
    (hr : s.dec.run = 0#6) (hip : s.dec.ip < s.dec.stop) (hb : GetsBytes s .bin s.dec.ip (chunkBytes i)) :
    decTurn s = exec i s := by
  rw [decTurn_loop hp, decLoop, if_neg (not_not.mpr hr), if_pos hip, fetchChunk_of_gets hi hw hb, andThen_next]

/-- Settles O7: the chunk is fetched whatever turns follow, and with none left the busy decoder steps. -/
theorem stepRunsFetchedChunk : Obligations.StepRunsFetchedChunk := by
  intro s i hi hw hp hr hip hb
  constructor
  · intro rest hs
    simp only [step, takeTurn, hs]
    exact decTurn_chunk (s := { s with script := rest }) hi hw hp hr hip hb
  · intro hs
    rw [step_decoder hs (decBusy_iff.mpr (.inr hp)), decTurn_chunk hi hw hp hr hip hb]

/-- Settles O24: REPLAY with room puts out the previous pixel and counts it off. -/
theorem replayReemitsPreviousPixel : Obligations.ReplayReemitsPreviousPixel := by
  intro s hp hr hroom
  obtain ⟨t, ht, out, hip, hrun, hprev, hcache⟩ := replay_runs s hroom
  exact ⟨t, (decTurn_replay hp hr).trans ht, out, by rw [hrun, run_pred hr], hip, hprev, hcache⟩

/-- Settles O25: no bit of STATUS but STATE 3 and the code 7 is set. -/
theorem missingChunkIsIncomplete : Obligations.MissingChunkIsIncomplete :=
  fun s hp hr hip => ⟨_, decTurn_missing hp hr hip, rfl,
    by rw [decStatus, raiseDec_dec_phase, raiseDec_dec_err]; decide, poutFreed_raiseDec _ s⟩

/-- A pixel out of LOOP leaves DONE exactly when it was the last (R112). -/
theorem PixelOut.done_iff {s t : State} {px : Pixel} (o : PixelOut s t px) (hp : s.dec.phase = .loop) :
    t.dec.phase = .done ↔ s.dec.k + 1 = s.dec.n := by
  refine ⟨fun hd => ?_, fun hlast => (o.last hlast).1⟩
  by_contra hne
  rw [(o.more hne).1, hp] at hd
  cases hd

/-- Settles O26: a replay puts out the previous pixel and keeps it, a chunk puts out the pixel it makes the previous one. -/
theorem loopStepProducesOnePixelOrFails : Obligations.LoopStepProducesOnePixelOrFails := by
  intro s t hp h
  obtain ⟨-, -, out, -, -, hprev, -⟩ | ⟨-, -, -, _, _, px, -, -, ran⟩ | ⟨hr, hip, rfl⟩ :=
    decLoop_cases ((decTurn_loop hp).symm.trans h)
  · exact .inl ⟨out.counted, hprev ▸ out, out.done_iff hp⟩
  · exact .inl ⟨ran.out.counted, ran.prev ▸ ran.out, ran.out.done_iff hp⟩
  · exact .inr ⟨hr, hip, rfl, rfl, rfl⟩

/-! ### What a step depends on (R114, R116) -/

/-- The decoder after a pixel is out, but for what the pixel's own step makes of `d.ip`, `d.run`, `d.prev` and the cache. -/
theorem PixelOut.dec_eq {s t : State} {px : Pixel} (o : PixelOut s t px) : t.dec =
    ⟨if s.dec.k + 1 = s.dec.n then .done else s.dec.phase, if s.dec.k + 1 = s.dec.n then none else s.dec.err,
      s.dec.len, s.dec.w, s.dec.h, s.dec.ch, s.dec.cs, s.dec.n, s.dec.stop, t.dec.ip, s.dec.k + 1, t.dec.prev, t.dec.run,
      t.dec.cache⟩ := by
  obtain ⟨hlen, hw, hh, hch, hcs, hn, hstop, -⟩ := o.latched
  have hk := o.counted
  have hphase : t.dec.phase = if s.dec.k + 1 = s.dec.n then .done else s.dec.phase := by
    split
    case isTrue hl => exact (o.last hl).1
    case isFalse hl => exact (o.more hl).1
  have herr : t.dec.err = if s.dec.k + 1 = s.dec.n then none else s.dec.err := by
    split
    case isTrue hl => exact (o.last hl).2.1
    case isFalse hl => exact (o.more hl).2.1
  rw [← hphase, ← herr, ← hlen, ← hw, ← hh, ← hch, ← hcs, ← hn, ← hstop, ← hk]

/-- The result registers after a pixel is out. -/
theorem PixelOut.decRegs_eq {s t : State} {px : Pixel} (o : PixelOut s t px) : t.decRegs =
    if s.dec.k + 1 = s.dec.n then
      ⟨s.decRegs.inLen, s.dec.w, s.dec.h, s.dec.ch, s.dec.cs, s.dec.n * s.dec.ch.toNat⟩
    else s.decRegs := by
  split
  case isFalse hl => exact (o.more hl).2.2
  case isTrue hl =>
    obtain ⟨-, -, hw, hh, hch, hcs, hout⟩ := o.last hl
    obtain ⟨-, -, -, -, -, -, -, hin⟩ := o.latched
    rw [← hout, ← hin, ← hw, ← hh, ← hch, ← hcs]

/-- Caches with the same slots are equal. -/
theorem cache_ext {c d : PixelCache} (h : ∀ k, cacheGet c k = cacheGet d k) : c = d :=
  Vector.ext fun i hi => by simpa [cacheGet, Vector.get_eq_getElem] using h (BitVec.ofNatLT i hi)

/-- What a fetch that completes read: the bytes of a well-formed chunk (R60, R101). -/
theorem fetchChunk_eq_next {s : State} {i : Instr} (h : fetchChunk s = .next i) :
    isChunk i = true ∧ i.wf = true ∧ GetsBytes s .bin s.dec.ip (chunkBytes i) := by
  obtain ⟨b0, operands, -, hb, hd, hi⟩ := fetchChunk_cases h
  have e := decoded_bytes hd
  rw [List.append_nil] at e
  exact ⟨hi, decoded_wf hd, e ▸ hb⟩

/-- A chunk has at most five bytes (R61). -/
theorem chunkBytes_length_le (i : Instr) : (chunkBytes i).length ≤ 5 := by
  cases i <;> simp [chunkBytes]

/-- The three ways through LOOP (R101): a replay, the chunk at `d.ip`, or INCOMPLETE IMAGE. -/
theorem decTurn_loop_cases {s t : State} (hp : s.dec.phase = .loop) (h : decTurn s = .next t) :
    (s.dec.run ≠ 0#6 ∧ replay s = .next t) ∨
    (s.dec.run = 0#6 ∧ s.dec.ip < s.dec.stop ∧
      ∃ i, isChunk i = true ∧ i.wf = true ∧ GetsBytes s .bin s.dec.ip (chunkBytes i) ∧ exec i s = .next t) ∨
    (s.dec.run = 0#6 ∧ s.dec.stop ≤ s.dec.ip ∧ t = raiseDec .incompleteImage s) := by
  rw [decTurn_loop hp, decLoop] at h
  split at h
  case isTrue hr => exact .inl ⟨hr, h⟩
  case isFalse hr =>
    have hr := not_not.mp hr
    split at h
    case isTrue hip =>
      obtain ⟨i, hf, h⟩ := andThen_eq_next.mp h
      obtain ⟨hi, hw, hb⟩ := fetchChunk_eq_next hf
      exact .inr (.inl ⟨hr, hip, i, hi, hw, hb, h⟩)
    case isFalse hip => exact .inr (.inr ⟨hr, Nat.le_of_not_lt hip, (Host.Outcome.next.inj h).symm⟩)

/-- Two states that agree on all R116 lets a decoder step depend on. -/
structure DecAgrees (s u : State) : Prop where
  dec : s.dec = u.dec
  decRegs : s.decRegs = u.decRegs
  cfg : s.cfg = u.cfg
  cap : s.bufs.pout.cap = u.bufs.pout.cap
  input : ∀ off, off < s.dec.len → inputByte s .bin off = inputByte u .bin off

/-- The same decoder and result registers. -/
def SameDec (t v : State) : Prop := v.dec = t.dec ∧ v.decRegs = t.decRegs

/-- A state that agrees gets the same bytes below `d.L`. -/
theorem DecAgrees.gets {s u : State} (a : DecAgrees s u) {off : Nat} {bs : List Byte} (hl : off + bs.length ≤ s.dec.len)
    (h : GetsBytes s .bin off bs) : GetsBytes u .bin off bs := fun j hj => by
  rw [← a.input (off + j) (by omega), h j hj]

/-- The same error raised in states that agree. -/
theorem DecAgrees.raised {s u : State} (a : DecAgrees s u) (e : Err) : SameDec (raiseDec e s) (raiseDec e u) := by
  simp only [SameDec, raiseDec, a.dec, a.decRegs, and_self]

/-- HEADER in a state that agrees (R114). -/
theorem DecAgrees.header {s u t : State} (a : DecAgrees s u) (h : decHeader s = .next t) :
    ∃ v, decHeader u = .next v ∧ SameDec t v := by
  obtain ⟨hl, rfl⟩ | ⟨bs, hl, h14, hb, ⟨e, he, rfl⟩ | ⟨he, hc, rfl⟩⟩ := decHeader_cases h
  · exact ⟨_, decHeader_short (a.dec ▸ hl), a.raised _⟩
  · have hb := a.gets (by omega) hb
    rw [a.cfg] at he
    refine ⟨_, decHeader_fails (a.dec ▸ hl) h14 hb he, ?_⟩
    simp only [SameDec, raiseDec, readHeader, a.dec, a.decRegs, and_self]
  · have hb := a.gets (by omega) hb
    rw [a.cfg] at he
    refine ⟨_, decHeader_passes (a.dec ▸ hl) h14 hb ((headerError_eq_none h14).mp he) (a.cap ▸ hc), ?_⟩
    simp only [SameDec, setUpDec, readHeader, a.dec, a.decRegs, and_self]

/-- Pixels out of states that agree leave the same decoder, if the steps made the same of `d.ip`, `d.run`, `d.prev` and the
cache. -/
theorem DecAgrees.pixel {s u t v : State} (a : DecAgrees s u) {px qx : Pixel} (o : PixelOut s t px)
    (q : PixelOut u v qx) (hip : v.dec.ip = t.dec.ip) (hrun : v.dec.run = t.dec.run) (hprev : v.dec.prev = t.dec.prev)
    (hcache : v.dec.cache = t.dec.cache) : SameDec t v := by
  constructor
  · rw [o.dec_eq, q.dec_eq, hip, hrun, hprev, hcache, a.dec]
  · rw [o.decRegs_eq, q.decRegs_eq, a.dec, a.decRegs]

/-- LOOP in a state that agrees and has room for the pixel (R116). -/
theorem DecAgrees.loop {s u t : State} (a : DecAgrees s u) (r : DecRunning s) (hp : s.dec.phase = .loop)
    (hroom : RoomForPixel u) (h : decTurn s = .next t) : ∃ v, decTurn u = .next v ∧ SameDec t v := by
  have hpu : u.dec.phase = .loop := a.dec ▸ hp
  obtain ⟨hr, ht⟩ | ⟨hr, hip, i, hi, hw, hb, ht⟩ | ⟨hr, hip, rfl⟩ := decTurn_loop_cases hp h
  · obtain ⟨_, ht', o, oip, orun, oprev, ocache⟩ := replay_runs s (replay_room ht)
    obtain rfl := Host.Outcome.next.inj (ht'.symm.trans ht)
    obtain ⟨v, hv, q, qip, qrun, qprev, qcache⟩ := replay_runs u hroom
    refine ⟨v, (decTurn_replay hpu (a.dec ▸ hr)).trans hv, a.pixel o q ?_ ?_ ?_ ?_⟩
    · rw [qip, oip, a.dec]
    · rw [qrun, orun, a.dec]
    · rw [qprev, oprev, a.dec]
    · rw [qcache, ocache, a.dec]
  · obtain ⟨_, ht', o⟩ := exec_runs hi (exec_chunk_cases hi ht).1
    obtain rfl := Host.Outcome.next.inj (ht'.symm.trans ht)
    obtain ⟨v, hv, q⟩ := exec_runs hi hroom
    have hlen : s.dec.ip + (chunkBytes i).length ≤ s.dec.len := by
      have := chunkBytes_length_le i
      have := r.region
      omega
    have hbu : GetsBytes u .bin u.dec.ip (chunkBytes i) := a.dec ▸ a.gets hlen hb
    refine ⟨v, (decTurn_chunk hi hw hpu (a.dec ▸ hr) (a.dec ▸ hip) hbu).trans hv, a.pixel o.out q.out ?_ ?_ ?_ ?_⟩
    · rw [q.ip, o.ip, a.dec]
    · rw [q.owes, o.owes, a.dec]
    · rw [q.prev, o.prev, a.dec]
    · exact cache_ext fun k => by rw [q.slot, o.slot, a.dec]
  · exact ⟨_, decTurn_missing hpu (a.dec ▸ hr) (a.dec ▸ hip), a.raised _⟩

/-- Settles O27: each way through HEADER and LOOP is fixed by what the states agree on; both pixels are the previous pixel
after the step. -/
theorem decoderDependsOnlyOnStream : Obligations.DecoderDependsOnlyOnStream := by
  intro s u t hs hdec hregs hcfg hcap hclear hinput h
  have a : DecAgrees s u := ⟨hdec, hregs, hcfg, hcap, hinput⟩
  obtain ⟨v, hv, same⟩ : ∃ v, decTurn u = .next v ∧ SameDec t v := by
    cases hb : decBusy s
    · obtain rfl := Host.Outcome.next.inj ((decTurn_idle hb).symm.trans h)
      have hbu : decBusy u = false := by rwa [decBusy, hdec] at hb
      exact ⟨u, decTurn_idle hbu, hdec.symm, hregs.symm⟩
    · obtain hp | hp := decBusy_iff.mp hb
      · obtain ⟨v, hv, same⟩ := a.header ((decTurn_header hp).symm.trans h)
        exact ⟨v, (decTurn_header (hdec ▸ hp)).trans hv, same⟩
      · have hfits : PixelFits u := by
          have := fits_of_sound hs hp
          rwa [PixelFits, hdec, hcap] at this
        exact a.loop (hs.dec.running hp) hp ⟨hfits, hclear.free hfits⟩ h
  refine ⟨v, hv, same.1, same.2, fun hp hk => ?_⟩
  have stored {a b : State} (hp : a.dec.phase = .loop) (h : decTurn a = .next b) (hk : b.dec.k = a.dec.k + 1) :
      HoldsPixel b .pout (a.dec.k * a.dec.ch.toNat) a.dec.ch b.dec.prev := by
    obtain ⟨-, o, -⟩ | ⟨-, -, hk', -⟩ := loopStepProducesOnePixelOrFails a b hp h
    · exact o.stored
    · omega
  refine ⟨stored hp h hk, ?_⟩
  have := stored (hdec ▸ hp) hv (by rw [same.1, hk, hdec])
  rwa [same.1, ← hdec] at this

/-! ### Rows of pixels -/

/-- The latched and header registers are as before. -/
def SameHeader (s t : State) : Prop :=
  t.dec.len = s.dec.len ∧ t.dec.w = s.dec.w ∧ t.dec.h = s.dec.h ∧ t.dec.ch = s.dec.ch ∧ t.dec.cs = s.dec.cs ∧
    t.dec.n = s.dec.n ∧ t.dec.stop = s.dec.stop ∧ t.decRegs.inLen = s.decRegs.inLen

/-- The phase, the error and the result registers are as before. -/
def StillRunning (s t : State) : Prop :=
  t.dec.phase = s.dec.phase ∧ t.dec.err = s.dec.err ∧ t.decRegs = s.decRegs

/-- `t` is DONE with the results of the image `s` decodes (R112). -/
def Finished (s t : State) : Prop :=
  t.dec.phase = .done ∧ t.dec.err = none ∧ t.decRegs.width = s.dec.w ∧ t.decRegs.height = s.dec.h ∧
    t.decRegs.channels = s.dec.ch ∧ t.decRegs.colorspace = s.dec.cs ∧ t.decRegs.outLen = s.dec.n * s.dec.ch.toNat

/-- What the steps of a row of pixels leave, as `PixelOut` says it of one pixel (R111, R112). -/
structure PixelsOut (s t : State) (ps : List Pixel) : Prop where
  others : SameBesideDec s t
  latched : SameHeader s t
  counted : t.dec.k = s.dec.k + ps.length
  stored : ∀ j, (h : j < ps.length) → HoldsPixel t .pout ((s.dec.k + j) * s.dec.ch.toNat) s.dec.ch ps[j]
  onlyStored : OnlyWrote s t .pout (s.dec.k * s.dec.ch.toNat) (ps.length * s.dec.ch.toNat)
  more : s.dec.k + ps.length ≠ s.dec.n → StillRunning s t
  last : ps ≠ [] → s.dec.k + ps.length = s.dec.n → Finished s t

/-- The next `n` pixels are owed, and there is room for them in bytes of `POUT` the decoder may write (R42, R49, R101). -/
structure RoomFor (s : State) (n : Nat) : Prop where
  channels : s.dec.ch = 3#8 ∨ s.dec.ch = 4#8
  owed : s.dec.k + n ≤ s.dec.n
  fits : s.dec.n * s.dec.ch.toNat ≤ s.bufs.pout.cap
  free : FreeAt s .pout (s.dec.k * s.dec.ch.toNat) (n * s.dec.ch.toNat)

/-- With 3 or 4 channels a pixel has as many bytes as channels (R36). -/
theorem pixelSize_eq {ch : Byte} (h : ch = 3#8 ∨ ch = 4#8) : (if ch = 4#8 then 4 else 3) = ch.toNat := by
  obtain rfl | rfl := h <;> rfl

theorem SameBesideDec.trans {s t u : State} (h : SameBesideDec s t) (g : SameBesideDec t u) : SameBesideDec s u := by
  obtain ⟨h1, h2, h3, h4, h5, h6, h7⟩ := h
  obtain ⟨g1, g2, g3, g4, g5, g6, g7⟩ := g
  exact ⟨g1.trans h1, g2.trans h2, g3.trans h3, g4.trans h4, g5.trans h5, g6.trans h6, g7.trans h7⟩

theorem SameHeader.trans {s t u : State} (h : SameHeader s t) (g : SameHeader t u) : SameHeader s u := by
  obtain ⟨h1, h2, h3, h4, h5, h6, h7, h8⟩ := h
  obtain ⟨g1, g2, g3, g4, g5, g6, g7, g8⟩ := g
  exact ⟨g1.trans h1, g2.trans h2, g3.trans h3, g4.trans h4, g5.trans h5, g6.trans h6, g7.trans h7, g8.trans h8⟩

theorem StillRunning.trans {s t u : State} (h : StillRunning s t) (g : StillRunning t u) : StillRunning s u := by
  obtain ⟨h1, h2, h3⟩ := h
  obtain ⟨g1, g2, g3⟩ := g
  exact ⟨g1.trans h1, g2.trans h2, g3.trans h3⟩

/-- The results are those of the image whose pixels were being decoded all along. -/
theorem Finished.of_sameHeader {s t u : State} (h : SameHeader s t) (g : Finished t u) : Finished s u := by
  obtain ⟨-, hw, hh, hch, hcs, hn, -⟩ := h
  rwa [Finished, hw, hh, hch, hcs, hn] at g

/-- A byte outside the ones written is as before. -/
theorem OnlyWrote.bufByte_eq {s t : State} {b : Buf} {off n : Nat} (h : OnlyWrote s t b off n) (hb : t.bufs = s.bufs)
    {c : Buf} {o : Nat} (ho : ¬ (bufAddr s b off ≤ bufAddr s c o ∧ bufAddr s c o < bufAddr s b off + n)) :
    bufByte t c o = bufByte s c o := by
  have e := h _ ho
  simp only [bufByte, bufAddr, hb] at e ⊢
  rw [e]

/-- A pixel below the bytes written is as before. -/
theorem OnlyWrote.holdsPixel {s t : State} {b : Buf} {off n : Nat} (h : OnlyWrote s t b off n) (hb : t.bufs = s.bufs)
    {o : Nat} {ch : Byte} {px : Pixel} (ho : o + (if ch = 4#8 then 4 else 3) ≤ off) (hp : HoldsPixel s b o ch px) :
    HoldsPixel t b o ch px := by
  have same {j : Nat} (hj : o + j < off) : bufByte t b (o + j) = bufByte s b (o + j) :=
    h.bufByte_eq hb (by simp only [bufAddr]; omega)
  obtain ⟨hr, hg, hb, ha⟩ := hp
  have h3 : o + 3 ≤ off := by split at ho <;> omega
  refine ⟨(same (j := 0) (by omega)).trans hr, (same (by omega)).trans hg, (same (by omega)).trans hb, fun h4 => ?_⟩
  rw [if_pos h4] at ho
  exact (same (by omega)).trans (ha h4)

/-- No pixel at all. -/
theorem PixelsOut.nil (s : State) : PixelsOut s s [] where
  others := ⟨rfl, rfl, rfl, rfl, rfl, rfl, rfl⟩
  latched := ⟨rfl, rfl, rfl, rfl, rfl, rfl, rfl, rfl⟩
  counted := rfl
  stored _ h := absurd h (Nat.not_lt_zero _)
  onlyStored _ _ := rfl
  more _ := ⟨rfl, rfl, rfl⟩
  last h := absurd rfl h

/-- One pixel. -/
theorem PixelOut.single {s t : State} {px : Pixel} (o : PixelOut s t px) (hch : s.dec.ch = 3#8 ∨ s.dec.ch = 4#8) :
    PixelsOut s t [px] where
  others := o.others
  latched := o.latched
  counted := o.counted
  stored j h := by
    obtain rfl : j = 0 := Nat.lt_one_iff.mp h
    exact o.stored
  onlyStored := by
    simpa only [List.length_singleton, Nat.one_mul, pixelSize_eq hch] using o.onlyStored
  more := o.more
  last _ := o.last

/-- A row of pixels, and another one after it. -/
theorem PixelsOut.append {s t u : State} {ps qs : List Pixel} (o : PixelsOut s t ps) (q : PixelsOut t u qs)
    (hch : s.dec.ch = 3#8 ∨ s.dec.ch = 4#8) (hn : s.dec.k + (ps.length + qs.length) ≤ s.dec.n) (hqs : qs ≠ []) :
    PixelsOut s u (ps ++ qs) := by
  have hlatched := o.latched
  obtain ⟨-, -, -, hc, -, hN, -, -⟩ := hlatched
  have hk := o.counted
  have hbt : t.bufs = s.bufs := o.others.2.2.2.1
  have hbu : u.bufs = t.bufs := q.others.2.2.2.1
  have hpos := List.length_pos_of_ne_nil hqs
  have hcount : u.dec.k = s.dec.k + (ps ++ qs).length := by
    rw [q.counted, hk, List.length_append, Nat.add_assoc]
  constructor
  · exact o.others.trans q.others
  · exact o.latched.trans q.latched
  · exact hcount
  · intro j hj
    rw [List.length_append] at hj
    by_cases hjp : j < ps.length
    · rw [List.getElem_append_left hjp]
      refine q.onlyStored.holdsPixel hbu ?_ (o.stored j hjp)
      rw [pixelSize_eq hch, hc, hk, ← Nat.succ_mul]
      exact Nat.mul_le_mul_right _ (by omega)
    · rw [List.getElem_append_right (by omega)]
      have := q.stored (j - ps.length) (by omega)
      rwa [hk, hc, show s.dec.k + ps.length + (j - ps.length) = s.dec.k + j by omega] at this
  · intro a ha
    have hmul : (s.dec.k + ps.length) * s.dec.ch.toNat = s.dec.k * s.dec.ch.toNat + ps.length * s.dec.ch.toNat :=
      Nat.add_mul ..
    rw [List.length_append, Nat.add_mul] at ha
    rw [q.onlyStored a, o.onlyStored a]
    · omega
    · simp only [bufAddr, hbt, hk, hc, hmul] at ha ⊢
      omega
  · intro hne
    rw [List.length_append] at hne
    exact (o.more (by omega)).trans (q.more (by omega))
  · intro _ hlast
    rw [List.length_append] at hlast
    exact (q.last hqs (by omega)).of_sameHeader o.latched

/-- Room for a row of pixels is room for its first ones. -/
theorem RoomFor.of_le {s : State} {m n : Nat} (r : RoomFor s n) (h : m ≤ n) : RoomFor s m where
  channels := r.channels
  owed := (Nat.add_le_add_left h _).trans r.owed
  fits := r.fits
  free := r.free.within (Nat.le_refl _) (Nat.add_le_add_left (Nat.mul_le_mul_right _ h) _)

/-- With room for more pixels there is room for the next one. -/
theorem RoomFor.pixel {s : State} {n : Nat} (r : RoomFor s (n + 1)) : RoomForPixel s := by
  have hle : (s.dec.k + 1) * s.dec.ch.toNat ≤ s.dec.n * s.dec.ch.toNat :=
    Nat.mul_le_mul_right _ (by have := r.owed; omega)
  have hfits := r.fits
  rw [Nat.succ_mul] at hle
  rw [RoomForPixel, PixelFits, pixelSize_eq r.channels]
  exact ⟨by omega, r.free.within (Nat.le_refl _) (by rw [Nat.succ_mul]; omega)⟩

/-- Room for a row of pixels and more is, after the row, room for the rest. -/
theorem PixelsOut.roomFor {s t : State} {ps : List Pixel} (o : PixelsOut s t ps) {n : Nat}
    (r : RoomFor s (ps.length + n)) : RoomFor t n := by
  obtain ⟨-, -, -, hc, -, hN, -, -⟩ := o.latched
  obtain ⟨-, henc, -, hb, -, -, -⟩ := o.others
  have hk := o.counted
  have howed := r.owed
  refine ⟨hc ▸ r.channels, by omega, by rw [hN, hc, hb]; exact r.fits, fun j hj => ?_⟩
  have := r.free (ps.length * s.dec.ch.toNat + j) (by rw [hc] at hj; rw [Nat.add_mul]; omega)
  rw [← Nat.add_assoc, ← Nat.add_mul] at this
  simpa only [otherOwns, encOwns, encBusy, bufAddr, henc, hb, hk, hc] using this

/-- While more pixels are owed the decoder stays in its phase. -/
theorem PixelsOut.phase_eq {s t : State} {ps : List Pixel} (o : PixelsOut s t ps) {n : Nat}
    (r : RoomFor s (ps.length + (n + 1))) : t.dec.phase = s.dec.phase :=
  (o.more (by have := r.owed; omega)).1

/-! ### A chunk and its replays (R102, R107) -/

/-- The replays owed after a row of pixels put out the previous pixel that many times and change nothing else of the
decoder (R102). -/
theorem decTurns_replay {s : State} (hp : s.dec.phase = .loop) (n : Nat) {u : State} {ps : List Pixel}
    (o : PixelsOut s u ps) (hr : u.dec.run.toNat = n) (hroom : RoomFor s (ps.length + n)) :
    ∃ t, decTurns n u = .next t ∧ PixelsOut s t (ps ++ List.replicate n u.dec.prev) ∧ t.dec.ip = u.dec.ip ∧
      t.dec.run = 0#6 ∧ t.dec.prev = u.dec.prev ∧ t.dec.cache = u.dec.cache := by
  induction n generalizing u ps with
  | zero => exact ⟨u, rfl, by simpa using o, rfl, BitVec.eq_of_toNat_eq hr, rfl, rfl⟩
  | succ n ih =>
    have hphase := o.phase_eq hroom
    have hne : u.dec.run ≠ 0#6 := fun h0 => by simp [h0] at hr
    obtain ⟨v, hv, out, vip, vrun, vprev, vcache⟩ := replay_runs u (o.roomFor hroom).pixel
    have hturn : decTurn u = .next v := (decTurn_replay (hphase.trans hp) hne).trans hv
    have o' : PixelsOut s v (ps ++ [u.dec.prev]) := by
      obtain ⟨-, -, -, hc, -⟩ := o.latched
      have howed := hroom.owed
      exact o.append (out.single (hc ▸ hroom.channels)) hroom.channels (by rw [List.length_singleton]; omega)
        (List.cons_ne_nil _ _)
    obtain ⟨t, ht, o'', tip, trun, tprev, tcache⟩ := ih o' (by rw [vrun, run_pred hne, hr]; rfl)
      (by rwa [List.length_append, List.length_singleton, Nat.add_assoc, Nat.add_comm 1])
    refine ⟨t, by rw [decTurns, hturn, andThen_next, ht], ?_, tip.trans vip, trun, tprev.trans vprev,
      tcache.trans vcache⟩
    rwa [vprev, List.append_assoc, List.singleton_append, ← List.replicate_succ] at o''

/-- A chunk at `d.ip` and the replays it owes: as many copies of its pixel, and one (R101, R107). -/
theorem decTurns_chunk {s : State} {i : Instr} (hi : isChunk i = true) (hw : i.wf = true) (hp : s.dec.phase = .loop)
    (hr : s.dec.run = 0#6) (hip : s.dec.ip < s.dec.stop) (hb : GetsBytes s .bin s.dec.ip (chunkBytes i)) {n : Nat}
    (hn : (chunkOwes i 0#6).toNat = n) (hroom : RoomFor s (n + 1)) :
    ∃ u t, decTurn s = .next u ∧
      ChunkRan s u (chunkBytes i).length (chunkOwes i 0#6) (chunkPixel i s.dec.prev s.dec.cache) ∧
      decTurns n u = .next t ∧ PixelsOut s t (List.replicate (n + 1) (chunkPixel i s.dec.prev s.dec.cache)) ∧
      t.dec.ip = u.dec.ip ∧ t.dec.run = 0#6 ∧ t.dec.prev = u.dec.prev ∧ t.dec.cache = u.dec.cache := by
  obtain ⟨u, hu, ran⟩ := exec_runs hi hroom.pixel
  rw [hr] at ran
  obtain ⟨t, ht, o, rest⟩ := decTurns_replay hp n (ran.out.single hroom.channels) (ran.owes ▸ hn)
    (by rwa [List.length_singleton, Nat.add_comm])
  rw [ran.prev, List.singleton_append, ← List.replicate_succ] at o
  exact ⟨u, t, (decTurn_chunk hi hw hp hr hip hb).trans hu, ran, ht, o, rest⟩

/-- Settles O16: the RUN chunk with the replays it owes. -/
theorem runChunkYieldsItsLength : Obligations.RunChunkYieldsItsLength := by
  intro s l hp hr hl hip hb hch hn hcap hfree
  obtain ⟨u, t, hu, ran, ht, o, tip, trun, tprev, tcache⟩ :=
    decTurns_chunk (i := .run l) rfl (decide_eq_true hl) hp hr hip hb rfl ⟨hch, hn, hcap, hfree⟩
  refine ⟨u, t, hu, ran, ht, ?_, tip.trans ran.ip, trun, tprev.trans ran.prev, tcache, fun j hj => ?_⟩
  · rw [o.counted, List.length_replicate]
    rfl
  · have := o.stored j (by rwa [List.length_replicate])
    rwa [List.getElem_replicate] at this

end Sys2Proof.Machine
end

section
/-! PROOF. The round trip of spec/43_decoder.md R115. First what a row of chunks decodes to, apart from any machine; then that
the decoder's steps produce those pixels from the row's bytes, that the encoder's steps write such a row for the image, and at
last the statement's two runs, one after the other. -/

namespace Sys2Proof.Machine

/-! ### What a row of chunks decodes to -/

/-- The row of chunks, after the previous pixel `p0` and with the cache `c0`, yields the pixels and leaves a previous pixel and
a cache: each chunk its pixel, as often as the replays it owes and once more (R79, R101, R102). -/
inductive Decodes (p0 : Pixel) (c0 : PixelCache) : List Instr → List Pixel → Pixel → PixelCache → Prop where
  | nil : Decodes p0 c0 [] [] p0 c0
  | snoc {is : List Instr} {ps : List Pixel} {p : Pixel} {c : PixelCache} (before : Decodes p0 c0 is ps p c) (i : Instr)
      (chunk : isChunk i = true) (wf : i.wf = true) :
      Decodes p0 c0 (is ++ [i]) (ps ++ List.replicate ((chunkOwes i 0#6).toNat + 1) (chunkPixel i p c)) (chunkPixel i p c)
        (cachePut c (hash (chunkPixel i p c)) (chunkPixel i p c))

/-- The bytes of a row of chunks. -/
def rowBytes (is : List Instr) : List Byte := is.flatMap chunkBytes

theorem rowBytes_snoc (is : List Instr) (i : Instr) : rowBytes (is ++ [i]) = rowBytes is ++ chunkBytes i := by
  simp [rowBytes]

/-- A row read from an offset on is its first part and, after that, its second part. -/
theorem reads_append {f : Nat → Option Byte} {off : Nat} {xs ys : List Byte} :
    (∀ j, (h : j < (xs ++ ys).length) → f (off + j) = some (xs ++ ys)[j]) ↔
      (∀ j, (h : j < xs.length) → f (off + j) = some xs[j]) ∧
      ∀ j, (h : j < ys.length) → f (off + xs.length + j) = some ys[j] := by
  constructor
  · intro h
    refine ⟨fun j hj => ?_, fun j hj => ?_⟩
    · rw [h j (by rw [List.length_append]; omega), List.getElem_append_left hj]
    · rw [Nat.add_assoc, h (xs.length + j) (by rw [List.length_append]; omega), List.getElem_append_right (by omega)]
      simp
  · rintro ⟨hx, hy⟩ j hj
    rw [List.length_append] at hj
    by_cases hjx : j < xs.length
    · rw [hx j hjx, List.getElem_append_left hjx]
    · have := hy (j - xs.length) (by omega)
      rwa [Nat.add_assoc, Nat.add_sub_cancel' (by omega), ← List.getElem_append_right (by omega)] at this

/-- Bytes an engine gets one after the other. -/
theorem getsBytes_append {s : State} {b : Buf} {off : Nat} {xs ys : List Byte} :
    GetsBytes s b off (xs ++ ys) ↔ GetsBytes s b off xs ∧ GetsBytes s b (off + xs.length) ys :=
  reads_append

/-- Bytes a buffer holds one after the other. -/
theorem holdsBytes_append {s : State} {b : Buf} {off : Nat} {xs ys : List Byte} :
    HoldsBytes s b off (xs ++ ys) ↔ HoldsBytes s b off xs ∧ HoldsBytes s b (off + xs.length) ys :=
  reads_append

/-! ### One engine at a time -/

/-- While the decoder is not busy the encoder may write all of `BOUT` (R49). -/
theorem boutClear_of_idle {s : State} (h : decBusy s = false) : BoutClear s := fun hb =>
  absurd (h.symm.trans hb) Bool.false_ne_true

/-- While the encoder is not busy the decoder may write all of `POUT` (R49). -/
theorem poutClear_of_idle {s : State} (h : encBusy s = false) : PoutClear s := fun hb =>
  absurd (h.symm.trans hb) Bool.false_ne_true

/-- While the decoder is not busy the encoder gets what `PIN` holds. -/
theorem inputByte_pin_idle {s : State} (h : decBusy s = false) (off : Nat) :
    inputByte s .pin off = bufByte s .pin off :=
  inputByte_pin_clear (fun hb => absurd (h.symm.trans hb) Bool.false_ne_true) off

/-- While the encoder is not busy the decoder gets what `BIN` holds. -/
theorem inputByte_bin_idle {s : State} (h : encBusy s = false) (off : Nat) :
    inputByte s .bin off = bufByte s .bin off :=
  inputByte_bin_clear (fun hb => absurd (h.symm.trans hb) Bool.false_ne_true) off

/-! ### The decoder's steps on a row of chunks -/

/-- A run of decoder steps goes on from where a shorter one ended. -/
theorem decTurns_add {m : Nat} : ∀ {s t : State}, decTurns m s = .next t → ∀ n, decTurns (m + n) s = decTurns n t := by
  induction m with
  | zero =>
    intro s t h n
    rw [Nat.zero_add, Host.Outcome.next.inj h]
  | succ m ih =>
    intro s t h n
    obtain ⟨u, hu, h⟩ := andThen_eq_next.mp h
    rw [Nat.succ_add, decTurns, hu, andThen_next, ih h]

/-- Pixels put out in a `POUT` apart from `BIN` leave what the decoder gets from `BIN` (R50). -/
theorem PixelsOut.getsBin {s t : State} {ps : List Pixel} (o : PixelsOut s t ps) (r : RoomFor s ps.length)
    (hd : s.bufs.bin.disjoint s.bufs.pout = true) {off : Nat} {bs : List Byte} (h : GetsBytes s .bin off bs) :
    GetsBytes t .bin off bs := by
  intro j hj
  obtain ⟨-, henc, -, hb, -, -, hfree⟩ := o.others
  rw [← h j hj]
  refine inputByte_congr hb ?_ fun hc _ => o.onlyStored _ fun hin => ?_
  · simp only [hiddenByte, encWrote_congr henc hb, hfree]
  · have hfit : s.dec.k * s.dec.ch.toNat + ps.length * s.dec.ch.toNat ≤ s.bufs.pout.cap :=
      Nat.add_mul .. ▸ (Nat.mul_le_mul_right _ r.owed).trans r.fits
    have hbin : s.bufs.bin.has (bufAddr s .bin (off + j)) = true := has_bufAddr (b := .bin) hc
    have hpout := (stored_byte (.inr hfit) r.free hin).1
    exact Bool.false_ne_true ((Region.disjoint_has hd hbin).symm.trans hpout)

/-- The decoder's steps on the bytes of a row of chunks put out the row's pixels (R101 to R111). -/
theorem decTurns_decodes {s : State} (hp : s.dec.phase = .loop) (hr : s.dec.run = 0#6)
    (hd : s.bufs.bin.disjoint s.bufs.pout = true) {is : List Instr} {ps : List Pixel} {p : Pixel} {c : PixelCache}
    (d : Decodes s.dec.prev s.dec.cache is ps p c) (hroom : RoomFor s ps.length)
    (hb : GetsBytes s .bin s.dec.ip (rowBytes is)) (hstop : s.dec.ip + (rowBytes is).length ≤ s.dec.stop) :
    ∃ t, decTurns ps.length s = .next t ∧ PixelsOut s t ps ∧ t.dec.ip = s.dec.ip + (rowBytes is).length ∧
      t.dec.run = 0#6 ∧ t.dec.prev = p ∧ t.dec.cache = c := by
  induction d with
  | nil => exact ⟨s, rfl, .nil s, rfl, hr, rfl, rfl⟩
  | @snoc is ps p c _ i hi hw ih =>
    rw [rowBytes_snoc, List.length_append] at hstop
    rw [rowBytes_snoc, getsBytes_append] at hb
    obtain ⟨hbefore, hchunk⟩ := hb
    rw [List.length_append, List.length_replicate] at hroom ⊢
    have hroom' : RoomFor s ps.length := hroom.of_le (Nat.le_add_right _ _)
    obtain ⟨t, ht, o, tip, trun, rfl, rfl⟩ := ih hroom' hbefore (by omega)
    have hpos : 1 ≤ (chunkBytes i).length := by
      obtain ⟨b0, operands, e, -⟩ := chunkBytes_length i hi hw
      simp [e]
    have hlatched := o.latched
    obtain ⟨-, -, -, hc, -, hn, hs, -⟩ := hlatched
    obtain ⟨u, v, hu, ran, hv, q, vip, vrun, vprev, vcache⟩ := decTurns_chunk hi hw ((o.phase_eq hroom).trans hp) trun
      (by omega) (tip ▸ o.getsBin hroom' hd hchunk) rfl (o.roomFor hroom)
    refine ⟨v, ?_, o.append q hroom.channels (by rw [List.length_replicate]; exact hroom.owed) (by simp), ?_, vrun,
      vprev.trans ran.prev, vcache.trans (cache_ext fun k => ?_)⟩
    · rw [decTurns_add ht, decTurns, hu, andThen_next, hv]
    · rw [vip, ran.ip, tip, rowBytes_snoc, List.length_append, Nat.add_assoc]
    · rw [ran.slot, cacheGet_cachePut]

/-- A 32-bit value is read back from its four bytes (R39). -/
theorem bigEndian_wordBytes (w : Word) : BitVec.ofNat 32 (bigEndian (wordBytes w)) = w := by
  apply BitVec.eq_of_toNat_eq
  have := w.isLt
  simp only [wordBytes_eq_div, bigEndian, List.foldl_cons, List.foldl_nil, BitVec.toNat_ofNat]
  omega

/-- The header's fields are read back from its bytes (R71, R72). -/
theorem parseHeader_headerBytes (magic : Vector Byte 4) (w h : Word) (ch cs : Byte) :
    parseHeader (headerBytes magic w h ch cs) = ⟨magic.toList, w, h, ch, cs⟩ := by
  obtain ⟨⟨bs⟩, hbs⟩ := magic
  match bs, hbs with
  | [_, _, _, _], _ =>
    have hw := bigEndian_wordBytes w
    have hh := bigEndian_wordBytes h
    simp only [wordBytes] at hw hh
    simp [parseHeader, headerBytes, wordBytes, hw, hh]

/-- The decoder once it has read a header of these fields: ready for the first chunk (R72, R99). -/
def afterHeader (w h : Word) (ch cs : Byte) (s : State) : State :=
  setUpDec (readHeader ⟨s.cfg.magic.toList, w, h, ch, cs⟩ s)

/-- HEADER on a header of legal fields, with room for the image (R42, R73, R99). -/
theorem decTurn_headerBytes {s : State} {w h : Word} {ch cs : Byte} (hp : s.dec.phase = .header)
    (hf : fieldError w h ch cs s.cfg.pixelsMax = none) (hc : w.toNat * h.toNat * ch.toNat ≤ s.bufs.pout.cap)
    (hb : GetsBytes s .bin 0 (headerBytes s.cfg.magic w h ch cs)) (hl : 14 ≤ s.dec.len) :
    decTurn s = .next (afterHeader w h ch cs s) := by
  have h14 := headerBytes_length s.cfg.magic w h ch cs
  have hparse := parseHeader_headerBytes s.cfg.magic w h ch cs
  have hpass : HeaderPasses s.cfg (headerBytes s.cfg.magic w h ch cs) := by
    rw [← headerError_eq_none h14, hparse, headerError, if_pos rfl]
    exact hf
  rw [decTurn_header hp, decHeader_passes hl h14 hb hpass (by rwa [hparse, decCapacity]), hparse, afterHeader]

/-- While the encoder is not busy, an image that fits has room after its header. -/
theorem roomFor_afterHeader {s : State} {w h : Word} {ch cs : Byte} (he : encBusy s = false)
    (hf : fieldError w h ch cs s.cfg.pixelsMax = none) (hc : w.toNat * h.toNat * ch.toNat ≤ s.bufs.pout.cap) :
    RoomFor (afterHeader w h ch cs s) (w.toNat * h.toNat) := by
  obtain ⟨-, -, hch⟩ := fieldError_ch hf
  have hclear : PoutClear (afterHeader w h ch cs s) := poutClear_of_idle he
  refine ⟨hch.imp And.left And.left, (Nat.zero_add _).le, hc, hclear.free ?_⟩
  show 0 * ch.toNat + w.toNat * h.toNat * ch.toNat ≤ s.bufs.pout.cap
  rwa [Nat.zero_mul, Nat.zero_add]

/-- A header of legal fields and a row of chunks that decodes to as many pixels as the fields say, an end marker's length
before `d.L`: the decoder's step on the header and one step a pixel end in DONE with the fields and the pixels (R99, R101,
R112). -/
theorem decTurns_stream {s : State} {w h : Word} {ch cs : Byte} {is : List Instr} {ps : List Pixel} {p : Pixel}
    {c : PixelCache} (hp : s.dec.phase = .header) (he : encBusy s = false)
    (hd : s.bufs.bin.disjoint s.bufs.pout = true) (hf : fieldError w h ch cs s.cfg.pixelsMax = none)
    (d : Decodes prevInit freshCache is ps p c) (hn : ps.length = w.toNat * h.toNat)
    (hc : w.toNat * h.toNat * ch.toNat ≤ s.bufs.pout.cap)
    (hb : GetsBytes s .bin 0 (headerBytes s.cfg.magic w h ch cs ++ rowBytes is))
    (hl : s.dec.len = (headerBytes s.cfg.magic w h ch cs ++ rowBytes is).length + 8) :
    ∃ t, decTurns (ps.length + 1) s = .next t ∧ Finished (afterHeader w h ch cs s) t ∧
      ∀ j, (hj : j < ps.length) → HoldsPixel t .pout (j * ch.toNat) ch ps[j] := by
  have h14 := headerBytes_length s.cfg.magic w h ch cs
  rw [List.length_append, h14] at hl
  rw [getsBytes_append, h14] at hb
  obtain ⟨hheader, hrow⟩ := hb
  have hturn := decTurn_headerBytes hp hf hc hheader (by omega)
  have hstop : 14 + (rowBytes is).length ≤ s.dec.len - 8 := by omega
  obtain ⟨t, ht, o, -⟩ := decTurns_decodes (s := afterHeader w h ch cs s) rfl rfl hd d
    (hn ▸ roomFor_afterHeader he hf hc) hrow hstop
  have hne : ps ≠ [] := List.ne_nil_of_length_pos (hn ▸ (fieldError_ch hf).1)
  refine ⟨t, by rw [decTurns, hturn, andThen_next, ht], o.last hne ((Nat.zero_add _).trans hn), fun j hj => ?_⟩
  have stored : HoldsPixel t .pout ((0 + j) * ch.toNat) ch ps[j] := o.stored j hj
  rwa [Nat.zero_add] at stored

/-! ### The encoder's chunks decode to the image -/

/-- The classifier's chunk yields the pixel it was chosen for (R115). -/
theorem chunkPixel_classify (px p : Pixel) (c : PixelCache) : chunkPixel (classify px p) p c = px := by
  simp only [classify]
  split
  case isTrue => rfl
  case isFalse ha =>
    have ha : px.a = p.a := not_not.mp ha
    split
    case isTrue h =>
      simp only [Bool.and_eq_true] at h
      obtain ⟨⟨hr, hg⟩, hb⟩ := h
      exact diffPixel_classified ha hr hg hb
    case isFalse =>
      split
      case isTrue h =>
        simp only [Bool.and_eq_true] at h
        obtain ⟨⟨hg, hr⟩, hb⟩ := h
        exact lumaPixel_classified ha hg hr hb
      case isFalse => simp only [chunkPixel, ← ha]

/-- The chunk of a pixel yields it in the decoder, whose cache is as R81 relates it to the encoder's (R88 to R90). -/
theorem chunkPixel_pixelChunk {px p : Pixel} {ce c : PixelCache} (h : CachesAgree ce c) :
    chunkPixel (pixelChunk px p ce) p c = px := by
  unfold pixelChunk
  split
  case isTrue hit => exact h.hit (of_decide_eq_true hit)
  case isFalse => exact chunkPixel_classify px p c

/-- The chunk of a pixel is a well-formed chunk that owes no replay. -/
theorem pixelChunk_kind (px p : Pixel) (c : PixelCache) : isChunk (pixelChunk px p c) = true ∧
    (pixelChunk px p c).wf = true ∧ chunkOwes (pixelChunk px p c) 0#6 = 0#6 := by
  simp only [pixelChunk, classify]
  split_ifs <;> exact ⟨rfl, rfl, rfl⟩

/-- A RUN chunk after a row repeats its last pixel (R107). -/
theorem Decodes.run {p0 p : Pixel} {c0 c : PixelCache} {is : List Instr} {ps : List Pixel} (d : Decodes p0 c0 is ps p c)
    {l : BitVec 6} (hl : l.toNat ≤ 61) :
    Decodes p0 c0 (is ++ [.run l]) (ps ++ List.replicate (l.toNat + 1) p) p (cachePut c (hash p) p) :=
  d.snoc (.run l) rfl (decide_eq_true hl)

/-- An encoder that has coded the image's pixels up to `e.i`: the chunks decode to the pixels `ps`, the pending run repeats the
previous one, and the caches are as R81 relates them. -/
structure Coded (img : Nat → Pixel) (e : Enc) (is : List Instr) (ps : List Pixel) (c : PixelCache) : Prop where
  decodes : Decodes prevInit freshCache is ps e.prev c
  caches : CachesAgree e.cache c
  prev : PrevCached e.cache e.prev
  pixels : ps ++ List.replicate e.run.toNat e.prev = (List.range e.i).map img

/-- The pixels up to one more. -/
theorem map_range_succ (img : Nat → Pixel) (i : Nat) : (List.range i).map img ++ [img i] = (List.range (i + 1)).map img := by
  rw [List.range_succ, List.map_append, List.map_singleton]

/-- A pixel that repeats the previous one makes the run one longer (R86). -/
theorem Coded.pixels_succ {img : Nat → Pixel} {e : Enc} {is : List Instr} {ps : List Pixel} {c : PixelCache}
    (h : Coded img e is ps c) (hpx : e.prev = img e.i) :
    ps ++ List.replicate (e.run.toNat + 1) e.prev = (List.range (e.i + 1)).map img := by
  rw [List.replicate_succ', ← List.append_assoc, h.pixels, hpx, map_range_succ]

/-- The pending run, put out as its RUN chunk (R87). -/
theorem Coded.pending {img : Nat → Pixel} {e : Enc} {is : List Instr} {ps : List Pixel} {c : PixelCache}
    (h : Coded img e is ps c) (hr : e.run.toNat ≤ 61) : ∃ is' c',
      Decodes prevInit freshCache is' ((List.range e.i).map img) e.prev c' ∧ CachesAgree e.cache c' ∧
        rowBytes is' = rowBytes is ++ pendingBytes e.run := by
  by_cases h0 : e.run = 0#6
  · have hps : ps = (List.range e.i).map img := by simpa [h0] using h.pixels
    exact ⟨is, c, hps ▸ h.decodes, h.caches, by simp [pendingBytes, h0]⟩
  · have hpred := run_pred h0
    have hpos : e.run.toNat ≠ 0 := fun hz => h0 (BitVec.eq_of_toNat_eq hz)
    have d := h.decodes.run (l := e.run - 1#6) (by omega)
    rw [hpred, Nat.sub_add_cancel (by omega), h.pixels] at d
    refine ⟨_, _, d, h.caches.put_prev h.prev fun k => cacheGet_cachePut _ _ _ _, ?_⟩
    rw [rowBytes_snoc, chunkBytes, runByte_eq, hpred, pendingBytes, if_neg h0]

/-- A LOOP step codes the pixel it fetches: the bytes it stores are those of the chunks it adds (R85, R86, R88). -/
theorem EncEffect.coded {s : State} {off : Nat} {bs : List Byte} {e : Enc} {r : EncRegs} (p : EncEffect s off bs e r)
    (hp : s.enc.phase = .loop) (hr : s.enc.run.toNat ≤ 61) {img : Nat → Pixel}
    (hf : fetchPixel s.enc.i s = .next (img s.enc.i)) {is : List Instr} {ps : List Pixel} {c : PixelCache}
    (h : Coded img s.enc is ps c) : off = s.enc.op ∧ e.op = s.enc.op + bs.length ∧ ∃ is' ps' c',
      Coded img e is' ps' c' ∧ rowBytes is' = rowBytes is ++ bs := by
  cases p with
  | idle hb => exact absurd (hb.symm.trans (encBusy_iff.mpr (.inr (.inl hp)))) Bool.false_ne_true
  | failed _ hv | header hv | ended hv => cases hp.symm.trans hv
  | extended _ hf' hn =>
    have hpx : s.enc.prev = img s.enc.i := Host.Outcome.next.inj (hf'.symm.trans hf)
    have hpixels := h.pixels_succ hpx
    rw [← run_succ hr] at hpixels
    exact ⟨rfl, rfl, is, ps, c, ⟨h.decodes, h.caches, h.prev, hpixels⟩, (List.append_nil _).symm⟩
  | flushed _ hf' hn =>
    have hpx : s.enc.prev = img s.enc.i := Host.Outcome.next.inj (hf'.symm.trans hf)
    exact ⟨rfl, rfl, _, _, _, ⟨h.decodes.run hr, h.caches.put_prev h.prev fun k => cacheGet_cachePut _ _ _ _, h.prev,
      (List.append_nil _).trans (h.pixels_succ hpx)⟩, rowBytes_snoc ..⟩
  | differed px _ hf' hne =>
    obtain rfl : px = img s.enc.i := Host.Outcome.next.inj (hf'.symm.trans hf)
    obtain ⟨is', c', d, hagree, hbytes⟩ := h.pending hr
    obtain ⟨hi, hw, howes⟩ := pixelChunk_kind (img s.enc.i) s.enc.prev s.enc.cache
    have d := d.snoc _ hi hw
    rw [howes, chunkPixel_pixelChunk hagree] at d
    refine ⟨rfl, rfl, _, _, _, ⟨d, hagree.put (cacheGet_encCache _ _) fun k => cacheGet_cachePut _ _ _ _,
      .inl ((cacheGet_encCache _ _ _).trans (if_pos rfl)), (List.append_nil _).trans (map_range_succ ..)⟩, ?_⟩
    rw [rowBytes_snoc, hbytes, List.append_assoc]

/-- No turn changes the latched dimensions and channel count. -/
theorem EncEffect.fields {s : State} {off : Nat} {bs : List Byte} {e : Enc} {r : EncRegs} (p : EncEffect s off bs e r) :
    e.w = s.enc.w ∧ e.h = s.enc.h ∧ e.ch = s.enc.ch := by
  cases p <;> exact ⟨rfl, rfl, rfl⟩

/-! ### The encoder's steps -/

/-- The pixel PIXEL FETCH gives, where it gives one (R84). -/
def imagePixel (s : State) (j : Nat) : Pixel := (nextOf (fetchPixel j s)).getD prevInit

/-- An encode of a placed image that its checks will pass and its output buffer has room for, just begun, the decoder not
busy. -/
structure Ready (o : State) : Prop where
  sound : Sound o
  phase : o.enc.phase = .validate
  idle : decBusy o = false
  checked : encError o = none
  room : encCapacity o.enc.w o.enc.h o.enc.ch ≤ o.bufs.bout.cap
  image : ∀ off, off < o.enc.plen → ∃ v, bufByte o .pin off = some v

/-- The header the encode `o` begins writes (R71). -/
def headerOf (o : State) : List Byte := headerBytes o.cfg.magic o.enc.w o.enc.h o.enc.ch o.enc.cs

/-- A placed image is fetched pixel by pixel (R84). -/
theorem Ready.fetch {o : State} (h : Ready o) {j : Nat} (hj : j < o.enc.w.toNat * o.enc.h.toNat) :
    fetchPixel j o = .next (imagePixel o j) := by
  obtain ⟨hfield, hplen⟩ := encError_none h.checked
  obtain ⟨-, -, hch⟩ := fieldError_ch hfield
  have hle : (j + 1) * o.enc.ch.toNat ≤ o.enc.plen := hplen ▸ Nat.mul_le_mul_right _ hj
  rw [Nat.succ_mul] at hle
  have byte (r : Nat) (hr : r < o.enc.ch.toNat) : ∃ v, inputByte o .pin (j * o.enc.ch.toNat + r) = some v := by
    rw [inputByte_pin_idle h.idle]
    exact h.image _ (by omega)
  obtain ⟨r, hr⟩ := byte 0 (by omega)
  obtain ⟨g, hg⟩ := byte 1 (by omega)
  obtain ⟨b, hb⟩ := byte 2 (by omega)
  obtain ⟨a, ha⟩ : ∃ a, o.enc.ch = 4#8 → inputByte o .pin (j * o.enc.ch.toNat + 3) = some a := by
    by_cases h4 : o.enc.ch = 4#8
    · exact (byte 3 (by rw [h4]; decide)).imp fun a ha _ => ha
    · exact ⟨0#8, fun h => absurd h h4⟩
  obtain ⟨px, hpx⟩ := fetchPixel_completes (px := ⟨r, g, b, a⟩) ⟨hr, hg, hb, ha⟩
  rw [imagePixel, hpx]
  rfl

/-- The pixel fetched is the one `PIN` holds (R36, R84). -/
theorem Ready.holds {o : State} (h : Ready o) {j : Nat} (hj : j < o.enc.w.toNat * o.enc.h.toNat) :
    HoldsPixel o .pin (j * o.enc.ch.toNat) o.enc.ch (imagePixel o j) := by
  have := (fetchPixel_cases (h.fetch hj)).1
  simpa only [GetsPixel, HoldsPixel, inputByte_pin_idle h.idle] using this

/-- PIXEL FETCH looks at the channel count and at what the encoder gets from `PIN` (R84). -/
theorem fetchPixel_congr {s u : State} (hc : u.enc.ch = s.enc.ch)
    (hb : ∀ off, inputByte u .pin off = inputByte s .pin off) (j : Nat) : fetchPixel j u = fetchPixel j s := by
  simp only [fetchPixel, loadByte, hc, hb]

/-- The encoder's turn leaves what a `PIN` apart from `BOUT` holds (R50). -/
theorem encTurn_pin {s t : State} (h : encTurn s = .next t) (hd : s.bufs.pin.disjoint s.bufs.bout = true) (off : Nat) :
    bufByte t .pin off = bufByte s .pin off := by
  obtain ⟨-, -, -, hb, -, -, -⟩ := (encTurn_frame h).1
  simp only [bufByte, bufAddr, hb]
  split
  case isTrue hc => exact encTurn_read h (.inl (Region.disjoint_has hd (has_bufAddr (b := .pin) hc)))
  case isFalse => rfl

/-- Bytes stored behind those already there follow them. -/
theorem HoldsBytes.afterStore {s : State} {out bs : List Byte} (h : HoldsBytes s .bout 0 out) {off : Nat}
    (ho : off = out.length) (hfit : FitsBout s off bs) (e : Enc) (r : EncRegs) :
    HoldsBytes (afterStore s off bs e r) .bout 0 (out ++ bs) := by
  subst ho
  refine holdsBytes_append.mpr ⟨fun j hj => ?_, ?_⟩
  · rw [← h j hj]
    exact (afterStore_onlyWrote s out.length bs e r).bufByte_eq rfl (by simp only [bufAddr]; omega)
  · rw [Nat.zero_add]
    exact afterStore_holds hfit e r

/-- The encode `o` began, after some pixels: what an encode does not change, and the header and the chunks of those pixels in
`BOUT`. -/
structure Encoding (o s : State) : Prop where
  sound : Sound s
  bufs : s.bufs = o.bufs
  cfg : s.cfg = o.cfg
  dec : s.dec = o.dec
  fields : s.enc.w = o.enc.w ∧ s.enc.h = o.enc.h ∧ s.enc.ch = o.enc.ch
  pin : ∀ off, bufByte s .pin off = bufByte o .pin off
  phase : s.enc.phase = if s.enc.i = o.enc.w.toNat * o.enc.h.toNat then .tail else .loop
  coded : ∃ is ps c, Coded (imagePixel o) s.enc is ps c ∧ HoldsBytes s .bout 0 (headerOf o ++ rowBytes is) ∧
    s.enc.op = (headerOf o ++ rowBytes is).length

/-- The turns still to come do not matter. -/
theorem Encoding.withScript {o s : State} (h : Encoding o s) (turns : List Turn) : Encoding o { s with script := turns } :=
  ⟨h.sound.withScript turns, h.bufs, h.cfg, h.dec, h.fields, h.pin, h.phase, h.coded⟩

/-- VALIDATE writes the header, and no pixel is coded yet (R83). -/
theorem Ready.validate {o : State} (h : Ready o) (turns : List Turn) : ∃ t,
    encTurn { o with script := turns } = .next t ∧ Encoding o t ∧ t.enc.i = 0 ∧ t.script = turns := by
  have hclear : BoutClear { o with script := turns } := boutClear_of_idle h.idle
  have hcap : 0 + 14 ≤ o.bufs.bout.cap := by
    have := h.room
    unfold encCapacity at this
    omega
  have hfit : FitsBout { o with script := turns } 0 (headerOf o) := .inr (by rwa [headerOf, headerBytes_length])
  have hturn := (EncEffect.header (s := { o with script := turns }) h.phase h.checked h.room).runs hfit
    (hclear.free (by rwa [headerBytes_length]))
  have hd := h.sound.enc.placed (encBusy_iff.mpr (.inl h.phase))
  have hpixel := (fieldError_ch (encError_none h.checked).1).1
  refine ⟨_, hturn, ?_, rfl, rfl⟩
  exact {
    sound := encTurn_sound (h.sound.withScript turns) hturn
    bufs := rfl
    cfg := rfl
    dec := rfl
    fields := ⟨rfl, rfl, rfl⟩
    pin := encTurn_pin (s := { o with script := turns }) hturn hd
    phase := (if_neg (Nat.ne_of_lt hpixel)).symm
    coded := ⟨[], [], freshCache, ⟨.nil, fun _ => .inl rfl, .inr ⟨rfl, cacheGet_fresh _⟩, rfl⟩,
      by rw [rowBytes, List.flatMap_nil, List.append_nil]; exact afterStore_holds hfit _ _,
      by rw [rowBytes, List.flatMap_nil, List.append_nil, headerOf, headerBytes_length]; rfl⟩ }

/-- The decoder stays idle throughout. -/
theorem Encoding.idle {o s : State} (h : Encoding o s) (ready : Ready o) : decBusy s = false := by
  rw [decBusy, h.dec]
  exact ready.idle

/-- A LOOP step codes the next pixel (R85). -/
theorem Encoding.pixel {o s : State} (h : Encoding o s) (ready : Ready o)
    (hi : s.enc.i < o.enc.w.toNat * o.enc.h.toNat) : ∃ t, encTurn s = .next t ∧ Encoding o t ∧ t.enc.i = s.enc.i + 1 ∧
      t.script = s.script := by
  obtain ⟨hw, hh, hch⟩ := h.fields
  have hp : s.enc.phase = .loop := h.phase.trans (if_neg (Nat.ne_of_lt hi))
  have hrun := h.sound.enc.running (.inl hp)
  have hidle := h.idle ready
  have hf : fetchPixel s.enc.i s = .next (imagePixel o s.enc.i) := by
    rw [fetchPixel_congr hch (fun off => ?_), ready.fetch hi]
    rw [inputByte_pin_idle hidle, inputByte_pin_idle ready.idle, h.pin]
  obtain ⟨t, ht, hti, htp⟩ := encLoop_completes h.sound (boutClear_of_idle hidle) hp hf
  have ht := (encTurn_loop hp).trans ht
  obtain ⟨hcfg, hdec, -, hbufs, hscript, -, -⟩ := (encTurn_frame ht).1
  have hsound := encTurn_sound h.sound ht
  have hpin := encTurn_pin ht (h.sound.enc.placed (encBusy_iff.mpr (.inr (.inl hp))))
  refine ⟨t, ht, ?_, hti, hscript⟩
  obtain ⟨is, ps, c, coded, held, hop⟩ := h.coded
  obtain ⟨off, bs, e, r, effect, hfit, rfl⟩ := encTurn_effect ht
  obtain ⟨ew, eh, ech⟩ := effect.fields
  obtain ⟨rfl, heop, is', ps', c', coded', hbytes⟩ := effect.coded hp hrun.runShort hf coded
  exact {
    sound := hsound
    bufs := hbufs.trans h.bufs
    cfg := hcfg.trans h.cfg
    dec := hdec.trans h.dec
    fields := ⟨ew.trans hw, eh.trans hh, ech.trans hch⟩
    pin := fun off => (hpin off).trans (h.pin off)
    phase := by rw [htp, hti, hrun.count, hw, hh]
    coded := ⟨is', ps', c', coded', by rw [hbytes, ← List.append_assoc]; exact held.afterStore hop hfit e r,
      by rw [hbytes, ← List.append_assoc, List.length_append, ← hop]; exact heop⟩ }

/-- TAIL ends the encode: `BOUT` holds the header, chunks that decode to the image, and the end marker (R95). -/
theorem Encoding.tail {o s : State} (h : Encoding o s) (ready : Ready o) (hi : s.enc.i = o.enc.w.toNat * o.enc.h.toNat) :
    ∃ t, encTurn s = .next t ∧ t.enc.phase = .done ∧ t.bufs = o.bufs ∧ t.cfg = o.cfg ∧ t.dec = o.dec ∧
      ∃ is p c, Decodes prevInit freshCache is ((List.range (o.enc.w.toNat * o.enc.h.toNat)).map (imagePixel o)) p c ∧
        HoldsBytes t .bout 0 (headerOf o ++ rowBytes is) ∧
        t.encRegs.outLen = (headerOf o ++ rowBytes is).length + 8 := by
  have hp : s.enc.phase = .tail := h.phase.trans (if_pos hi)
  have hclear : BoutClear s := boutClear_of_idle (h.idle ready)
  have hrun := (h.sound.enc.inTail hp).2
  have hfit := (encTail_emits h.sound hp).1
  have hbytes : pendingBytes s.enc.run ++ endMarker = endMarker := by rw [hrun]; rfl
  have effect := EncEffect.ended hp
  rw [hbytes] at effect
  obtain ⟨is, ps, c, coded, held, hop⟩ := h.coded
  have hpixels := coded.pixels
  rw [hrun, hi] at hpixels
  have hps : ps = (List.range (o.enc.w.toNat * o.enc.h.toNat)).map (imagePixel o) := by simpa using hpixels
  exact ⟨_, effect.runs (.inr hfit) (hclear.free hfit), rfl, h.bufs, h.cfg, h.dec, is, s.enc.prev, c, hps ▸ coded.decodes,
    (holdsBytes_append.mp (held.afterStore hop (.inr hfit) _ _)).1, congrArg (· + 8) hop⟩

/-! ### The two runs -/

/-- A scripted turn of the encoder. -/
theorem step_encTurn {s : State} {rest : List Turn} (h : s.script = .enc :: rest) :
    step s = encTurn { s with script := rest } := by
  simp only [step, takeTurn, h]

/-- The encoder's turns for the pixels that are left (R85). -/
theorem Encoding.run {o : State} (ready : Ready o) (rest : List Turn) : ∀ (k : Nat) {s : State}, Encoding o s →
    s.enc.i + k = o.enc.w.toNat * o.enc.h.toNat → s.script = List.replicate k .enc ++ rest →
    ∃ t : State, core.run k s = .next t ∧ Encoding o t ∧ t.enc.i = o.enc.w.toNat * o.enc.h.toNat ∧ t.script = rest
  | 0, s, h, hi, hs => ⟨s, coreRun_zero s, h, hi, hs⟩
  | k + 1, s, h, hi, hs => by
    obtain ⟨t, ht, ht', hti, hts⟩ := (h.withScript (List.replicate k .enc ++ rest)).pixel ready (by dsimp only; omega)
    obtain ⟨u, hu, hu'⟩ := Encoding.run ready rest k ht' (by rw [hti]; dsimp only; omega) hts
    exact ⟨u, (coreRun_next k ((step_encTurn hs).trans ht)).trans hu, hu'⟩

/-- The encode of a placed image: VALIDATE, a LOOP step for each pixel, TAIL (R83, R85, R95). -/
theorem Ready.run {o : State} (h : Ready o) {n : Nat} (hn : n = o.enc.w.toNat * o.enc.h.toNat) :
    ∃ t : State, core.run (n + 2) { o with script := List.replicate (n + 2) .enc } = .next t ∧ t.enc.phase = .done ∧
      t.bufs = o.bufs ∧ t.cfg = o.cfg ∧ t.dec = o.dec ∧ ∃ is p c,
        Decodes prevInit freshCache is ((List.range n).map (imagePixel o)) p c ∧
        HoldsBytes t .bout 0 (headerOf o ++ rowBytes is) ∧ t.encRegs.outLen = (headerOf o ++ rowBytes is).length + 8 := by
  subst hn
  have hscript : List.replicate (o.enc.w.toNat * o.enc.h.toNat + 2) Turn.enc =
      .enc :: (List.replicate (o.enc.w.toNat * o.enc.h.toNat) .enc ++ [.enc]) := by
    rw [List.replicate_succ, List.replicate_succ']
  obtain ⟨t, ht, hEnc, hti, hts⟩ := h.validate (List.replicate (o.enc.w.toNat * o.enc.h.toNat) .enc ++ [.enc])
  obtain ⟨u, hu, hEnc', hui, hus⟩ := hEnc.run h [.enc] _ (by rw [hti, Nat.zero_add]) hts
  obtain ⟨v, hv, hdone⟩ := (hEnc'.withScript []).tail h hui
  refine ⟨v, ?_, hdone⟩
  have hfirst : step { o with script := List.replicate (o.enc.w.toNat * o.enc.h.toNat + 2) .enc } = .next t := by
    rw [hscript]
    exact ht
  have hlast : core.run 1 u = .next v := coreRun_next 0 ((step_encTurn hus).trans hv)
  exact (coreRun_next _ hfirst).trans ((coreRun_add _ 1 hu).trans hlast)

/-- OUTPUT does not look at the script. -/
theorem output_script {px : Pixel} {s t : State} (h : output px s = .next t) (turns : List Turn) :
    output px { s with script := turns } = .next { t with script := turns } := by
  have hroom := output_room h
  rw [output_eq px s hroom] at h
  obtain rfl := Host.Outcome.next.inj h
  exact output_eq px { s with script := turns } hroom

/-- Nor does DONE. -/
theorem finish_script (s : State) (turns : List Turn) :
    finish { s with script := turns } = { finish s with script := turns } := by
  simp only [finish]
  split <;> rfl

/-- Nor do both, one after the other. -/
theorem output_finish_script {px : Pixel} {s t : State} (h : andThen (output px s) (fun u => .next (finish u)) = .next t)
    (turns : List Turn) : andThen (output px { s with script := turns }) (fun u => .next (finish u)) =
      .next { t with script := turns } := by
  obtain ⟨u, hu, h⟩ := andThen_eq_next.mp h
  obtain rfl := Host.Outcome.next.inj h
  rw [output_script hu, andThen_next, finish_script]

/-- A decoder's turn does not look at the script (R26; log 9). -/
theorem decTurn_script {s t : State} (h : decTurn s = .next t) (turns : List Turn) :
    decTurn { s with script := turns } = .next { t with script := turns } := by
  cases hb : decBusy s
  · obtain rfl := Host.Outcome.next.inj ((decTurn_idle hb).symm.trans h)
    exact decTurn_idle (s := { s with script := turns }) hb
  obtain hp | hp := decBusy_iff.mp hb
  · rw [decTurn_header (s := { s with script := turns }) hp]
    obtain ⟨hl, rfl⟩ | ⟨bs, hl, h14, hbs, ⟨e, he, rfl⟩ | ⟨he, hc, rfl⟩⟩ :=
      decHeader_cases ((decTurn_header hp).symm.trans h)
    · exact decHeader_short (s := { s with script := turns }) hl
    · exact decHeader_fails (s := { s with script := turns }) hl h14 hbs he
    · exact decHeader_passes (s := { s with script := turns }) hl h14 hbs ((headerError_eq_none h14).mp he) hc
  · obtain ⟨hr, ht⟩ | ⟨hr, hip, i, hi, hw, hbs, ht⟩ | ⟨hr, hip, rfl⟩ := decTurn_loop_cases hp h
    · rw [decTurn_replay (s := { s with script := turns }) hp hr]
      exact output_finish_script (s := { s with dec := { s.dec with run := s.dec.run - 1#6 } }) ht turns
    · rw [decTurn_chunk (s := { s with script := turns }) hi hw hp hr hip hbs, exec_eq_produce hi]
      rw [exec_eq_produce hi] at ht
      exact output_finish_script (s := commit _ (advance _ (setRun _ s))) ht turns
    · exact decTurn_missing (s := { s with script := turns }) hp hr hip

/-- Scripted turns of the decoder are its steps. -/
theorem coreRun_decTurns {k : Nat} : ∀ {s t : State}, decTurns k s = .next t →
    core.run k { s with script := List.replicate k .dec } = .next { t with script := [] } := by
  induction k with
  | zero =>
    intro s t h
    rw [← Host.Outcome.next.inj h]
    exact coreRun_zero _
  | succ k ih =>
    intro s t h
    obtain ⟨u, hu, h⟩ := andThen_eq_next.mp h
    have hstep : step { s with script := List.replicate (k + 1) .dec } = .next { u with script := List.replicate k .dec } :=
      decTurn_script hu (List.replicate k .dec)
    rw [coreRun_next k hstep, ih h]

/-- ENC_START on legal operands and a placed image: an encode that is ready (R117). -/
theorem beginEnc_ready {s : State} (hs : Sound s) (hd : decBusy s = false)
    (hf : fieldError s.encRegs.width s.encRegs.height s.encRegs.channels s.encRegs.colorspace s.cfg.pixelsMax = none)
    (hl : s.encRegs.inLen = s.encRegs.width.toNat * s.encRegs.height.toNat * s.encRegs.channels.toNat)
    (himage : ∀ off, off < s.encRegs.inLen → ∃ v, bufByte s .pin off = some v)
    (hroom : encCapacity s.encRegs.width s.encRegs.height s.encRegs.channels ≤ s.bufs.bout.cap)
    (hp : encPlaced s = true) : Ready (beginEnc s) where
  sound := beginEnc_sound hs hp
  phase := rfl
  idle := hd
  checked := by
    simp only [encError, beginEnc, hf]
    exact if_pos hl
  room := hroom
  image := himage

/-- The host's write that starts an encoder that is not busy (R117). -/
theorem step_encStart {s : State} (he : encBusy s = false) (hp : encPlaced s = true) (rest : List Turn) :
    step { s with script := .host (.write (.encCtrl 1#32)) :: rest } = .next { beginEnc s with script := rest } := by
  show command .enc 1#32 { s with script := rest } = _
  have he' : encBusy { s with script := rest } = false := he
  have hp' : encPlaced { s with script := rest } = true := hp
  rw [command_enc, if_pos (by decide), exec, execEncStart, if_neg (by simp [he']), if_pos hp']
  rfl

/-- The decoder started on a stream of `n` bytes (R118). -/
def startDec (n : Nat) (s : State) : State := beginDec { s with decRegs := { s.decRegs with inLen := n } }

/-- The host's writes that give a decoder that is not busy its length and start it (R118). -/
theorem steps_decStart {s : State} (hd : decBusy s = false) (hp : decPlaced s = true) (n k : Nat) (rest : List Turn) :
    core.run (k + 2) { s with script := .host (.write (.decInLen n)) :: .host (.write (.decCtrl 1#32)) :: rest } =
      core.run k { startDec n s with script := rest } := by
  have hd' : decBusy { s with decRegs := { s.decRegs with inLen := n }, script := rest } = false := hd
  have hp' : decPlaced { s with decRegs := { s.decRegs with inLen := n }, script := rest } = true := hp
  rw [coreRun_next (k + 1) (t := { s with
    decRegs := { s.decRegs with inLen := n }, script := .host (.write (.decCtrl 1#32)) :: rest }) rfl]
  refine coreRun_next k ?_
  show command .dec 1#32 { s with decRegs := { s.decRegs with inLen := n }, script := rest } = _
  rw [command_dec, if_pos (by decide), exec, execDecStart, if_neg (by simp [hd']), if_pos hp']
  rfl

/-- A buffer laid over another one holds its bytes. -/
theorem bufByte_bin_eq {s : State} (h : s.bufs.bin = s.bufs.bout) (off : Nat) : bufByte s .bin off = bufByte s .bout off := by
  unfold bufByte bufAddr BufMap.get
  rw [h]

/-- Two buffers that hold the same pixel hold the same bytes of it. -/
theorem HoldsPixel.bufByte_eq {s t : State} {b c : Buf} {off : Nat} {ch : Byte} {px : Pixel} (h : HoldsPixel s b off ch px)
    (g : HoldsPixel t c off ch px) (hch : ch = 3#8 ∨ ch = 4#8) {r : Nat} (hr : r < ch.toNat) :
    bufByte s b (off + r) = bufByte t c (off + r) := by
  obtain ⟨h0, h1, h2, h3⟩ := h
  obtain ⟨g0, g1, g2, g3⟩ := g
  match r, hr with
  | 0, _ => exact h0.trans g0.symm
  | 1, _ => exact h1.trans g1.symm
  | 2, _ => exact h2.trans g2.symm
  | r + 3, hr =>
    obtain rfl | rfl := hch
    · simp at hr
    · obtain rfl : r = 0 := by simp at hr; omega
      exact (h3 rfl).trans (g3 rfl).symm

/-- Settles O40: the encoder writes the header and chunks that decode to the image, and the decoder, on those bytes, puts the
image out. -/
theorem decodingAnEncodingGivesTheImage : Obligations.DecodingAnEncodingGivesTheImage := by
  intro s hs he hd hf hl himage hroom hpout hpin hbin hbinpout pixels
  have ready : Ready (beginEnc s) := beginEnc_ready hs hd hf hl himage hroom hpin
  obtain ⟨t, ht, tdone, tbufs, tcfg, tdec, is, p, c, d, held, hlen⟩ := ready.run (n := pixels) rfl
  have tidle : decBusy t = false := by rw [decBusy, tdec]; exact hd
  have tenc : encBusy t = false := by rw [encBusy, tdone]; rfl
  have tbin : t.bufs.bin = t.bufs.bout := by rw [tbufs]; exact hbin
  have tapart : t.bufs.bin.disjoint t.bufs.pout = true := by rw [tbufs]; exact hbinpout
  have gets : GetsBytes (startDec t.encRegs.outLen t) .bin 0 (headerOf (beginEnc s) ++ rowBytes is) := fun j hj =>
    (inputByte_bin_idle (s := startDec _ t) tenc _).trans ((bufByte_bin_eq tbin _).trans (held j hj))
  have hheader : headerOf (beginEnc s) = headerBytes t.cfg.magic s.encRegs.width s.encRegs.height s.encRegs.channels
      s.encRegs.colorspace := by rw [tcfg]; rfl
  have hlength : ((List.range pixels).map (imagePixel (beginEnc s))).length = pixels := by
    rw [List.length_map, List.length_range]
  rw [hheader] at gets hlen
  rw [← show t.cfg = s.cfg from tcfg] at hf
  obtain ⟨u, hu, ⟨udone, -, uw, uh, uch, ucs, ulen⟩, upix⟩ :=
    decTurns_stream (s := startDec t.encRegs.outLen t) rfl tenc tapart hf d hlength (by show _ ≤ t.bufs.pout.cap; rw [tbufs, ← hl]; exact hpout) gets hlen
  rw [hlength] at hu
  refine ⟨t, { u with script := [] }, ?_, tdone, ?_, udone, uw, uh, uch, ucs, ulen.trans hl.symm, fun off hoff => ?_⟩
  · rw [coreRun_next (pixels + 2) (step_encStart he hpin _), ht]
  · rw [steps_decStart tidle tapart]
    exact coreRun_decTurns hu
  · obtain ⟨-, -, hch⟩ := fieldError_ch hf
    have hpos : 0 < s.encRegs.channels.toNat := by omega
    have hj : off / s.encRegs.channels.toNat < pixels := Nat.div_lt_of_lt_mul (by rw [Nat.mul_comm]; exact hl ▸ hoff)
    have hout := upix _ (hlength.symm ▸ hj)
    rw [List.getElem_map, List.getElem_range] at hout
    have same := HoldsPixel.bufByte_eq hout (ready.holds hj) (hch.imp And.left And.left) (Nat.mod_lt off hpos)
    rwa [Nat.div_add_mod'] at same

end Sys2Proof.Machine
end

section
/-! PROOF. The statements of spec/44_commands.md: what the two commands do (R117 to R119), and that a begun encode and a begun
decode end (R121). -/

namespace Sys2Proof.Machine

/-! ### The host commands (R117 to R119) -/

/-- ENC_START on an encoder that is not busy, its own two buffers apart (R117). -/
theorem exec_encStart_begins {s : State} (hb : encBusy s = false) (hp : encPlaced s = true) (x : BitVec 31) :
    exec (.encStart x) s = .next (beginEnc s) := by
  rw [exec, execEncStart, if_neg (by simp [hb]), if_pos hp]

/-- DEC_START on a decoder that is not busy, its own two buffers apart (R118). -/
theorem exec_decStart_begins {s : State} (hb : decBusy s = false) (hp : decPlaced s = true) (x : BitVec 31) :
    exec (.decStart x) s = .next (beginDec s) := by
  rw [exec, execDecStart, if_neg (by simp [hb]), if_pos hp]

/-- ENC_START on a busy encoder (R119). -/
theorem exec_encStart_busy {s : State} (hb : encBusy s = true) (x : BitVec 31) : exec (.encStart x) s = .next s := by
  rw [exec, execEncStart, if_pos hb]

/-- DEC_START on a busy decoder (R119). -/
theorem exec_decStart_busy {s : State} (hb : decBusy s = true) (x : BitVec 31) : exec (.decStart x) s = .next s := by
  rw [exec, execDecStart, if_pos hb]

/-- Settles O17: the next state is the begun encode, its counter of free values moved on. -/
theorem encStartBeginsOperation : Obligations.EncStartBeginsOperation :=
  fun s x hb hp => ⟨s.freeCount + 1, exec_encStart_begins hb hp x⟩

/-- Settles O18: the next state is the begun decode, its counter of free values moved on. -/
theorem decStartBeginsOperation : Obligations.DecStartBeginsOperation :=
  fun s x hb hp => ⟨s.freeCount + 1, exec_decStart_begins hb hp x⟩

/-- Settles O19: a busy engine's START answers the state it was given. -/
theorem startWhileBusyIgnored : Obligations.StartWhileBusyIgnored :=
  fun _ x => ⟨fun hb => exec_encStart_busy hb x, fun hb => exec_decStart_busy hb x⟩

/-! ### An encode ends (R83, R85, R95, R121) -/

/-- With no turn scripted an encode with `k` pixels left is DONE after `k + 1` steps: each LOOP step codes a pixel, then TAIL
(log 9). -/
theorem Encoding.finishes {o : State} (ready : Ready o) : ∀ (k : Nat) {s : State}, Encoding o s → s.script = [] →
    s.enc.i + k = o.enc.w.toNat * o.enc.h.toNat → ∃ t, core.run (k + 1) s = .next t ∧ t.enc.phase = .done
  | 0, s, h, hs, hi => by
    obtain ⟨t, ht, hdone, -⟩ := h.tail ready hi
    exact ⟨t, coreRun_next 0 ((step_encoder hs (h.idle ready)).trans ht), hdone⟩
  | k + 1, s, h, hs, hi => by
    obtain ⟨t, ht, ht', hti, hts⟩ := h.pixel ready (by omega)
    obtain ⟨u, hu, hdone⟩ := Encoding.finishes ready k ht' (hts.trans hs) (by omega)
    exact ⟨u, (coreRun_next (k + 1) ((step_encoder hs (h.idle ready)).trans ht)).trans hu, hdone⟩

/-- Settles O52: a failing check raises its error; else VALIDATE, a LOOP step for each pixel, TAIL. -/
theorem encodeFinishes : Obligations.EncodeFinishes := by
  intro s hsound hs hd hp
  constructor
  · intro hfail
    obtain ⟨e, he⟩ := Option.ne_none_iff_exists'.mp hfail
    exact ⟨raiseEnc e s, coreRun_next 0 ((step_encoder hs hd).trans (encTurn_raises hp he)), rfl⟩
  · intro hpass hroom himage
    have ready : Ready s := ⟨hsound, hp, hd, hpass, hroom, himage⟩
    obtain ⟨t, ht, hEnc, hti, hts⟩ := ready.validate s.script
    obtain ⟨u, hu, hdone⟩ := hEnc.finishes ready _ (hts.trans hs) (by rw [hti, Nat.zero_add])
    exact ⟨u, (coreRun_next _ ((step_encoder hs hd).trans ht)).trans hu, hdone⟩

/-! ### A decode ends (R99, R101, R121) -/

/-- An engine that gets a row of bytes gets every part of it. -/
theorem GetsBytes.slice {s : State} {b : Buf} {bs : List Byte} (h : GetsBytes s b 0 bs) (off n : Nat) :
    GetsBytes s b off ((bs.drop off).take n) := fun j hj => by
  rw [List.length_take, List.length_drop] at hj
  rw [List.getElem_take, List.getElem_drop, ← h (off + j) (by omega), Nat.zero_add]

/-- With a chunk's greatest length of a placed stream still ahead, the chunk at `d.ip` is fetched: every tag byte with its
operands decodes (R60, R61, R63). -/
theorem fetchChunk_completes {s : State} {stream : List Byte} (h : GetsBytes s .bin 0 stream)
    (hl : s.dec.ip + 5 ≤ stream.length) : ∃ i, fetchChunk s = .next i := by
  have hip : s.dec.ip < stream.length := by omega
  have hchunk := h.slice s.dec.ip ((kindOf stream[s.dec.ip]).length - 1 + 1)
  rw [List.drop_eq_getElem_cons hip, List.take_succ_cons] at hchunk
  have hlen : ((stream.drop (s.dec.ip + 1)).take ((kindOf stream[s.dec.ip]).length - 1)).length =
      (kindOf stream[s.dec.ip]).length - 1 := by
    have : (kindOf stream[s.dec.ip]).length ≤ 5 := by cases kindOf stream[s.dec.ip] <;> decide
    rw [List.length_take, List.length_drop]
    omega
  obtain ⟨i, hi⟩ := decodeChunk_total _ _ hlen
  exact ⟨i, fetchChunk_eq s _ _ i [] hlen hchunk hi⟩

/-- A sound decoder that takes the next steps (log 9), on a placed stream of its latched length and in a
`POUT` it may write (R49). -/
structure Reading (stream : List Byte) (s : State) : Prop where
  sound : Sound s
  unscripted : s.script = []
  length : stream.length = s.dec.len
  gets : GetsBytes s .bin 0 stream
  clear : PoutClear s

/-- In LOOP a reading decoder's step completes: a replay, the chunk at `d.ip`, or INCOMPLETE IMAGE (R101). -/
theorem Reading.completes {stream : List Byte} {s : State} (h : Reading stream s) (hp : s.dec.phase = .loop) :
    ∃ t, decTurn s = .next t := by
  have hroom := room_of_sound h.sound h.clear hp
  by_cases hr : s.dec.run = 0#6
  · by_cases hip : s.dec.ip < s.dec.stop
    · obtain ⟨hlen, hstop⟩ := (h.sound.dec.running hp).region
      obtain ⟨i, hf⟩ := fetchChunk_completes h.gets (by have := h.length; omega)
      obtain ⟨hi, hw, hb⟩ := fetchChunk_eq_next hf
      obtain ⟨t, ht, -⟩ := exec_runs hi hroom
      exact ⟨t, (decTurn_chunk hi hw hp hr hip hb).trans ht⟩
    · exact ⟨_, decTurn_missing hp hr (Nat.le_of_not_lt hip)⟩
  · obtain ⟨t, ht, -⟩ := replay_runs s hroom
    exact ⟨t, (decTurn_replay hp hr).trans ht⟩

/-- A sound decoder in LOOP has room for one pixel at least (R42, R49, R101). -/
theorem Reading.roomForOne {stream : List Byte} {s : State} (h : Reading stream s) (hp : s.dec.phase = .loop) :
    RoomFor s 1 := by
  have r := h.sound.dec.running hp
  obtain ⟨-, -, hch⟩ := fieldError_ch r.checked
  have hch : s.dec.ch = 3#8 ∨ s.dec.ch = 4#8 := hch.imp And.left And.left
  refine ⟨hch, r.owed, r.room, ?_⟩
  have := (room_of_sound h.sound h.clear hp).2
  rwa [pixelSize_eq hch, ← Nat.one_mul s.dec.ch.toNat, ← Nat.mul_assoc, Nat.mul_one] at this

/-- A reading decoder that has put out a pixel goes on reading (R50, R111). -/
theorem Reading.afterPixel {stream : List Byte} {s t : State} (h : Reading stream s) (hp : s.dec.phase = .loop)
    (ht : decTurn s = .next t) {px : Pixel} (o : PixelOut s t px) : Reading stream t := by
  have room := h.roomForOne hp
  obtain ⟨-, henc, -, hb, hs, -, -⟩ := o.others
  obtain ⟨hlen, -⟩ := o.latched
  refine ⟨decTurn_sound h.sound ht, hs.trans h.unscripted, h.length.trans hlen.symm, ?_, ?_⟩
  · exact (o.single room.channels).getsBin room (h.sound.dec.placed (decBusy_iff.mpr (.inr hp))) h.gets
  · have := h.clear
    rwa [PoutClear, encBusy, ← henc, ← hb] at this

/-- The decoder is in DONE or ERROR (R121). -/
def DecEnded (s : State) : Prop := s.dec.phase = .done ∨ s.dec.phase = .error

/-- A LOOP step ends the decode, or leaves it reading with one more pixel out (R101, R112, R113). -/
theorem Reading.loopStep {stream : List Byte} {s : State} (h : Reading stream s) (hp : s.dec.phase = .loop) :
    ∃ t, step s = .next t ∧
      (DecEnded t ∨ Reading stream t ∧ t.dec.phase = .loop ∧ t.dec.k = s.dec.k + 1 ∧ t.dec.n = s.dec.n) := by
  obtain ⟨t, ht⟩ := h.completes hp
  refine ⟨t, (step_decoder h.unscripted (decBusy_iff.mpr (.inr hp))).trans ht, ?_⟩
  obtain ⟨hk, o, -⟩ | ⟨-, -, -, herr, -⟩ := loopStepProducesOnePixelOrFails s t hp ht
  · by_cases hlast : s.dec.k + 1 = s.dec.n
    · exact .inl (.inl (o.last hlast).1)
    · obtain ⟨-, -, -, -, -, hn, -⟩ := o.latched
      exact .inr ⟨h.afterPixel hp ht o, (o.more hlast).1.trans hp, hk, hn⟩
  · exact .inl (.inr herr)

/-- In LOOP a reading decoder ends within as many steps as pixels are owed (R101, R121). -/
theorem Reading.finishes {stream : List Byte} : ∀ (m : Nat) {s : State}, Reading stream s → s.dec.phase = .loop →
    s.dec.n ≤ s.dec.k + m → ∃ j t, core.run j s = .next t ∧ DecEnded t ∧ j ≤ m
  | 0, s, h, hp, hm => absurd (h.sound.dec.running hp).owed (Nat.not_lt.mpr hm)
  | m + 1, s, h, hp, hm => by
    obtain ⟨t, ht, hended | ⟨h', hp', hk, hn⟩⟩ := h.loopStep hp
    · exact ⟨1, t, coreRun_next 0 ht, hended, Nat.le_add_left 1 m⟩
    · obtain ⟨j, u, hu, hended, hj⟩ := Reading.finishes m h' hp' (by omega)
      exact ⟨j + 1, u, (coreRun_next j ht).trans hu, hended, Nat.succ_le_succ hj⟩

/-- One of the first bytes of a list is the list's. -/
theorem getD_take_of_lt {bs : List Byte} {j n : Nat} (h : j < n) : (bs.take n).getD j 0#8 = bs.getD j 0#8 := by
  rw [List.getD_eq_getElem?_getD, List.getElem?_take_of_lt h, List.getD_eq_getElem?_getD]

/-- A number in the first bytes of a list is the list's. -/
theorem wordAt_take {bs : List Byte} {i n : Nat} (h : i + 4 ≤ n) : wordAt (bs.take n) i = wordAt bs i := by
  simp (disch := omega) only [wordAt, getD_take_of_lt]

/-- The dimensions a stream's header declares, and the capacity a decode of it needs (R42, R52). -/
theorem parseHeader_stream {stream : List Byte} (hl : 14 ≤ stream.length) :
    (parseHeader (stream.take 14)).w.toNat = wordAt stream 4 ∧ (parseHeader (stream.take 14)).h.toNat = wordAt stream 8 ∧
      decCapacity (parseHeader (stream.take 14)) = wordAt stream 4 * wordAt stream 8 * (stream.getD 12 0#8).toNat := by
  have h14 : (stream.take 14).length = 14 := List.length_take_of_le hl
  have hcap := decCapacity_parseHeader h14
  obtain ⟨hparse, hw, hh⟩ := parseHeader_eq _ h14
  rw [wordAt_take (by decide), wordAt_take (by decide)] at hparse hcap
  rw [wordAt_take (by decide)] at hw hh
  rw [getD_take_of_lt (by decide)] at hcap
  exact ⟨hparse ▸ Nat.mod_eq_of_lt hw, hparse ▸ Nat.mod_eq_of_lt hh, hcap⟩

/-- HEADER on a placed stream, with room for the image it declares, ends the decode or leaves it reading in LOOP with all
the declared pixels owed (R42, R73, R74, R99). -/
theorem Reading.header {stream : List Byte} {s : State} (h : Reading stream s) (hp : s.dec.phase = .header)
    (hroom : wordAt stream 4 * wordAt stream 8 * (stream.getD 12 0#8).toNat ≤ s.bufs.pout.cap) :
    ∃ t, step s = .next t ∧ (DecEnded t ∨ Reading stream t ∧ t.dec.phase = .loop ∧ t.dec.k = 0 ∧
      t.dec.n = wordAt stream 4 * wordAt stream 8) := by
  rw [step_decoder h.unscripted (decBusy_iff.mpr (.inl hp)), decTurn_header hp]
  by_cases hl : s.dec.len < 14
  · exact ⟨_, decHeader_short hl, .inl (.inr rfl)⟩
  have hl : 14 ≤ s.dec.len := Nat.le_of_not_lt hl
  have h14 : (stream.take 14).length = 14 := List.length_take_of_le (h.length ▸ hl)
  have hb : GetsBytes s .bin 0 (stream.take 14) := h.gets.slice 0 14
  obtain ⟨hw, hh, hcap⟩ := parseHeader_stream (h.length ▸ hl)
  cases he : headerError s.cfg (parseHeader (stream.take 14)) with
  | some e => exact ⟨_, decHeader_fails hl h14 hb he, .inl (.inr rfl)⟩
  | none =>
    have ht := decHeader_passes hl h14 hb ((headerError_eq_none h14).mp he) (hcap.trans_le hroom)
    exact ⟨_, ht, .inr ⟨⟨decTurn_sound h.sound ((decTurn_header hp).trans ht), h.unscripted, h.length, h.gets, h.clear⟩,
      rfl, rfl, congrArg₂ (· * ·) hw hh⟩⟩

/-- Settles O53: HEADER ends the decode in its one step, or leaves as many LOOP steps as declared pixels. -/
theorem decodeFinishes : Obligations.DecodeFinishes := by
  intro s stream hsound hs hp hlen hb hroom hclear
  have h : Reading stream s := ⟨hsound, hs, hlen, hb, hclear⟩
  obtain ⟨t, ht, hended | ⟨h', hp', hk, hn⟩⟩ := h.header hp hroom
  · exact ⟨1, t, coreRun_next 0 ht, hended, .inl (Nat.le_refl 1)⟩
  · obtain ⟨j, u, hu, hended, hj⟩ := h'.finishes _ hp' (by rw [hn, hk, Nat.zero_add])
    exact ⟨j + 1, u, (coreRun_next j ht).trans hu, hended, .inr (Nat.succ_le_succ hj)⟩

end Sys2Proof.Machine
end

section
/-! PROOF. The statement of spec/60_exceptions.md about the order of the engines' steps (R138). It and the one about R139
rest on one account of an engine's turn: what it looks at, and what it then does in every state that looks the same. -/

namespace Sys2Proof.Machine

/-! ### A change of memory inside a region -/

/-- A change of memory inside a region: no byte outside it changes, and what an address holds afterwards depends only on what
it held. -/
structure ChangesIn (r : Region) (f : Memory → Memory) : Prop where
  wf : ∀ m : Memory, m.wf → (f m).wf
  outside : ∀ (m : Memory) k, r.has k = false → (f m).read k = m.read k
  bytewise : ∀ (m n : Memory) k, m.read k = n.read k → (f m).read k = (f n).read k

/-- No change. -/
theorem ChangesIn.none (r : Region) : ChangesIn r id := ⟨fun _ => id, fun _ _ _ => rfl, fun _ _ _ => id⟩

/-- Bytes stored at an offset of a buffer in which they have a place. -/
theorem ChangesIn.stored {s : State} {b : Buf} {off : Nat} {bs : List Byte}
    (h : bs = [] ∨ off + bs.length ≤ (s.bufs.get b).cap) :
    ChangesIn (s.bufs.get b) fun m => m.writeAll (bufAddr s b off) bs where
  wf m := Memory.wf_writeAll bs m _
  outside m k hk := by
    rw [Memory.read_writeAll]
    refine if_neg fun hin => ?_
    obtain rfl | h := h
    · simp only [List.length_nil] at hin
      omega
    · simp only [Region.has, bufAddr, Bool.and_eq_false_iff, decide_eq_false_iff_not] at hk hin
      omega
  bytewise m n k hk := by simp only [Memory.read_writeAll, hk]

/-- The known bytes of the region freed (log 11). -/
theorem ChangesIn.freed (r : Region) (v : Nat → Byte) : ChangesIn r fun m => m.freeIf r.has v where
  wf m := Memory.wf_freeIf m r.has v
  outside m k hk := by rw [Memory.read_freeIf, if_neg (by simp [hk])]
  bytewise m n k hk := by simp only [Memory.read_freeIf, hk]

/-- Changes inside regions that share no byte commute. -/
theorem ChangesIn.comm {p q : Region} {f g : Memory → Memory} (hf : ChangesIn p f) (hg : ChangesIn q g)
    (h : p.disjoint q = true) {m : Memory} (hm : m.wf) : f (g m) = g (f m) := by
  refine Memory.ext_read _ _ (hf.wf _ (hg.wf m hm)) (hg.wf _ (hf.wf m hm)) fun k => ?_
  cases hk : p.has k
  · calc (f (g m)).read k = (g m).read k := hf.outside _ k hk
      _ = (g (f m)).read k := hg.bytewise _ _ k (hf.outside m k hk).symm
  · have hq := Region.disjoint_has h hk
    calc (f (g m)).read k = (f m).read k := hf.bytewise _ _ k (hg.outside m k hq)
      _ = (g (f m)).read k := (hg.outside _ k hq).symm

/-! ### The encoder's turn in every state that looks the same to it -/

/-- All the encoder's turn looks at is the same: its registers, the parameters, the placement, what it gets from `PIN`, and
which bytes of `BOUT` are the busy decoder's. -/
structure EncSees (s u : State) : Prop where
  enc : u.enc = s.enc
  encRegs : u.encRegs = s.encRegs
  cfg : u.cfg = s.cfg
  bufs : u.bufs = s.bufs
  input : ∀ off, inputByte u .pin off = inputByte s .pin off
  owned : ∀ k, s.bufs.bout.has k = true → decOwns u k = decOwns s k

theorem EncSees.refl (s : State) : EncSees s s := ⟨rfl, rfl, rfl, rfl, fun _ => rfl, fun _ _ => rfl⟩

theorem EncSees.symm {s u : State} (h : EncSees s u) : EncSees u s :=
  ⟨h.enc.symm, h.encRegs.symm, h.cfg.symm, h.bufs.symm, fun off => (h.input off).symm,
    fun k hk => (h.owned k (h.bufs ▸ hk)).symm⟩

/-- The effect of a turn is the same. -/
theorem EncEffect.seen {s u : State} {off : Nat} {bs : List Byte} {e : Enc} {r : EncRegs} (p : EncEffect s off bs e r)
    (h : EncSees s u) : EncEffect u off bs e r := by
  have fetch (j : Nat) : fetchPixel j u = fetchPixel j s := fetchPixel_congr (congrArg Enc.ch h.enc) h.input j
  obtain ⟨henc, hregs, hcfg, hbufs, -, -⟩ := h
  obtain ⟨ucfg, uenc, udec, uencRegs, udecRegs, ubufs, umem, uscript, urdata, ufree⟩ := u
  dsimp only at henc hregs hcfg hbufs
  subst henc hregs hcfg hbufs
  cases p with
  | idle hb => exact .idle hb
  | failed e hp he => exact .failed e hp he
  | header hp he hc => exact .header hp he hc
  | extended hp hf hn => exact .extended hp ((fetch _).trans hf) hn
  | flushed hp hf hn => exact .flushed hp ((fetch _).trans hf) hn
  | differed px hp hf hne => exact .differed px hp ((fetch _).trans hf) hne
  | ended hp => exact .ended hp

/-- A turn that completed stored bytes that were free (R49). -/
theorem EncEffect.free {s : State} {off : Nat} {bs : List Byte} {e : Enc} {r : EncRegs} (p : EncEffect s off bs e r)
    (h : encTurn s = .next (afterStore s off bs e r)) : FreeAt s .bout off bs.length := by
  obtain ⟨hoff, hlen⟩ := p.extent
  intro j hj
  rw [hlen] at hj
  split at hj
  case isTrue => omega
  case isFalse hne =>
    have hop : off + j < e.op := by omega
    exact eq_false_of_ne_true (encTurn_stored_free h hne (hoff ▸ Nat.le_add_right off j) hop)

/-- What the encoder's turn does, in `s` and in every state that looks the same to it: it leaves the registers `e` and `r` and
changes memory by `g`, inside `BOUT`. -/
structure EncDoes (s : State) (e : Enc) (r : EncRegs) (g : Memory → Memory) : Prop where
  change : ChangesIn s.bufs.bout g
  turn : ∀ u, EncSees s u → encTurn u = .next { u with enc := e, encRegs := r, mem := g u.mem }

/-- Every turn of the encoder that completes is such. -/
theorem encTurn_does {s t : State} (h : encTurn s = .next t) : ∃ e r g, EncDoes s e r g := by
  obtain ⟨off, bs, e, r, p, hfit, rfl⟩ := encTurn_effect h
  refine ⟨e, r, fun m => m.writeAll (bufAddr s .bout off) bs, .stored (b := .bout) hfit, fun u hu => ?_⟩
  have hfree : FreeAt u .bout off bs.length := fun j hj => by
    have hin := stored_byte (b := .bout) (hfit.imp_left fun hb => by rw [hb]; rfl) (p.free h)
      (a := bufAddr s .bout (off + j)) (by simp only [bufAddr]; omega)
    rw [bufAddr, hu.bufs]
    exact (hu.owned _ hin.1).trans hin.2
  rw [(p.seen hu).runs (by rwa [FitsBout, hu.bufs]) hfree, afterStore, bufAddr, hu.bufs]
  rfl

/-! ### The decoder's turn in every state that looks the same to it -/

/-- All the decoder's turn looks at is the same: its registers, the parameters, the placement, the counter of free values, what
it gets from `BIN`, and which bytes of `POUT` are the busy encoder's. -/
structure DecSees (s u : State) : Prop where
  dec : u.dec = s.dec
  decRegs : u.decRegs = s.decRegs
  cfg : u.cfg = s.cfg
  bufs : u.bufs = s.bufs
  freeCount : u.freeCount = s.freeCount
  input : ∀ off, inputByte u .bin off = inputByte s .bin off
  owned : ∀ k, s.bufs.pout.has k = true → encOwns u k = encOwns s k

theorem DecSees.refl (s : State) : DecSees s s := ⟨rfl, rfl, rfl, rfl, rfl, fun _ => rfl, fun _ _ => rfl⟩

theorem DecSees.symm {s u : State} (h : DecSees s u) : DecSees u s :=
  ⟨h.dec.symm, h.decRegs.symm, h.cfg.symm, h.bufs.symm, h.freeCount.symm, fun off => (h.input off).symm,
    fun k hk => (h.owned k (h.bufs ▸ hk)).symm⟩

/-- The decoder gets the same bytes of the stream. -/
theorem DecSees.gets {s u : State} (h : DecSees s u) {off : Nat} {bs : List Byte} (hb : GetsBytes s .bin off bs) :
    GetsBytes u .bin off bs := fun j hj => (h.input _).trans (hb j hj)

/-- There is the same room for the next pixel. -/
theorem DecSees.room {s u : State} (h : DecSees s u) (hr : RoomForPixel s) : RoomForPixel u := by
  obtain ⟨hfit, hfree⟩ := hr
  rw [RoomForPixel, PixelFits, h.dec, h.bufs]
  refine ⟨hfit, fun j hj => ?_⟩
  have hin := stored_byte (b := .pout) (.inr hfit) hfree (a := bufAddr s .pout (s.dec.k * s.dec.ch.toNat + j))
    (by simp only [bufAddr]; omega)
  rw [bufAddr, h.bufs]
  exact (h.owned _ hin.1).trans hin.2

/-- What the decoder's turn does, in `s` and in every state that looks the same to it: it leaves the registers `d` and `r` and
changes memory by `f`, inside `POUT`. -/
structure DecDoes (s : State) (d : Dec) (r : DecRegs) (f : Memory → Memory) : Prop where
  change : ChangesIn s.bufs.pout f
  turn : ∀ u, DecSees s u → decTurn u = .next { u with dec := d, decRegs := r, mem := f u.mem }

/-- The decoder's registers once a pixel is out (R111, R112). -/
def afterPixel (d : Dec) : Dec :=
  if d.k + 1 = d.n then { d with k := d.k + 1, phase := .done, err := none } else { d with k := d.k + 1 }

/-- The result registers once a pixel is out (R112). -/
def resultsAfterPixel (d : Dec) (r : DecRegs) : DecRegs :=
  if d.k + 1 = d.n then
    { r with width := d.w, height := d.h, channels := d.ch, colorspace := d.cs, outLen := d.n * d.ch.toNat }
  else r

/-- OUTPUT with room, and the DONE check after it. -/
theorem output_finish_eq {px : Pixel} {s : State} (h : RoomForPixel s) :
    andThen (output px s) (fun t => .next (finish t)) = .next { s with
      dec := afterPixel s.dec, decRegs := resultsAfterPixel s.dec s.decRegs,
      mem := s.mem.writeAll (bufAddr s .pout (s.dec.k * s.dec.ch.toNat)) (pixelBytes s.dec.ch px) } := by
  rw [output_eq px s h, andThen_next, afterPixel, resultsAfterPixel]
  split
  case isTrue hlast => rw [finish_last _ hlast]
  case isFalse hmore => rw [finish_more _ hmore]

/-- A turn that puts out the pixel `px`, from decoder registers `d` that have not counted it yet. -/
theorem DecDoes.pixel {s : State} {px : Pixel} {d : Dec} (hroom : RoomForPixel s)
    (hd : d.k = s.dec.k ∧ d.ch = s.dec.ch)
    (turn : ∀ u, DecSees s u → decTurn u = andThen (output px { u with dec := d }) fun t => .next (finish t)) :
    DecDoes s (afterPixel d) (resultsAfterPixel d s.decRegs) fun m =>
      m.writeAll (bufAddr s .pout (d.k * d.ch.toNat)) (pixelBytes d.ch px) where
  change := by
    rw [hd.1, hd.2]
    exact .stored (b := .pout) (.inr (pixelBytes_length s.dec.ch px ▸ hroom.1))
  turn u hu := by
    have hroom' : RoomForPixel { u with dec := d } := by
      have hr := hu.room hroom
      simp only [RoomForPixel, PixelFits, hu.dec, ← hd.1, ← hd.2] at hr
      exact hr
    rw [turn u hu, output_finish_eq hroom', bufAddr, hu.bufs, hu.decRegs]
    rfl

/-- A turn that raises the error `e` once its registers are `d`: the whole of `POUT` is freed (R131). -/
theorem DecDoes.raised {s : State} {e : Err} {d : Dec}
    (turn : ∀ u, DecSees s u → decTurn u = .next (raiseDec e { u with dec := d })) :
    DecDoes s { d with phase := .error, err := some e } s.decRegs
      fun m => m.freeIf s.bufs.pout.has (Config.leftByte s.freeCount) where
  change := .freed _ _
  turn u hu := by
    rw [turn u hu, raiseDec, hu.bufs, hu.freeCount, ← hu.decRegs]

/-- HEADER that completes: a short stream, a failing check, or the set-up. -/
theorem decHeader_does {s t : State} (hp : s.dec.phase = .header) (h : decHeader s = .next t) :
    ∃ d r f, DecDoes s d r f := by
  have header {u : State} (hu : DecSees s u) : decTurn u = decHeader u := decTurn_header (hu.dec ▸ hp)
  obtain ⟨hl, rfl⟩ | ⟨bs, hl, h14, hb, ⟨e, he, rfl⟩ | ⟨he, hc, rfl⟩⟩ := decHeader_cases h
  · exact ⟨_, _, _, .raised (e := .incompleteImage) (d := s.dec) fun u hu =>
      (header hu).trans (hu.dec ▸ decHeader_short (hu.dec ▸ hl))⟩
  · exact ⟨_, _, _, .raised (e := e) (d := (readHeader (parseHeader bs) s).dec) fun u hu => by
      rw [header hu, decHeader_fails (hu.dec ▸ hl) h14 (hu.gets hb) (hu.cfg ▸ he), readHeader, readHeader, hu.dec]⟩
  · refine ⟨(setUpDec (readHeader (parseHeader bs) s)).dec, s.decRegs, id, .none _, fun u hu => ?_⟩
    have hpass : HeaderPasses u.cfg bs := hu.cfg ▸ (headerError_eq_none h14).mp he
    rw [header hu, decHeader_passes (hu.dec ▸ hl) h14 (hu.gets hb) hpass (hu.bufs ▸ hc)]
    simp only [setUpDec, readHeader, hu.dec, ← hu.decRegs, id]

/-- The decoder's registers once a chunk is read and its pixel committed (R101, R107, R110). -/
def afterCommit (i : Instr) (d : Dec) : Dec :=
  { d with
    ip := d.ip + (chunkBytes i).length, run := chunkOwes i d.run, prev := chunkPixel i d.prev d.cache,
    cache := cachePut d.cache (hash (chunkPixel i d.prev d.cache)) (chunkPixel i d.prev d.cache) }

/-- A chunk is the commit of its pixel, OUTPUT, and the DONE check. -/
theorem exec_eq_output {i : Instr} (hi : isChunk i = true) (s : State) : exec i s =
    andThen (output (chunkPixel i s.dec.prev s.dec.cache) { s with dec := afterCommit i s.dec })
      fun t => .next (finish t) :=
  exec_eq_produce hi s

/-- LOOP that completes: a replay, a chunk, or INCOMPLETE IMAGE. -/
theorem decLoop_does {s t : State} (hp : s.dec.phase = .loop) (h : decTurn s = .next t) : ∃ d r f, DecDoes s d r f := by
  obtain ⟨hr, ht⟩ | ⟨hr, hip, i, hi, hw, hb, ht⟩ | ⟨hr, hip, -⟩ := decTurn_loop_cases hp h
  · exact ⟨_, _, _, .pixel (px := s.dec.prev) (d := { s.dec with run := s.dec.run - 1#6 }) (replay_room ht) ⟨rfl, rfl⟩
      fun u hu => by rw [decTurn_replay (hu.dec ▸ hp) (hu.dec ▸ hr), replay, hu.dec]⟩
  · exact ⟨_, _, _, .pixel (d := afterCommit i s.dec) (exec_chunk_cases hi ht).1 ⟨rfl, rfl⟩ fun u hu => by
      rw [decTurn_chunk hi hw (hu.dec ▸ hp) (hu.dec ▸ hr) (hu.dec ▸ hip) (hu.dec ▸ hu.gets hb),
        exec_eq_output hi, hu.dec]⟩
  · exact ⟨_, _, _, .raised (e := .incompleteImage) (d := s.dec) fun u hu =>
      hu.dec ▸ decTurn_missing (hu.dec ▸ hp) (hu.dec ▸ hr) (hu.dec ▸ hip)⟩

/-- Every turn of the decoder that completes does the same in every state that looks the same to it. -/
theorem decTurn_does {s t : State} (h : decTurn s = .next t) : ∃ d r f, DecDoes s d r f := by
  cases hb : decBusy s
  · refine ⟨s.dec, s.decRegs, id, .none _, fun u hu => ?_⟩
    rw [← hu.dec, ← hu.decRegs]
    exact decTurn_idle (by rwa [decBusy, hu.dec])
  · obtain hp | hp := decBusy_iff.mp hb
    · exact decHeader_does hp ((decTurn_header hp).symm.trans h)
    · exact decLoop_does hp h

/-! ### The order of the engines' steps (R46 part 4, R138) -/

/-- A buffer reads as before when its bytes do. -/
theorem bufByte_of_read_eq {s t : State} {b : Buf} (hb : t.bufs = s.bufs)
    (hm : ∀ k, (s.bufs.get b).has k = true → t.mem.read k = s.mem.read k) (off : Nat) :
    bufByte t b off = bufByte s b off := by
  simp only [bufByte, bufAddr, hb]
  split
  case isTrue hc => exact hm _ (has_bufAddr hc)
  case isFalse => rfl

/-- Sharing no byte is symmetric. -/
theorem Region.disjoint_symm {r t : Region} (h : r.disjoint t = true) : t.disjoint r = true :=
  (t.disjoint_iff r).mpr fun a ha => (r.disjoint_iff t).mp h a ha.symm

/-- Each engine's output shares no byte with a buffer of the other. -/
structure OutputsClear (m : BufMap) : Prop where
  boutBin : m.bout.disjoint m.bin = true
  boutPout : m.bout.disjoint m.pout = true
  poutPin : m.pout.disjoint m.pin = true

/-- With the outputs clear, nothing the encoder looks at changes in a turn of the decoder. -/
theorem encSees_of_decTurn {s t : State} (hc : OutputsClear s.bufs) (h : decTurn s = .next t) : EncSees s t := by
  obtain ⟨hcfg, henc, hregs, hbufs, -, -, -⟩ := decTurn_frame h
  refine ⟨henc, hregs, hcfg, hbufs, fun off => ?_, fun k hk => ?_⟩
  · have pin (k : Nat) (hk : s.bufs.pin.has k = true) : t.mem.read k = s.mem.read k :=
      decTurn_read h (.inl (Region.disjoint_has (Region.disjoint_symm hc.poutPin) hk))
    rw [inputByte_pin_clear fun _ => hbufs ▸ hc.poutPin, inputByte_pin_clear fun _ => hc.poutPin]
    exact bufByte_of_read_eq (b := .pin) hbufs pin off
  · simp [decOwns, hbufs, Region.disjoint_has hc.boutBin hk, Region.disjoint_has hc.boutPout hk]

/-- With the outputs clear, nothing the decoder looks at changes in a turn of the encoder. -/
theorem decSees_of_encTurn {s t : State} (hc : OutputsClear s.bufs) (h : encTurn s = .next t) : DecSees s t := by
  obtain ⟨hcfg, hdec, hregs, hbufs, -, -, hfree⟩ := (encTurn_frame h).1
  refine ⟨hdec, hregs, hcfg, hbufs, hfree, fun off => ?_, fun k hk => ?_⟩
  · have bin (k : Nat) (hk : s.bufs.bin.has k = true) : t.mem.read k = s.mem.read k :=
      encTurn_read h (.inl (Region.disjoint_has (Region.disjoint_symm hc.boutBin) hk))
    rw [inputByte_bin_clear fun _ => hbufs ▸ hc.boutBin, inputByte_bin_clear fun _ => hc.boutBin]
    exact bufByte_of_read_eq (b := .bin) hbufs bin off
  · simp [encOwns, hbufs, Region.disjoint_has hc.poutPin hk, Region.disjoint_has (Region.disjoint_symm hc.boutPout) hk]

/-- With the outputs clear, two turns that complete can be taken in either order. -/
theorem turns_swap {s a c : State} (hm : s.mem.wf) (hclear : OutputsClear s.bufs) (ha : encTurn s = .next a)
    (hc : decTurn s = .next c) : decTurn a = encTurn c := by
  obtain ⟨e, r, g, henc⟩ := encTurn_does ha
  obtain ⟨d, q, f, hdec⟩ := decTurn_does hc
  obtain rfl := Host.Outcome.next.inj ((henc.turn s (.refl s)).symm.trans ha)
  obtain rfl := Host.Outcome.next.inj ((hdec.turn s (.refl s)).symm.trans hc)
  rw [hdec.turn _ (decSees_of_encTurn hclear ha), henc.turn _ (encSees_of_decTurn hclear hc),
    henc.change.comm hdec.change hclear.boutPout hm]

/-- Settles O50: an engine that is not busy adds nothing in either order; with both busy the outputs are clear, so each engine
sees the same whether or not the other has stepped. -/
theorem engineStepsCommute : Obligations.EngineStepsCommute := by
  intro s b hs hclear
  cases he : encBusy s
  case false =>
    have idle {c : State} (hc : decTurn s = .next c) : encTurn c = .next c := by
      obtain ⟨-, henc, -⟩ := decTurn_frame hc
      exact encTurn_idle (by rwa [encBusy, henc])
    rw [encTurn_idle he]
    constructor
    · rintro ⟨_, ⟨⟩, hb⟩
      exact ⟨b, hb, idle hb⟩
    · rintro ⟨c, hc, hb⟩
      obtain rfl := Host.Outcome.next.inj ((idle hc).symm.trans hb)
      exact ⟨s, rfl, hc⟩
  case true =>
    cases hd : decBusy s
    case false =>
      have idle {a : State} (ha : encTurn s = .next a) : decTurn a = .next a := by
        obtain ⟨⟨-, hdec, -⟩, -⟩ := encTurn_frame ha
        exact decTurn_idle (by rwa [decBusy, hdec])
      rw [decTurn_idle hd]
      constructor
      · rintro ⟨a, ha, hb⟩
        obtain rfl := Host.Outcome.next.inj ((idle ha).symm.trans hb)
        exact ⟨s, rfl, ha⟩
      · rintro ⟨_, ⟨⟩, hb⟩
        exact ⟨b, hb, idle hb⟩
    case true =>
      obtain ⟨hbout, hpout⟩ := hclear he hd
      have clear : OutputsClear s.bufs := ⟨(hbout hd).1, (hbout hd).2, (hpout he).1⟩
      constructor
      · rintro ⟨a, ha, hb⟩
        obtain ⟨d, r, f, hdec⟩ := decTurn_does hb
        have hc := hdec.turn s (decSees_of_encTurn clear ha).symm
        exact ⟨_, hc, (turns_swap hs.memOk clear ha hc).symm.trans hb⟩
      · rintro ⟨c, hc, hb⟩
        obtain ⟨e, r, g, henc⟩ := encTurn_does hb
        have ha := henc.turn s (encSees_of_decTurn clear hc).symm
        exact ⟨_, ha, (turns_swap hs.memOk clear ha hc).trans hb⟩

end Sys2Proof.Machine
end

section
/-! PROOF. The statement of spec/60_exceptions.md about what shows of a running operation (R139): what a read returns, then what
the host's turn does in every state that looks the same to it. -/

namespace Sys2Proof.Machine

/-! ### What a read returns (R46, R50, R131, R139) -/

/-- A host read of an unspecified byte is a free value (R46 part 3, R131; log 10). -/
theorem hostLoad_unspecified {s : State} {b : Buf} {off : Nat} (hc : off < (s.bufs.get b).cap)
    (h : unspecifiedByte s b (bufAddr s b off) = true) : hostLoad b off s =
      .next { s with rdata := (Config.freeByte s.freeCount).toNat, freeCount := s.freeCount + 1 } := by
  simp only [hostLoad, if_pos hc, hostByte, if_pos h]

/-- A host read of a specified, known byte is that byte. -/
theorem hostLoad_known {s : State} {b : Buf} {off : Nat} {v : Byte} (hc : off < (s.bufs.get b).cap)
    (h : ¬ unspecifiedByte s b (bufAddr s b off) = true) (hv : s.mem.read (bufAddr s b off) = some v) :
    hostLoad b off s = .next { s with rdata := v.toNat } := by
  simp only [hostLoad, if_pos hc, hostByte, if_neg h, hv]

/-- An engine read of a hidden byte is the free value there (log 20). -/
theorem loadByte_hidden {s : State} {b : Buf} {off : Nat} {v : Byte} (hc : off < (s.bufs.get b).cap)
    (h : hiddenByte s b (bufAddr s b off) = some v) : loadByte b off s = .next v :=
  loadByte_eq_next.mpr (by simp only [inputByte, if_pos hc, h])

/-- An engine read of a byte that is not hidden, and known, is that byte (R46 part 1, R50). -/
theorem loadByte_known {s : State} {b : Buf} {off : Nat} {v : Byte} (hc : off < (s.bufs.get b).cap)
    (h : hiddenByte s b (bufAddr s b off) = none) (hv : s.mem.read (bufAddr s b off) = some v) :
    loadByte b off s = .next v :=
  loadByte_eq_next.mpr (by simp only [inputByte, if_pos hc, h, hv])

/-- The bytes the host may not rely on. -/
theorem unspecifiedByte_iff {s : State} {b : Buf} {a : Nat} : unspecifiedByte s b a = true ↔
    (encBusy s = true ∧ s.bufs.bout.has a = true) ∨ (decBusy s = true ∧ s.bufs.pout.has a = true) ∨
      (b = .bout ∧ s.enc.phase = .error) ∨ (b = .pout ∧ s.dec.phase = .error) := by
  simp only [unspecifiedByte, Bool.or_eq_true, Bool.and_eq_true, beq_iff_eq, or_assoc]

/-! ### The host's turn in every state that looks the same to it -/

/-- All the host's turn looks at is the same: what stands beside the engines and memory, what STATUS shows of each engine, and
the bytes that are not unspecified. -/
structure HostSees (s u : State) : Prop where
  rest : u = { s with enc := u.enc, dec := u.dec, mem := u.mem }
  encState : u.enc.phase.stateField = s.enc.phase.stateField
  encErr : u.enc.err = s.enc.err
  decState : u.dec.phase.stateField = s.dec.phase.stateField
  decErr : u.dec.err = s.dec.err
  bytes : ∀ b a, unspecifiedByte s b a = false → u.mem.read a = s.mem.read a

namespace HostSees

theorem cfg {s u : State} (h : HostSees s u) : u.cfg = s.cfg := by rw [h.rest]

theorem bufs {s u : State} (h : HostSees s u) : u.bufs = s.bufs := by rw [h.rest]

theorem encBusy {s u : State} (h : HostSees s u) : encBusy u = encBusy s := by
  rw [Machine.encBusy, h.encState, Machine.encBusy]

theorem decBusy {s u : State} (h : HostSees s u) : decBusy u = decBusy s := by
  rw [Machine.decBusy, h.decState, Machine.decBusy]

/-- Every register reads the same (R33). -/
theorem reg {s u : State} (h : HostSees s u) (r : Reg) : readReg r u = readReg r s :=
  readReg_congr (by rw [h.rest]) (by rw [h.rest]) h.encState h.decState h.encErr h.decErr r

/-- The same bytes are unspecified. -/
theorem unspecified {s u : State} (h : HostSees s u) (b : Buf) (a : Nat) :
    unspecifiedByte u b a = unspecifiedByte s b a := by
  rw [Bool.eq_iff_iff, unspecifiedByte_iff, unspecifiedByte_iff]
  simp only [h.encBusy, h.decBusy, h.bufs, ← EncPhase.stateField_eq_three, ← DecPhase.stateField_eq_three, h.encState,
    h.decState]

/-- Every byte of a buffer reads the same. -/
theorem byte {s u : State} (h : HostSees s u) (b : Buf) (off : Nat) : hostByte u b off = hostByte s b off := by
  have hadr : bufAddr u b off = bufAddr s b off := by rw [bufAddr, h.bufs, bufAddr]
  rw [hostByte, hostByte, hadr, h.unspecified]
  split
  case isTrue => rfl
  case isFalse hs => exact h.bytes b _ (eq_false_of_ne_true hs)

end HostSees

theorem HostSees.refl (s : State) : HostSees s s := ⟨rfl, rfl, rfl, rfl, rfl, fun _ _ _ => rfl⟩

/-- What a turn of the host that is no reset does: it changes registers, what the host has read and the counter of free values;
or starts an engine that is not busy; or stores a byte; or places a buffer of an engine that is not busy. -/
inductive HostEffect (s : State) : (State → State) → Prop where
  | regs (er : EncRegs) (dr : DecRegs) (d n : Nat) :
      HostEffect s fun x => { x with encRegs := er, decRegs := dr, rdata := d, freeCount := n }
  | encStart (hb : encBusy s = false) : HostEffect s beginEnc
  | decStart (hb : decBusy s = false) : HostEffect s beginDec
  | store (k : Nat) (v : Byte) : HostEffect s fun x => { x with mem := x.mem.write k v }
  | place (b : Buf) (r : Region) (hb : busyBuf s b = false) : HostEffect s fun x => { x with bufs := x.bufs.set b r }

/-- The turn `m` of the host does the same in `s` and in every state that looks the same. -/
def HostDoes (s : State) (m : State → Result State) : Prop :=
  ∃ F, HostEffect s F ∧ ∀ u, HostSees s u → m u = .next (F u)

/-- A turn that only changes registers, what the host has read and the counter, to values that look the same. -/
theorem HostDoes.regs {s : State} {m : State → Result State} (er : EncRegs) (dr : DecRegs) (d n : Nat)
    (h : ∀ u, HostSees s u → m u = .next { u with encRegs := er, decRegs := dr, rdata := d, freeCount := n }) :
    HostDoes s m := ⟨_, .regs er dr d n, h⟩

/-- A turn that changes nothing. -/
theorem HostDoes.nothing {s : State} {m : State → Result State} (h : ∀ u, HostSees s u → m u = .next u) : HostDoes s m :=
  .regs s.encRegs s.decRegs s.rdata s.freeCount fun u hu => by
    rw [h u hu, hu.rest]

/-- A write to `ENC_CTRL` that completes. -/
theorem command_enc_does {s t : State} {v : Word} (h : command .enc v s = .next t) : HostDoes s (command .enc v) := by
  rw [command_enc] at h
  split at h
  case isTrue hv =>
    obtain ⟨hb, -⟩ | ⟨hb, hp, -⟩ := execEncStart_cases h
    · exact .nothing fun u hu => by rw [command_enc, if_pos hv, exec_encStart_busy (hu.encBusy.trans hb)]
    · refine ⟨_, .encStart hb, fun u hu => ?_⟩
      have hp' : encPlaced u = true := by rwa [hu.rest]
      rw [command_enc, if_pos hv, exec_encStart_begins (hu.encBusy.trans hb) hp']
  case isFalse hv => exact .nothing fun u _ => by rw [command_enc, if_neg hv]

/-- A write to `DEC_CTRL` that completes. -/
theorem command_dec_does {s t : State} {v : Word} (h : command .dec v s = .next t) : HostDoes s (command .dec v) := by
  rw [command_dec] at h
  split at h
  case isTrue hv =>
    obtain ⟨hb, -⟩ | ⟨hb, hp, -⟩ := execDecStart_cases h
    · exact .nothing fun u hu => by rw [command_dec, if_pos hv, exec_decStart_busy (hu.decBusy.trans hb)]
    · refine ⟨_, .decStart hb, fun u hu => ?_⟩
      have hp' : decPlaced u = true := by rwa [hu.rest]
      rw [command_dec, if_pos hv, exec_decStart_begins (hu.decBusy.trans hb) hp']
  case isFalse hv => exact .nothing fun u _ => by rw [command_dec, if_neg hv]

/-- A register write that completes. -/
theorem writeReg_does {s t : State} {w : RegWrite} (h : writeReg w s = .next t) : HostDoes s (writeReg w) := by
  have operands (er : EncRegs) (dr : DecRegs)
      (hw : ∀ u, HostSees s u → writeReg w u = .next { u with encRegs := er, decRegs := dr }) : HostDoes s (writeReg w) :=
    .regs er dr s.rdata s.freeCount fun u hu => by rw [hw u hu, hu.rest]
  cases w with
  | encCtrl v => exact command_enc_does h
  | decCtrl v => exact command_dec_does h
  | encWidth v => exact operands { s.encRegs with width := v } s.decRegs fun u hu => by rw [hu.rest]; rfl
  | encHeight v => exact operands { s.encRegs with height := v } s.decRegs fun u hu => by rw [hu.rest]; rfl
  | encChannels v => exact operands { s.encRegs with channels := v } s.decRegs fun u hu => by rw [hu.rest]; rfl
  | encColorspace v => exact operands { s.encRegs with colorspace := v } s.decRegs fun u hu => by rw [hu.rest]; rfl
  | encInLen v => exact operands { s.encRegs with inLen := v } s.decRegs fun u hu => by rw [hu.rest]; rfl
  | decInLen v => exact operands s.encRegs { s.decRegs with inLen := v } fun u hu => by rw [hu.rest]; rfl
  | encStatus _ | encOutLen _ | decStatus _ | decWidth _ | decHeight _ | decChannels _ | decColorspace _ | decOutLen _ =>
    exact .nothing fun u _ => rfl

/-- A register write at an address that completes: the register there is the same, and so is its write (log 8). -/
theorem hostWriteAt_does {s t : State} {k v : Nat} (h : hostWriteAt k v s = .next t) : HostDoes s (hostWriteAt k v) := by
  simp only [hostWriteAt, writeNumber] at h
  split at h
  case h_1 => cases h
  case h_2 r hr =>
    split at h
    case h_2 => cases h
    case h_1 w hw =>
      obtain ⟨F, hF, hall⟩ := writeReg_does h
      refine ⟨F, hF, fun u hu => ?_⟩
      simp only [hostWriteAt, writeNumber, hu.cfg, hr, hw]
      exact hall u hu

/-- A register read at an address that completes: the register there is the same, and reads the same (log 8). -/
theorem hostReadAt_does {s t : State} {k : Nat} (h : hostReadAt k s = .next t) : HostDoes s (hostReadAt k) := by
  simp only [hostReadAt] at h
  split at h
  case h_1 => cases h
  case h_2 r hr =>
    refine .regs s.encRegs s.decRegs (readReg r s) s.freeCount fun u hu => ?_
    simp only [hostReadAt, hu.cfg, hr, hu.reg]
    rw [hu.rest]

/-- A byte stored by the host: it lies off the busy buffers in every state that looks the same. -/
theorem hostStore_does {s t : State} {b : Buf} {off : Nat} {v : Byte} (h : hostStore b off v s = .next t) :
    HostDoes s (hostStore b off v) := by
  simp only [hostStore] at h
  split at h
  case isFalse => cases h
  case isTrue hc =>
    split at h
    case isTrue => cases h
    case isFalse hb =>
      refine ⟨_, .store (bufAddr s b off) v, fun u hu => ?_⟩
      have hadr : bufAddr u b off = bufAddr s b off := by rw [bufAddr, hu.bufs, bufAddr]
      rw [hostStore_of_not_busy (hu.bufs ▸ hc) ?_, hadr]
      rwa [hadr, busyAddr_iff, hu.encBusy, hu.decBusy, hu.bufs, ← busyAddr_iff]

/-- A byte read by the host: it is the same known byte, or the same free value, in every state that looks the same. -/
theorem hostLoad_does {s t : State} {b : Buf} {off : Nat} (h : hostLoad b off s = .next t) : HostDoes s (hostLoad b off) := by
  simp only [hostLoad] at h
  split at h
  case isFalse => cases h
  case isTrue hc =>
    have room {u : State} (hu : HostSees s u) : off < (u.bufs.get b).cap := hu.bufs ▸ hc
    cases hv : hostByte s b off with
    | some v =>
      refine .regs s.encRegs s.decRegs v.toNat s.freeCount fun u hu => ?_
      simp only [hostLoad, if_pos (room hu), hu.byte, hv]
      rw [hu.rest]
    | none =>
      refine .regs s.encRegs s.decRegs (Config.freeByte s.freeCount).toNat (s.freeCount + 1) fun u hu => ?_
      simp only [hostLoad, if_pos (room hu), hu.byte, hv]
      rw [hu.rest]

/-- A buffer placed by the host: its engine is not busy in every state that looks the same. -/
theorem hostPlace_does {s t : State} {b : Buf} {r : Region} (h : hostPlace b r s = .next t) : HostDoes s (hostPlace b r) := by
  simp only [hostPlace] at h
  split at h
  case isTrue => cases h
  case isFalse hb =>
    refine ⟨_, .place b r (eq_false_of_ne_true hb), fun u hu => if_neg ?_⟩
    rwa [busyBuf_iff, hu.encBusy, hu.decBusy, ← busyBuf_iff]

/-- A host turn that completes and is no reset does the same in every state that looks the same to the host. -/
theorem hostTurn_does {s t : State} {a : HostAccess} (ha : a ≠ .hardReset) (h : hostTurn a s = .next t) :
    HostDoes s (hostTurn a) := by
  cases a with
  | write w => exact writeReg_does h
  | read r =>
    exact .regs s.encRegs s.decRegs (readReg r s) s.freeCount fun u hu => by rw [hostTurn, hu.reg r, hu.rest]
  | writeAt k v => exact hostWriteAt_does h
  | readAt k => exact hostReadAt_does h
  | storeByte b off v => exact hostStore_does h
  | loadByte b off => exact hostLoad_does h
  | place b r => exact hostPlace_does h
  | hardReset => exact absurd rfl ha

/-! ### No value of a running operation shows (R139) -/

/-- One turn of an agent. -/
def turnOf : Turn → State → Result State
  | .enc => encTurn
  | .dec => decTurn
  | .host a => hostTurn a

/-- A step with a scripted turn is that turn, taken off the script (R26; log 9). -/
theorem step_scripted {s : State} {turn : Turn} {rest : List Turn} (h : s.script = turn :: rest) :
    step s = turnOf turn { s with script := rest } := by
  simp only [step, takeTurn, h]
  cases turn <;> rfl

/-! #### A running decode -/

namespace SameButRunningDec

theorem bufs {s u : State} (h : SameButRunningDec s u) : u.bufs = s.bufs := by rw [h.rest]

theorem enc {s u : State} (h : SameButRunningDec s u) : u.enc = s.enc := by rw [h.rest]

/-- The turns still to come do not matter. -/
theorem withScript {s u : State} (h : SameButRunningDec s u) (turns : List Turn) :
    SameButRunningDec { s with script := turns } { u with script := turns } :=
  ⟨h.busy, h.err, congrArg (fun x : State => { x with script := turns }) h.rest, h.written, h.bytes⟩

/-- The encoder sees the same: what the decode has written is hidden from it (log 20). -/
theorem encSees {s u : State} (h : SameButRunningDec s u) : EncSees s u := by
  have hfree : u.freeCount = s.freeCount := by rw [h.rest]
  refine ⟨h.enc, by rw [h.rest], by rw [h.rest], h.bufs, fun off => ?_, fun k _ => ?_⟩
  · refine inputByte_congr h.bufs (by simp only [hiddenByte, h.written, hfree]) fun _ hn => h.bytes _ ?_
    simpa [hiddenByte] using hn
  · rw [decOwns, decOwns, h.busy.1, h.busy.2, h.bufs]

/-- The host sees the same: all the running decode's output is unspecified to it (R46 part 3). -/
theorem hostSees {s u : State} (h : SameButRunningDec s u) : HostSees s u where
  rest := h.rest.trans (by rw [h.enc])
  encState := by rw [h.enc]
  encErr := by rw [h.enc]
  decState := (beq_iff_eq.mp h.busy.2).trans (beq_iff_eq.mp h.busy.1).symm
  decErr := h.err
  bytes b a hs := h.bytes a <| eq_false_of_ne_true fun hw =>
    Bool.false_ne_true (hs.symm.trans (unspecifiedByte_iff.mpr (.inr (.inl (decWrote_sub hw)))))

/-- What a turn of the encoder does keeps the two states such. -/
theorem afterEnc {s u : State} (h : SameButRunningDec s u) {r : Region} {g : Memory → Memory} (hg : ChangesIn r g) (e : Enc)
    (q : EncRegs) : SameButRunningDec { s with enc := e, encRegs := q, mem := g s.mem }
      { u with enc := e, encRegs := q, mem := g u.mem } where
  busy := h.busy
  err := h.err
  rest := congrArg (fun x : State => { x with enc := e, encRegs := q, mem := g u.mem }) h.rest
  written := h.written
  bytes a ha := hg.bytewise _ _ a (h.bytes a ha)

/-- What a turn of the host does keeps the two states such: it starts no busy decoder and moves none of its buffers. -/
theorem afterHost {s u : State} (h : SameButRunningDec s u) {F : State → State} (hF : HostEffect s F) :
    SameButRunningDec (F s) (F u) := by
  cases hF with
  | regs er dr d n =>
    have rest := congrArg (fun x : State => { x with encRegs := er, decRegs := dr, rdata := d, freeCount := n }) h.rest
    exact ⟨h.busy, h.err, rest, h.written, h.bytes⟩
  | encStart hb => exact ⟨h.busy, h.err, congrArg beginEnc h.rest, h.written, h.bytes⟩
  | decStart hb => exact absurd (hb.symm.trans h.busy.1) Bool.false_ne_true
  | store k v =>
    have rest := congrArg (fun x : State => { x with mem := u.mem.write k v }) h.rest
    refine ⟨h.busy, h.err, rest, h.written, fun a ha => ?_⟩
    simp only [Memory.read_write, h.bytes a ha]
  | place b r hb =>
    have rest := congrArg (fun x : State => { x with bufs := x.bufs.set b r }) h.rest
    cases b with
    | pin | bout => exact ⟨h.busy, h.err, rest, h.written, h.bytes⟩
    | bin | pout => exact absurd (hb.symm.trans h.busy.1) Bool.false_ne_true

/-- Every turn of the host but a reset, and every turn of the encoder, where it completes, does the same in both. -/
theorem turn_same {s u t : State} (h : SameButRunningDec s u) {turn : Turn} (hd : turn ≠ .dec)
    (hr : turn ≠ .host .hardReset) (ht : turnOf turn s = .next t) :
    ∃ v, turnOf turn u = .next v ∧ SameButRunningDec t v := by
  cases turn with
  | dec => exact absurd rfl hd
  | enc =>
    obtain ⟨e, r, g, does⟩ := encTurn_does ht
    obtain rfl := Host.Outcome.next.inj ((does.turn s (.refl s)).symm.trans ht)
    exact ⟨_, does.turn u h.encSees, h.afterEnc does.change e r⟩
  | host a =>
    obtain ⟨F, hF, does⟩ := hostTurn_does (fun ha => hr (congrArg Turn.host ha)) ht
    obtain rfl := Host.Outcome.next.inj ((does s (.refl s)).symm.trans ht)
    exact ⟨_, does u h.hostSees, h.afterHost hF⟩

end SameButRunningDec

/-! #### A running encode -/

namespace SameButRunningEnc

theorem bufs {s u : State} (h : SameButRunningEnc s u) : u.bufs = s.bufs := by rw [h.rest]

theorem dec {s u : State} (h : SameButRunningEnc s u) : u.dec = s.dec := by rw [h.rest]

theorem freeCount {s u : State} (h : SameButRunningEnc s u) : u.freeCount = s.freeCount := by rw [h.rest]

/-- The turns still to come do not matter. -/
theorem withScript {s u : State} (h : SameButRunningEnc s u) (turns : List Turn) :
    SameButRunningEnc { s with script := turns } { u with script := turns } :=
  ⟨h.busy, h.err, congrArg (fun x : State => { x with script := turns }) h.rest, h.written, h.bytes⟩

/-- The decoder sees the same: what the encode has written is hidden from it (log 20). -/
theorem decSees {s u : State} (h : SameButRunningEnc s u) : DecSees s u := by
  refine ⟨h.dec, by rw [h.rest], by rw [h.rest], h.bufs, h.freeCount, fun off => ?_, fun k _ => ?_⟩
  · refine inputByte_congr h.bufs (by simp only [hiddenByte, h.written, h.freeCount]) fun _ hn => h.bytes _ ?_
    simpa [hiddenByte] using hn
  · rw [encOwns, encOwns, h.busy.1, h.busy.2, h.bufs]

/-- The host sees the same: all the running encode's output is unspecified to it (R46 part 3). -/
theorem hostSees {s u : State} (h : SameButRunningEnc s u) : HostSees s u where
  rest := h.rest.trans (by rw [h.dec])
  encState := (beq_iff_eq.mp h.busy.2).trans (beq_iff_eq.mp h.busy.1).symm
  encErr := h.err
  decState := by rw [h.dec]
  decErr := by rw [h.dec]
  bytes b a hs := h.bytes a <| eq_false_of_ne_true fun hw =>
    Bool.false_ne_true (hs.symm.trans (unspecifiedByte_iff.mpr (.inl (encWrote_sub hw))))

/-- What a turn of the decoder does keeps the two states such. -/
theorem afterDec {s u : State} (h : SameButRunningEnc s u) {r : Region} {f : Memory → Memory} (hf : ChangesIn r f) (d : Dec)
    (q : DecRegs) : SameButRunningEnc { s with dec := d, decRegs := q, mem := f s.mem }
      { u with dec := d, decRegs := q, mem := f u.mem } where
  busy := h.busy
  err := h.err
  rest := congrArg (fun x : State => { x with dec := d, decRegs := q, mem := f u.mem }) h.rest
  written := h.written
  bytes a ha := hf.bytewise _ _ a (h.bytes a ha)

/-- What a turn of the host does keeps the two states such: it starts no busy encoder and moves none of its buffers. -/
theorem afterHost {s u : State} (h : SameButRunningEnc s u) {F : State → State} (hF : HostEffect s F) :
    SameButRunningEnc (F s) (F u) := by
  cases hF with
  | regs er dr d n =>
    have rest := congrArg (fun x : State => { x with encRegs := er, decRegs := dr, rdata := d, freeCount := n }) h.rest
    exact ⟨h.busy, h.err, rest, h.written, h.bytes⟩
  | encStart hb => exact absurd (hb.symm.trans h.busy.1) Bool.false_ne_true
  | decStart hb => exact ⟨h.busy, h.err, congrArg beginDec h.rest, h.written, h.bytes⟩
  | store k v =>
    have rest := congrArg (fun x : State => { x with mem := u.mem.write k v }) h.rest
    refine ⟨h.busy, h.err, rest, h.written, fun a ha => ?_⟩
    simp only [Memory.read_write, h.bytes a ha]
  | place b r hb =>
    have rest := congrArg (fun x : State => { x with bufs := x.bufs.set b r }) h.rest
    cases b with
    | pin | bout => exact absurd (hb.symm.trans h.busy.1) Bool.false_ne_true
    | bin | pout => exact ⟨h.busy, h.err, rest, h.written, h.bytes⟩

/-- Every turn of the host but a reset, and every turn of the decoder, where it completes, does the same in both. -/
theorem turn_same {s u t : State} (h : SameButRunningEnc s u) {turn : Turn} (he : turn ≠ .enc)
    (hr : turn ≠ .host .hardReset) (ht : turnOf turn s = .next t) :
    ∃ v, turnOf turn u = .next v ∧ SameButRunningEnc t v := by
  cases turn with
  | enc => exact absurd rfl he
  | dec =>
    obtain ⟨d, r, f, does⟩ := decTurn_does ht
    obtain rfl := Host.Outcome.next.inj ((does.turn s (.refl s)).symm.trans ht)
    exact ⟨_, does.turn u h.decSees, h.afterDec does.change d r⟩
  | host a =>
    obtain ⟨F, hF, does⟩ := hostTurn_does (fun ha => hr (congrArg Turn.host ha)) ht
    obtain rfl := Host.Outcome.next.inj ((does s (.refl s)).symm.trans ht)
    exact ⟨_, does u h.hostSees, h.afterHost hF⟩

end SameButRunningEnc

/-- Settles O58: `unspecifiedByte` decides what the host reads and `hiddenByte` what an engine reads; a running operation's
registers and bytes are nothing that a turn of another agent looks at. -/
theorem unfinishedOutputReadsFree : Obligations.UnfinishedOutputReadsFree := by
  constructor
  · intro s b off hc a encHas decHas unfinished
    have free : unspecifiedByte s b a = true ↔ unfinished := unspecifiedByte_iff
    have decWritten : decWrote s a = true ↔ s.dec.phase = .loop ∧ decHas := decWrote_iff s a
    have encWritten : encWrote s a = true ↔ (s.enc.phase = .loop ∨ s.enc.phase = .tail) ∧ encHas := encWrote_iff s a
    refine ⟨fun h => hostLoad_unspecified hc (free.mpr h), fun h v hv => hostLoad_known hc (mt free.mp h) hv,
      ?_, ?_, ?_, ?_⟩
    · rintro rfl h
      exact loadByte_hidden hc (if_pos (decWritten.mpr h))
    · rintro rfl h v hv
      exact loadByte_known hc (if_neg (mt decWritten.mp h)) hv
    · rintro rfl h
      exact loadByte_hidden hc (if_pos (encWritten.mpr h))
    · rintro rfl h v hv
      exact loadByte_known hc (if_neg (mt encWritten.mp h)) hv
  · intro s u t turn rest hs hr ht
    rw [step_scripted hs] at ht
    have scripted (hu : u.script = s.script) : step u = turnOf turn { u with script := rest } := step_scripted (hu.trans hs)
    constructor
    · intro h hd
      rw [scripted (by rw [h.rest])]
      exact (h.withScript rest).turn_same hd hr ht
    · intro h he
      rw [scripted (by rw [h.rest])]
      exact (h.withScript rest).turn_same he hr ht

end Sys2Proof.Machine
end
